-- ==== Sys2Proof/Word.lean ====
section
/-! DEFINITION. The two widths of the machine (rule R5): a word is 16 bits, a dword is 32 bits. -/

namespace Sys2Proof

/-- A word: 16 bits, the unit of RAM addressing (rules R5, R12). -/
abbrev Word := BitVec 16

/-- A dword: 32 bits, also the pattern of a binary32 number (rules R5, R23). -/
abbrev Dword := BitVec 32

end Sys2Proof
end

