-- ==== Sys2Proof/Machine/Numeric.lean ====
section
/-! DEFINITION. The readings of words as numbers and back (rules R7, R9, R10). -/

namespace Sys2Proof.Machine

/-- `u16(v)`: the low 16 bits of an integer, two's complement (rules R9, R10). -/
def u16 (v : Int) : Word := BitVec.ofInt 16 v

/-- `u32(v)`: the low 32 bits of an integer, two's complement (rules R9, R10). -/
def u32 (v : Int) : Dword := BitVec.ofInt 32 v

/-- The unsigned reading of a word (rule R170). -/
def uInt (w : Word) : Int := Int.ofNat w.toNat

/-- `s16(w)`: the signed reading of a word (rule R10). -/
def s16 (w : Word) : Int := w.toInt

/-- `s32(d)`: the signed reading of a dword (rule R10). -/
def s32 (d : Dword) : Int := d.toInt

/-- Bits 31:16 of a dword (rule R10). -/
def hi16 (d : Dword) : Word := d.extractLsb' 16 16

/-- Bits 15:0 of a dword (rule R10). -/
def lo16 (d : Dword) : Word := d.extractLsb' 0 16

/-- `hi:lo`, the dword of two words (rule R7). -/
def dword (hi lo : Word) : Dword := hi ++ lo

/-- `zext_32(w)` (rule R10). -/
def zext32 (w : Word) : Dword := w.setWidth 32

/-- `u16(t >> 16)`, the overflow half of an exact result: the shift is arithmetic, `floor(t / 2^16)` (rule R9). -/
def overflowHalf (t : Int) : Word := u16 (t >>> (16 : Nat))

end Sys2Proof.Machine
end

