-- ==== Sys2Proof/Machine/Flags.lean ====
section
/-! DEFINITION. The results of the Basic arithmetic and shift opcodes and the EX they set: EX is the machine's only
flag-like state (rules R24, R25). Each is computed exactly over the integers and narrowed at the end (rules R9,
R199). -/

namespace Sys2Proof.Machine

/-- A result and the EX beside it. -/
structure WithEx where
  value : Word
  ex : Word
deriving DecidableEq, Repr

/-- The low half of an exact result and its overflow half. -/
def splitExact (t : Int) : WithEx := ⟨u16 t, overflowHalf t⟩

/-- ADD (rule R183): EX is 1 on a carry. -/
def addEx (a b : Word) : WithEx := splitExact (uInt a + uInt b)

/-- SUB (rule R184): EX is 0xffff on a borrow. -/
def subEx (a b : Word) : WithEx := splitExact (uInt a - uInt b)

/-- MUL (rule R185): EX is the high word of the unsigned product. -/
def mulEx (a b : Word) : WithEx := splitExact (uInt a * uInt b)

/-- MLI (rule R186): EX is the high word of the signed product. -/
def mliEx (a b : Word) : WithEx := splitExact (s16 a * s16 b)

/-- DIV (rule R187): EX is the first 16 fraction bits; a zero divisor gives 0 and 0. -/
def divEx (a b : Word) : WithEx :=
  if b = 0 then ⟨0, 0⟩
  else ⟨BitVec.ofNat 16 (a.toNat / b.toNat), BitVec.ofNat 16 (a.toNat * 65536 / b.toNat)⟩

/-- DVI (rule R188): the division toward zero of the signed readings; a zero divisor gives 0 and 0. -/
def dviEx (a b : Word) : WithEx :=
  if b = 0 then ⟨0, 0⟩
  else ⟨u16 ((s16 a).tdiv (s16 b)), u16 ((s16 a * 65536).tdiv (s16 b))⟩

/-- MOD (rule R189): a zero divisor gives 0; EX is not touched. -/
def modResult (a b : Word) : Word :=
  if b = 0 then 0 else BitVec.ofNat 16 (a.toNat % b.toNat)

/-- MDI (rule R190): the remainder of the division toward zero; a zero divisor gives 0; EX is not touched. -/
def mdiResult (a b : Word) : Word :=
  if b = 0 then 0 else u16 (s16 a - s16 b * (s16 a).tdiv (s16 b))

/-- SHR (rule R194): the count is the whole of `b`; EX is the bits shifted out, left-aligned. -/
def shrEx (a b : Word) : WithEx :=
  ⟨BitVec.ofNat 16 (a.toNat >>> b.toNat), BitVec.ofNat 16 ((a.toNat * 65536) >>> b.toNat)⟩

/-- ASR (rule R195): `a` signed; EX is a logical shift of the 32-bit pattern of `a << 16`. -/
def asrEx (a b : Word) : WithEx :=
  ⟨u16 (s16 a >>> b.toNat), BitVec.ofNat 16 ((u32 (s16 a * 65536)).toNat >>> b.toNat)⟩

/-- SHL (rule R196): EX is the bits shifted out at the top. -/
def shlEx (a b : Word) : WithEx :=
  let t := a.toNat <<< b.toNat
  ⟨BitVec.ofNat 16 t, BitVec.ofNat 16 (t >>> 16)⟩

/-- ADX (rule R197): EX enters the sum unsigned. -/
def adxEx (a b ex : Word) : WithEx := splitExact (uInt a + uInt b + uInt ex)

/-- SBX (rule R198): EX enters the sum unsigned. -/
def sbxEx (a b ex : Word) : WithEx := splitExact (uInt a - uInt b + uInt ex)

end Sys2Proof.Machine
end

