-- ==== Sys2Proof/Config.lean ====
section
/-! DEFINITION. What a configuration of the machine fixes and what the spec leaves open (rules R5, R6).
A constant marked FREE has no body: nothing can be proved about its value, so a statement holds for
every value of it. The reaction of a device to HWI is the one more open parameter; its type mentions the
state, so it stands in Machine/Devices.lean. -/

namespace Sys2Proof.Config

/-- The most entries a queue may hold (rules R5, R334). -/
abbrev queueMax : Nat := 256

/-- The most devices that may be connected (rules R5, R351). -/
abbrev maxDevices : Nat := 65535

/-- FREE. `N_HW`, the number of connected devices, fixed for a run (rules R6, R350). Sixteen bits hold exactly
0 to 65535, so a configuration of more devices cannot be written down (rule R351; log entry 6). -/
opaque deviceCount : Word

/-- FREE. The 32-bit hardware id of a device (rules R6, R293, R350; log entry 6). -/
opaque deviceId : Word → Dword

/-- FREE. The 32-bit manufacturer of a device (rules R6, R293, R350; log entry 6). -/
opaque deviceManufacturer : Word → Dword

/-- FREE. The 16-bit version of a device (rules R6, R293, R350; log entry 6). -/
opaque deviceVersion : Word → Word

/-- FREE. `F2I_NONFINITE(p, N)`: the `N`-bit integer that a NaN or an infinity of pattern `p` converts to
(rules R6, R142; log entry 4). -/
opaque nonFiniteToInt : (n : Nat) → Dword → BitVec n

/-- FREE. The raw draw from which the NaN pattern of one float operation is made, afresh at each use
(`NAN_BITS`, rules R6, R221; log entry 5). -/
opaque nanDraw : Nat → Dword

/-- FREE. The cycles an interrupt entry costs, for which the source gives no number (rule R400; log entry 12). -/
opaque entryCycles : Nat

end Sys2Proof.Config
end

