-- ==== Sys2Proof/Machine/Float.lean ====
section
/-! DEFINITION. Binary32 arithmetic (rules R23, R142, R143, R221, R222, R227). Every finite binary32 number is a
whole multiple of 2^-149, so a finite value is held exactly as a sign and a natural number of that unit. Every
operation computes its exact result and, where the format may not hold it, rounds once. -/

namespace Sys2Proof.Machine

/-- The value of a binary32 pattern. `finite neg n` is `n * 2^-149`, negated if `neg`; zero keeps its sign. -/
inductive FloatValue where
  | nan
  | infinite (neg : Bool)
  | finite (neg : Bool) (n : Nat)
deriving DecidableEq, Repr

/-- The value of a pattern: sign bit 31, exponent 30:23 with bias 127, fraction 22:0 (rule R23). -/
def floatValue (p : Dword) : FloatValue :=
  let neg := p.getLsbD 31
  let e := (p.extractLsb' 23 8).toNat
  let f := (p.extractLsb' 0 23).toNat
  if e = 255 then (if f = 0 then .infinite neg else .nan)
  else if e = 0 then .finite neg f
  else .finite neg ((2 ^ 23 + f) <<< (e - 1))

/-- The pattern of a sign, an exponent field and a fraction field (rule R23). -/
def packFloat (neg : Bool) (e f : Nat) : Dword :=
  BitVec.ofBool neg ++ BitVec.ofNat 8 e ++ BitVec.ofNat 23 f

/-- The infinity of a sign. -/
def infinityOf (neg : Bool) : Dword := packFloat neg 255 0

/-- The zero of a sign. -/
def zeroOf (neg : Bool) : Dword := packFloat neg 0 0

/-- `num / den` to the nearest natural number, a tie to the even one (`RM`, rule R6). -/
def nearestEven (num den : Nat) : Nat :=
  let q := num / den
  let r := num % den
  if 2 * r < den then q
  else if den < 2 * r then q + 1
  else q + q % 2

/-- The pattern of `q * 2^k` units for `q` at most 2^24: a subnormal number when `k` is 0 and `q` is below 2^23, an
infinity when the exponent field would be 255 or more (rule R221). -/
def packUnits (neg : Bool) (q k : Nat) : Dword :=
  if q < 2 ^ 23 then packFloat neg 0 q
  else if q < 2 ^ 24 then (if k + 1 < 255 then packFloat neg (k + 1) (q - 2 ^ 23) else infinityOf neg)
  else if k + 2 < 255 then packFloat neg (k + 2) 0 else infinityOf neg

/-- The exact value `num / den` units of 2^-149, rounded once to binary32: to nearest, ties to even, subnormal
numbers kept, an infinity when too large (rules R6, R143, R221). The spacing `2^k` is the one at which the value
has 24 bits, and at least one unit. -/
def roundUnits (neg : Bool) (num den : Nat) : Dword :=
  let k := (num / den).log2 - 23
  packUnits neg (nearestEven num (den <<< k)) k

/-- The pattern of the NaN that a float operation produces, drawn afresh at each use: exponent bits all ones,
fraction not zero, nothing else known (`NAN_BITS`, rule R221; log entry 5). -/
def freshNan (draw : Nat) : Dword :=
  let p := Config.nanDraw draw
  if p.extractLsb' 0 23 = 0 then p ||| 0x7fc00000 else p ||| 0x7f800000

/-- The signed number of units of a finite value. -/
def signedUnits (neg : Bool) (n : Nat) : Int := if neg then -Int.ofNat n else Int.ofNat n

/-- `x + y` (rule R221); `nan` is the pattern of a NaN result. An exact zero sum of unlike signs is +0.0. -/
def floatAdd (nan x y : Dword) : Dword :=
  match floatValue x, floatValue y with
  | .nan, _ => nan
  | _, .nan => nan
  | .infinite s, .infinite t => if s = t then infinityOf s else nan
  | .infinite s, .finite _ _ => infinityOf s
  | .finite _ _, .infinite t => infinityOf t
  | .finite s n, .finite t m =>
    let sum := signedUnits s n + signedUnits t m
    if sum = 0 then zeroOf (s && t) else roundUnits (decide (sum < 0)) sum.natAbs 1

/-- The pattern with its sign bit inverted. -/
def floatNegate (p : Dword) : Dword := p ^^^ 0x80000000

/-- `x - y` (rule R221). -/
def floatSub (nan x y : Dword) : Dword := floatAdd nan x (floatNegate y)

/-- `x * y` (rule R221): the sign is that of the product, also of a zero. -/
def floatMul (nan x y : Dword) : Dword :=
  match floatValue x, floatValue y with
  | .nan, _ => nan
  | _, .nan => nan
  | .infinite s, .infinite t => infinityOf (s ^^ t)
  | .infinite s, .finite t m => if m = 0 then nan else infinityOf (s ^^ t)
  | .finite s n, .infinite t => if n = 0 then nan else infinityOf (s ^^ t)
  | .finite s n, .finite t m => roundUnits (s ^^ t) (n * m) (2 ^ 149)

/-- The value is a zero of either sign: the test `b == 0` of FDIV and FMOD (rules R222, R226). -/
def isFloatZero (p : Dword) : Bool := decide (floatValue p = .finite false 0 ∨ floatValue p = .finite true 0)

/-- FDIV's result (rules R221, R226): +0.0 for a zero divisor, else the quotient. -/
def floatDiv (nan x y : Dword) : Dword :=
  if isFloatZero y then zeroOf false
  else
    match floatValue x, floatValue y with
    | .nan, _ => nan
    | _, .nan => nan
    | .infinite _, .infinite _ => nan
    | .infinite s, .finite t _ => infinityOf (s ^^ t)
    | .finite s _, .infinite t => zeroOf (s ^^ t)
    | .finite s n, .finite t m => roundUnits (s ^^ t) (n <<< 149) m

/-- FMOD's result (rule R227): +0.0 for a zero divisor, else the exact remainder of the division toward zero, with
the sign of the dividend. -/
def floatMod (nan x y : Dword) : Dword :=
  if isFloatZero y then zeroOf false
  else
    match floatValue x, floatValue y with
    | .nan, _ => nan
    | _, .nan => nan
    | .infinite _, _ => nan
    | .finite _ _, .infinite _ => x
    | .finite s n, .finite _ m => roundUnits s (n % m) 1

/-- `x == y` on the values: false when either is a NaN, true of zeros of unlike signs (rule R222). -/
def floatEq (x y : Dword) : Bool :=
  match floatValue x, floatValue y with
  | .nan, _ => false
  | _, .nan => false
  | .infinite s, .infinite t => s == t
  | .infinite _, .finite _ _ => false
  | .finite _ _, .infinite _ => false
  | .finite s n, .finite t m => decide (signedUnits s n = signedUnits t m)

/-- `x < y` on the values: false when either is a NaN (rule R222). -/
def floatLt (x y : Dword) : Bool :=
  match floatValue x, floatValue y with
  | .nan, _ => false
  | _, .nan => false
  | .infinite s, .infinite t => s && !t
  | .infinite s, .finite _ _ => s
  | .finite _ _, .infinite t => !t
  | .finite s n, .finite t m => decide (signedUnits s n < signedUnits t m)

/-- `i2f(n)`: an integer as binary32, rounded by `RM` when it has more than 24 significant bits; 0 is +0.0
(rule R143). -/
def intToFloat (n : Int) : Dword :=
  if n = 0 then zeroOf false else roundUnits (decide (n < 0)) (n.natAbs <<< 149) 1

/-- `f2i_N(p)`: the value with its fraction dropped, its low `N` bits in two's complement; of a NaN or an infinity
the open parameter (rule R142; log entry 4). -/
def floatToInt (n : Nat) (p : Dword) : BitVec n :=
  match floatValue p with
  | .nan => Config.nonFiniteToInt n p
  | .infinite _ => Config.nonFiniteToInt n p
  | .finite neg m => BitVec.ofInt n (signedUnits neg (m >>> 149))

end Sys2Proof.Machine
end

