-- ==== Sys2Proof/Syntax.lean ====
section
/-! DEFINITION. The instructions, as syntax: the value codes of rule R120 with their next words, an operand
with its spelling (direct or through an extension word, rule R100), and one constructor of `Instr` for every
row of spec/opcode_table.json. -/

namespace Sys2Proof

/-- The eight 16-bit general registers, in the order of the value table (rule R20). -/
inductive Reg where
  | a | b | c | i | xh | xl | yh | yl
deriving DecidableEq, Repr

/-- The two 32-bit pairings DX = XH:XL and DY = YH:YL (rule R21). -/
inductive DReg where
  | dx | dy
deriving DecidableEq, Repr

/-- The two float registers (rule R23). -/
inductive FReg where
  | fa | fb
deriving DecidableEq, Repr

/-- What a value code names, with the next word of the codes that take one (rule R120). Code 0x0f is no
constructor: it is the extended spelling of an `Operand`. -/
inductive Value where
  /-- 0x00 to 0x07: a general register. -/
  | reg (r : Reg)
  /-- 0x08, 0x09: DX or DY. -/
  | dreg (d : DReg)
  /-- 0x0a, 0x0b: FA or FB. -/
  | freg (f : FReg)
  /-- 0x0c: PUSH as first parameter, POP as second (rules R125, R126). -/
  | stack
  /-- 0x0d: `[SP + next word]`, PICK n. -/
  | pick (n : Word)
  /-- 0x0e: `[SP]`, PEEK. -/
  | peek
  /-- 0x10 to 0x17: `[register]`. -/
  | ind (r : Reg)
  /-- 0x18 to 0x1f: `[register + next word]`. -/
  | idx (r : Reg) (n : Word)
  /-- 0x20: the next word as a literal. -/
  | next (n : Word)
  /-- 0x21: EX. -/
  | ex
  /-- 0x22: PC. -/
  | pc
  /-- 0x23: SP. -/
  | sp
  /-- 0x24: `[next word]`. -/
  | mem (n : Word)
  /-- 0x25: the literal 0xffff. -/
  | minusOne
  /-- 0x26 to 0x35: the literals 0 to 15. -/
  | small (k : BitVec 4)
  /-- 0x36 to 0x3f: the literals 2^4 to 2^13. -/
  | power (k : Fin 10)
deriving DecidableEq, Repr

/-- One parameter of an instruction: its value and whether the field holds 0x0f with the value's code in an
extension word (rules R100, R130). -/
structure Operand where
  extended : Bool
  value : Value
deriving DecidableEq, Repr

/-- The instructions: one constructor for each row of spec/opcode_table.json. Parameters stand in the order of
the format: `a, b` (Basic, Float), `b, c` (Load), `c` (Special), none (Binary). -/
inductive Instr where
  /-- IFB (rule R173). -/
  | ifb (a b : Operand)
  /-- IFC (rule R174). -/
  | ifc (a b : Operand)
  /-- IFE (rule R175). -/
  | ife (a b : Operand)
  /-- IFN (rule R176). -/
  | ifn (a b : Operand)
  /-- IFG (rule R177). -/
  | ifg (a b : Operand)
  /-- IFA (rule R178). -/
  | ifa (a b : Operand)
  /-- IFL (rule R179). -/
  | ifl (a b : Operand)
  /-- IFU (rule R180). -/
  | ifu (a b : Operand)
  /-- STI (rule R181). -/
  | sti (a b : Operand)
  /-- STD (rule R182). -/
  | std (a b : Operand)
  /-- ADD (rule R183). -/
  | add (a b : Operand)
  /-- SUB (rule R184). -/
  | sub (a b : Operand)
  /-- MUL (rule R185). -/
  | mul (a b : Operand)
  /-- MLI (rule R186). -/
  | mli (a b : Operand)
  /-- DIV (rule R187). -/
  | div (a b : Operand)
  /-- DVI (rule R188). -/
  | dvi (a b : Operand)
  /-- MOD (rule R189). -/
  | mod (a b : Operand)
  /-- MDI (rule R190). -/
  | mdi (a b : Operand)
  /-- AND (rule R191). -/
  | and (a b : Operand)
  /-- BOR (rule R192). -/
  | bor (a b : Operand)
  /-- XOR (rule R193). -/
  | xor (a b : Operand)
  /-- SHR (rule R194). -/
  | shr (a b : Operand)
  /-- ASR (rule R195). -/
  | asr (a b : Operand)
  /-- SHL (rule R196). -/
  | shl (a b : Operand)
  /-- ADX (rule R197). -/
  | adx (a b : Operand)
  /-- SBX (rule R198). -/
  | sbx (a b : Operand)
  /-- FADD (rule R223). -/
  | fadd (a b : Operand)
  /-- FSUB (rule R224). -/
  | fsub (a b : Operand)
  /-- FMUL (rule R225). -/
  | fmul (a b : Operand)
  /-- FDIV (rule R226). -/
  | fdiv (a b : Operand)
  /-- FMOD (rule R227). -/
  | fmod (a b : Operand)
  /-- FIFE (rule R228). -/
  | fife (a b : Operand)
  /-- FIFN (rule R229). -/
  | fifn (a b : Operand)
  /-- FIFG (rule R230). -/
  | fifg (a b : Operand)
  /-- FIFL (rule R231). -/
  | fifl (a b : Operand)
  /-- FSET (rule R232). -/
  | fset (a b : Operand)
  /-- SET (rule R250). -/
  | set (b c : Operand)
  /-- DSET (rule R251). -/
  | dset (b c : Operand)
  /-- JSR (rule R271). -/
  | jsr (c : Operand)
  /-- CALL (rule R272). -/
  | call (c : Operand)
  /-- MOVH (rule R273). -/
  | movh (c : Operand)
  /-- MOVL (rule R274). -/
  | movl (c : Operand)
  /-- MOVT (rule R275). -/
  | movt (c : Operand)
  /-- PCS (rule R277). -/
  | pcs (c : Operand)
  /-- MOV (rule R277): the other name of PCS; its words decode to `pcs` (rule R112). -/
  | mov (c : Operand)
  /-- SPS (rule R278). -/
  | sps (c : Operand)
  /-- IAS (rule R279). -/
  | ias (c : Operand)
  /-- IAG (rule R280). -/
  | iag (c : Operand)
  /-- INT (rule R281). -/
  | int (c : Operand)
  /-- RFI (rule R290). -/
  | rfi (c : Operand)
  /-- IAQ (rule R291). -/
  | iaq (c : Operand)
  /-- HWN (rule R292). -/
  | hwn (c : Operand)
  /-- HWQ (rule R293). -/
  | hwq (c : Operand)
  /-- HWI (rule R296). -/
  | hwi (c : Operand)
  /-- IFEX (rule R311). -/
  | ifex
  /-- POPSG (rule R312). -/
  | popsg
  /-- HSG (rule R313). -/
  | hsg
  /-- LSG (rule R314). -/
  | lsg
  /-- HNG (rule R315). -/
  | hng
  /-- PUSHA (rule R316). -/
  | pusha
  /-- POPA (rule R317). -/
  | popa
deriving DecidableEq, Repr

end Sys2Proof
end

