-- ==== Sys2Proof/WellFormed.lean ====
section
/-! DEFINITION. Which instruction terms an encoding exists for. The types of Syntax.lean already bound every
literal and register; the one check left is that the first parameter of a Basic or Float instruction fits the
4-bit field `a` (rules R92, R93, R121): codes 0x10 to 0x3f reach it only through an extension word. -/

namespace Sys2Proof

/-- The value's code is 0x00 to 0x0e, so that a 4-bit field holds it directly (rule R121). -/
def Value.fitsFourBits : Value → Bool
  | .reg _ => true
  | .dreg _ => true
  | .freg _ => true
  | .stack => true
  | .pick _ => true
  | .peek => true
  | .ind _ => false
  | .idx _ _ => false
  | .next _ => false
  | .ex => false
  | .pc => false
  | .sp => false
  | .mem _ => false
  | .minusOne => false
  | .small _ => false
  | .power _ => false

/-- The operand can stand in a 4-bit field: its code fits, or the field holds 0x0f (rules R111, R121). -/
def Operand.fitsFourBits (o : Operand) : Bool :=
  o.extended || o.value.fitsFourBits

/-- The operand of the 4-bit field `a` of a Basic or Float instruction; the other formats have none. -/
def Instr.narrowOperand : Instr → Option Operand
  | .ifb a _ => some a
  | .ifc a _ => some a
  | .ife a _ => some a
  | .ifn a _ => some a
  | .ifg a _ => some a
  | .ifa a _ => some a
  | .ifl a _ => some a
  | .ifu a _ => some a
  | .sti a _ => some a
  | .std a _ => some a
  | .add a _ => some a
  | .sub a _ => some a
  | .mul a _ => some a
  | .mli a _ => some a
  | .div a _ => some a
  | .dvi a _ => some a
  | .mod a _ => some a
  | .mdi a _ => some a
  | .and a _ => some a
  | .bor a _ => some a
  | .xor a _ => some a
  | .shr a _ => some a
  | .asr a _ => some a
  | .shl a _ => some a
  | .adx a _ => some a
  | .sbx a _ => some a
  | .fadd a _ => some a
  | .fsub a _ => some a
  | .fmul a _ => some a
  | .fdiv a _ => some a
  | .fmod a _ => some a
  | .fife a _ => some a
  | .fifn a _ => some a
  | .fifg a _ => some a
  | .fifl a _ => some a
  | .fset a _ => some a
  | .set _ _ => none
  | .dset _ _ => none
  | .jsr _ => none
  | .call _ => none
  | .movh _ => none
  | .movl _ => none
  | .movt _ => none
  | .pcs _ => none
  | .mov _ => none
  | .sps _ => none
  | .ias _ => none
  | .iag _ => none
  | .int _ => none
  | .rfi _ => none
  | .iaq _ => none
  | .hwn _ => none
  | .hwq _ => none
  | .hwi _ => none
  | .ifex => none
  | .popsg => none
  | .hsg => none
  | .lsg => none
  | .hng => none
  | .pusha => none
  | .popa => none

/-- The instruction has an encoding: its 4-bit field, where it has one, can hold its operand. -/
def Instr.wellFormed (i : Instr) : Bool :=
  match i.narrowOperand with
  | some a => a.fitsFourBits
  | none => true

end Sys2Proof
end

