-- ==== Sys2Proof/Decode.lean ====
section
/-! DEFINITION. From words to instructions and back (30_encoding.md): the decoder, total on any words and
rejecting by name, then the encoder written from the same format strings. Also what the syntax alone says of an
instruction: its parameters, its length, whether it is a conditional. -/

namespace Sys2Proof

/-- Why words are no instruction: the first word has no format or no defined opcode (rules R97, R106), or the
extension word names no value (rules R100, R130). -/
inductive DecodeError where
  | illegalInstruction
  | badExtensionWord
deriving DecidableEq, Repr

/-- The number of a general register, 0 to 7 (rule R20). -/
def Reg.number : Reg → Nat
  | .a => 0
  | .b => 1
  | .c => 2
  | .i => 3
  | .xh => 4
  | .xl => 5
  | .yh => 6
  | .yl => 7

/-- The general register of a number, read modulo 8 (rule R20). -/
def Reg.ofNumber (n : Nat) : Reg :=
  match n % 8 with
  | 0 => .a
  | 1 => .b
  | 2 => .c
  | 3 => .i
  | 4 => .xh
  | 5 => .xl
  | 6 => .yh
  | _ => .yl

/-- The value a code names, `n` being the word a next-word code would take (rule R120); `none` for 0x0f and for
every number above 0x3f, which name no value (rule R100). -/
def Value.decode (code : Nat) (n : Word) : Option Value :=
  if code < 0x08 then some (.reg (Reg.ofNumber code))
  else if code = 0x08 then some (.dreg .dx)
  else if code = 0x09 then some (.dreg .dy)
  else if code = 0x0a then some (.freg .fa)
  else if code = 0x0b then some (.freg .fb)
  else if code = 0x0c then some .stack
  else if code = 0x0d then some (.pick n)
  else if code = 0x0e then some .peek
  else if code = 0x0f then none
  else if code < 0x18 then some (.ind (Reg.ofNumber code))
  else if code < 0x20 then some (.idx (Reg.ofNumber code) n)
  else if code = 0x20 then some (.next n)
  else if code = 0x21 then some .ex
  else if code = 0x22 then some .pc
  else if code = 0x23 then some .sp
  else if code = 0x24 then some (.mem n)
  else if code = 0x25 then some .minusOne
  else if code < 0x36 then some (.small (BitVec.ofNat 4 (code - 0x26)))
  else if h : code < 0x40 then some (.power ⟨code - 0x36, by omega⟩)
  else none

/-- The operand of a field: its own code, or for 0x0f the code in the extension word `w1` (rules R99, R100, R130).
`w1` and `w2` are the two words that follow what has been read so far. -/
def Operand.decode (field : BitVec 6) (w1 w2 : Word) : Except DecodeError Operand :=
  match Value.decode field.toNat w1 with
  | some v => .ok ⟨false, v⟩
  | none =>
    match Value.decode w1.toNat w2 with
    | some v => .ok ⟨true, v⟩
    | none => .error .badExtensionWord

/-- How many next words a value takes: `nw` of rule R99. -/
def Value.nextWords : Value → Nat
  | .reg _ => 0
  | .dreg _ => 0
  | .freg _ => 0
  | .stack => 0
  | .pick _ => 1
  | .peek => 0
  | .ind _ => 0
  | .idx _ _ => 1
  | .next _ => 1
  | .ex => 0
  | .pc => 0
  | .sp => 0
  | .mem _ => 1
  | .minusOne => 0
  | .small _ => 0
  | .power _ => 0

/-- How many words an operand owns after the first word: 0, 1 or 2 (rules R98, R99). -/
def Operand.length (o : Operand) : Nat :=
  (if o.extended then 1 else 0) + o.value.nextWords

/-- The parameters of an instruction, left to right (rule R98). -/
def Instr.operands : Instr → List Operand
  | .ifb a b => [a, b]
  | .ifc a b => [a, b]
  | .ife a b => [a, b]
  | .ifn a b => [a, b]
  | .ifg a b => [a, b]
  | .ifa a b => [a, b]
  | .ifl a b => [a, b]
  | .ifu a b => [a, b]
  | .sti a b => [a, b]
  | .std a b => [a, b]
  | .add a b => [a, b]
  | .sub a b => [a, b]
  | .mul a b => [a, b]
  | .mli a b => [a, b]
  | .div a b => [a, b]
  | .dvi a b => [a, b]
  | .mod a b => [a, b]
  | .mdi a b => [a, b]
  | .and a b => [a, b]
  | .bor a b => [a, b]
  | .xor a b => [a, b]
  | .shr a b => [a, b]
  | .asr a b => [a, b]
  | .shl a b => [a, b]
  | .adx a b => [a, b]
  | .sbx a b => [a, b]
  | .fadd a b => [a, b]
  | .fsub a b => [a, b]
  | .fmul a b => [a, b]
  | .fdiv a b => [a, b]
  | .fmod a b => [a, b]
  | .fife a b => [a, b]
  | .fifn a b => [a, b]
  | .fifg a b => [a, b]
  | .fifl a b => [a, b]
  | .fset a b => [a, b]
  | .set b c => [b, c]
  | .dset b c => [b, c]
  | .jsr c => [c]
  | .call c => [c]
  | .movh c => [c]
  | .movl c => [c]
  | .movt c => [c]
  | .pcs c => [c]
  | .mov c => [c]
  | .sps c => [c]
  | .ias c => [c]
  | .iag c => [c]
  | .int c => [c]
  | .rfi c => [c]
  | .iaq c => [c]
  | .hwn c => [c]
  | .hwq c => [c]
  | .hwi c => [c]
  | .ifex => []
  | .popsg => []
  | .hsg => []
  | .lsg => []
  | .hng => []
  | .pusha => []
  | .popa => []

/-- The length of an instruction in words: 1 and the words its parameters own (rule R99). -/
def Instr.length (i : Instr) : Nat :=
  1 + (i.operands.map Operand.length).sum

/-- The instruction is one of the thirteen conditionals (rule R171): a skip passes over it and one more. -/
def Instr.isConditional : Instr → Bool
  | .ifb _ _ => true
  | .ifc _ _ => true
  | .ife _ _ => true
  | .ifn _ _ => true
  | .ifg _ _ => true
  | .ifa _ _ => true
  | .ifl _ _ => true
  | .ifu _ _ => true
  | .sti _ _ => false
  | .std _ _ => false
  | .add _ _ => false
  | .sub _ _ => false
  | .mul _ _ => false
  | .mli _ _ => false
  | .div _ _ => false
  | .dvi _ _ => false
  | .mod _ _ => false
  | .mdi _ _ => false
  | .and _ _ => false
  | .bor _ _ => false
  | .xor _ _ => false
  | .shr _ _ => false
  | .asr _ _ => false
  | .shl _ _ => false
  | .adx _ _ => false
  | .sbx _ _ => false
  | .fadd _ _ => false
  | .fsub _ _ => false
  | .fmul _ _ => false
  | .fdiv _ _ => false
  | .fmod _ _ => false
  | .fife _ _ => true
  | .fifn _ _ => true
  | .fifg _ _ => true
  | .fifl _ _ => true
  | .fset _ _ => false
  | .set _ _ => false
  | .dset _ _ => false
  | .jsr _ => false
  | .call _ => false
  | .movh _ => false
  | .movl _ => false
  | .movt _ => false
  | .pcs _ => false
  | .mov _ => false
  | .sps _ => false
  | .ias _ => false
  | .iag _ => false
  | .int _ => false
  | .rfi _ => false
  | .iaq _ => false
  | .hwn _ => false
  | .hwq _ => false
  | .hwi _ => false
  | .ifex => true
  | .popsg => false
  | .hsg => false
  | .lsg => false
  | .hng => false
  | .pusha => false
  | .popa => false

/-- The Basic opcodes, `w[14:10]` (rule R101); `none` for the undefined ones. -/
def basicOpcode (o : Nat) : Option (Operand → Operand → Instr) :=
  match o with
  | 0x00 => some .ifb
  | 0x01 => some .ifc
  | 0x02 => some .ife
  | 0x03 => some .ifn
  | 0x04 => some .ifg
  | 0x05 => some .ifa
  | 0x06 => some .ifl
  | 0x07 => some .ifu
  | 0x09 => some .sti
  | 0x0a => some .std
  | 0x0b => some .add
  | 0x0c => some .sub
  | 0x0d => some .mul
  | 0x0e => some .mli
  | 0x0f => some .div
  | 0x10 => some .dvi
  | 0x11 => some .mod
  | 0x12 => some .mdi
  | 0x13 => some .and
  | 0x14 => some .bor
  | 0x15 => some .xor
  | 0x16 => some .shr
  | 0x17 => some .asr
  | 0x18 => some .shl
  | 0x1a => some .adx
  | 0x1b => some .sbx
  | _ => none

/-- The Float opcodes, `w[13:10]` (rule R102); `none` for the undefined ones. -/
def floatOpcode (o : Nat) : Option (Operand → Operand → Instr) :=
  match o with
  | 0x00 => some .fadd
  | 0x01 => some .fsub
  | 0x02 => some .fmul
  | 0x03 => some .fdiv
  | 0x04 => some .fmod
  | 0x06 => some .fife
  | 0x07 => some .fifn
  | 0x08 => some .fifg
  | 0x09 => some .fifl
  | 0x0b => some .fset
  | _ => none

/-- The Load opcodes, `w[12]`, both defined (rule R103). -/
def loadOpcode (o : BitVec 1) : Operand → Operand → Instr :=
  if o = 0 then .set else .dset

/-- The Special opcodes, `w[11:6]` (rule R104); `none` for the undefined ones. The word of MOV decodes to PCS (rule R112). -/
def specialOpcode (o : Nat) : Option (Operand → Instr) :=
  match o with
  | 0x00 => some .jsr
  | 0x01 => some .call
  | 0x04 => some .movh
  | 0x05 => some .movl
  | 0x06 => some .movt
  | 0x0b => some .pcs
  | 0x0c => some .sps
  | 0x0f => some .ias
  | 0x10 => some .iag
  | 0x12 => some .int
  | 0x13 => some .rfi
  | 0x14 => some .iaq
  | 0x16 => some .hwn
  | 0x17 => some .hwq
  | 0x18 => some .hwi
  | _ => none

/-- The Binary opcodes, `w[10:0]` (rule R105); `none` for the undefined ones. -/
def binaryOpcode (o : Nat) : Option Instr :=
  match o with
  | 0x01 => some .ifex
  | 0x04 => some .popsg
  | 0x05 => some .hsg
  | 0x06 => some .lsg
  | 0x08 => some .hng
  | 0x0b => some .pusha
  | 0x0c => some .popa
  | _ => none

/-- Two parameters from their fields and the four words after the first word, the first parameter's words before
the second's (rule R98). -/
def decodeTwo (build : Operand → Operand → Instr) (f1 f2 : BitVec 6) (w1 w2 w3 w4 : Word) :
    Except DecodeError Instr :=
  match Operand.decode f1 w1 w2 with
  | .error e => .error e
  | .ok first =>
    let second :=
      match first.length with
      | 0 => Operand.decode f2 w1 w2
      | 1 => Operand.decode f2 w2 w3
      | _ => Operand.decode f2 w3 w4
    match second with
    | .error e => .error e
    | .ok o => .ok (build first o)

/-- One parameter from its field and the two words after the first word. -/
def decodeOne (build : Operand → Instr) (f : BitVec 6) (w1 w2 : Word) : Except DecodeError Instr :=
  match Operand.decode f w1 w2 with
  | .error e => .error e
  | .ok o => .ok (build o)

/-- The instruction that begins with the first word `w`, given the four words after it, as many as the longest
instruction has (rule R99). The format is that of the leading one bit (rule R91), an undefined opcode is rejected
before any extension word is looked at (rules R106, R108). -/
def decode (w w1 w2 w3 w4 : Word) : Except DecodeError Instr :=
  if w.getLsbD 15 then
    match basicOpcode (w.extractLsb' 10 5).toNat with
    | some build => decodeTwo build ((w.extractLsb' 6 4).setWidth 6) (w.extractLsb' 0 6) w1 w2 w3 w4
    | none => .error .illegalInstruction
  else if w.getLsbD 14 then
    match floatOpcode (w.extractLsb' 10 4).toNat with
    | some build => decodeTwo build ((w.extractLsb' 6 4).setWidth 6) (w.extractLsb' 0 6) w1 w2 w3 w4
    | none => .error .illegalInstruction
  else if w.getLsbD 13 then
    decodeTwo (loadOpcode (w.extractLsb' 12 1)) (w.extractLsb' 6 6) (w.extractLsb' 0 6) w1 w2 w3 w4
  else if w.getLsbD 12 then
    match specialOpcode (w.extractLsb' 6 6).toNat with
    | some build => decodeOne build (w.extractLsb' 0 6) w1 w2
    | none => .error .illegalInstruction
  else if w.getLsbD 11 then
    match binaryOpcode (w.extractLsb' 0 11).toNat with
    | some i => .ok i
    | none => .error .illegalInstruction
  else
    .error .illegalInstruction

/-- The decoder on a list of words: the instruction at its head, a word past the end of the list read as 0. -/
def decodeWords (ws : List Word) : Except DecodeError Instr :=
  decode (ws.getD 0 0) (ws.getD 1 0) (ws.getD 2 0) (ws.getD 3 0) (ws.getD 4 0)

/-- The five words that an instruction of the opcode table occupies when its table bits are the low `nbits` of `w`
and every bit above them is 0; bit 0 is the least significant bit of the first word. -/
def tableWords (nbits w : Nat) : List Word :=
  let v := w % 2 ^ nbits
  [BitVec.ofNat 16 v, BitVec.ofNat 16 (v >>> 16), BitVec.ofNat 16 (v >>> 32), BitVec.ofNat 16 (v >>> 48),
    BitVec.ofNat 16 (v >>> 64)]

/-- What the decoder reads from an instruction numbered as spec/opcode_table.json numbers its bits. -/
def decodeTableWord (nbits w : Nat) : Option Instr :=
  match decodeWords (tableWords nbits w) with
  | .ok i => some i
  | .error _ => none

/-! ## The encoder -/

/-- The value code of a value (rule R120). -/
def Value.code : Value → BitVec 6
  | .reg r => BitVec.ofNat 6 r.number
  | .dreg .dx => 0x08
  | .dreg .dy => 0x09
  | .freg .fa => 0x0a
  | .freg .fb => 0x0b
  | .stack => 0x0c
  | .pick _ => 0x0d
  | .peek => 0x0e
  | .ind r => BitVec.ofNat 6 (0x10 + r.number)
  | .idx r _ => BitVec.ofNat 6 (0x18 + r.number)
  | .next _ => 0x20
  | .ex => 0x21
  | .pc => 0x22
  | .sp => 0x23
  | .mem _ => 0x24
  | .minusOne => 0x25
  | .small k => BitVec.ofNat 6 (0x26 + k.toNat)
  | .power k => BitVec.ofNat 6 (0x36 + k.val)

/-- The next word of a value that takes one (rule R120). -/
def Value.words : Value → List Word
  | .reg _ => []
  | .dreg _ => []
  | .freg _ => []
  | .stack => []
  | .pick n => [n]
  | .peek => []
  | .ind _ => []
  | .idx _ n => [n]
  | .next n => [n]
  | .ex => []
  | .pc => []
  | .sp => []
  | .mem n => [n]
  | .minusOne => []
  | .small _ => []
  | .power _ => []

/-- The code an operand puts in its field: its own, or 0x0f when it is extended (rule R100). -/
def Operand.field (o : Operand) : BitVec 6 :=
  if o.extended then 0x0f else o.value.code

/-- The words an operand owns: the extension word first, then its own next word (rule R98). -/
def Operand.words (o : Operand) : List Word :=
  if o.extended then o.value.code.setWidth 16 :: o.value.words else o.value.words

/-- Basic: `1oooooaaaabbbbbb` and the operand words (rules R90, R92). -/
def encodeBasic (o : BitVec 5) (a b : Operand) : List Word :=
  (1#1 ++ o ++ a.field.setWidth 4 ++ b.field) :: (a.words ++ b.words)

/-- Float: `01ooooaaaabbbbbb` and the operand words (rules R90, R93). -/
def encodeFloat (o : BitVec 4) (a b : Operand) : List Word :=
  (1#2 ++ o ++ a.field.setWidth 4 ++ b.field) :: (a.words ++ b.words)

/-- Load: `001obbbbbbcccccc` and the operand words (rules R90, R94). -/
def encodeLoad (o : BitVec 1) (b c : Operand) : List Word :=
  (1#3 ++ o ++ b.field ++ c.field) :: (b.words ++ c.words)

/-- Special: `0001oooooocccccc` and the operand words (rules R90, R95). -/
def encodeSpecial (o : BitVec 6) (c : Operand) : List Word :=
  (1#4 ++ o ++ c.field) :: c.words

/-- Binary: `00001ooooooooooo`, one word (rules R90, R96). -/
def encodeBinary (o : BitVec 11) : List Word :=
  [1#5 ++ o]

/-- The words of an instruction; meant for a well-formed one (an operand too wide for its 4-bit field loses its
high bits). -/
def encode : Instr → List Word
  | .ifb a b => encodeBasic 0x00 a b
  | .ifc a b => encodeBasic 0x01 a b
  | .ife a b => encodeBasic 0x02 a b
  | .ifn a b => encodeBasic 0x03 a b
  | .ifg a b => encodeBasic 0x04 a b
  | .ifa a b => encodeBasic 0x05 a b
  | .ifl a b => encodeBasic 0x06 a b
  | .ifu a b => encodeBasic 0x07 a b
  | .sti a b => encodeBasic 0x09 a b
  | .std a b => encodeBasic 0x0a a b
  | .add a b => encodeBasic 0x0b a b
  | .sub a b => encodeBasic 0x0c a b
  | .mul a b => encodeBasic 0x0d a b
  | .mli a b => encodeBasic 0x0e a b
  | .div a b => encodeBasic 0x0f a b
  | .dvi a b => encodeBasic 0x10 a b
  | .mod a b => encodeBasic 0x11 a b
  | .mdi a b => encodeBasic 0x12 a b
  | .and a b => encodeBasic 0x13 a b
  | .bor a b => encodeBasic 0x14 a b
  | .xor a b => encodeBasic 0x15 a b
  | .shr a b => encodeBasic 0x16 a b
  | .asr a b => encodeBasic 0x17 a b
  | .shl a b => encodeBasic 0x18 a b
  | .adx a b => encodeBasic 0x1a a b
  | .sbx a b => encodeBasic 0x1b a b
  | .fadd a b => encodeFloat 0x00 a b
  | .fsub a b => encodeFloat 0x01 a b
  | .fmul a b => encodeFloat 0x02 a b
  | .fdiv a b => encodeFloat 0x03 a b
  | .fmod a b => encodeFloat 0x04 a b
  | .fife a b => encodeFloat 0x06 a b
  | .fifn a b => encodeFloat 0x07 a b
  | .fifg a b => encodeFloat 0x08 a b
  | .fifl a b => encodeFloat 0x09 a b
  | .fset a b => encodeFloat 0x0b a b
  | .set b c => encodeLoad 0x0 b c
  | .dset b c => encodeLoad 0x1 b c
  | .jsr c => encodeSpecial 0x00 c
  | .call c => encodeSpecial 0x01 c
  | .movh c => encodeSpecial 0x04 c
  | .movl c => encodeSpecial 0x05 c
  | .movt c => encodeSpecial 0x06 c
  | .pcs c => encodeSpecial 0x0b c
  | .mov c => encodeSpecial 0x0b c
  | .sps c => encodeSpecial 0x0c c
  | .ias c => encodeSpecial 0x0f c
  | .iag c => encodeSpecial 0x10 c
  | .int c => encodeSpecial 0x12 c
  | .rfi c => encodeSpecial 0x13 c
  | .iaq c => encodeSpecial 0x14 c
  | .hwn c => encodeSpecial 0x16 c
  | .hwq c => encodeSpecial 0x17 c
  | .hwi c => encodeSpecial 0x18 c
  | .ifex => encodeBinary 0x001
  | .popsg => encodeBinary 0x004
  | .hsg => encodeBinary 0x005
  | .lsg => encodeBinary 0x006
  | .hng => encodeBinary 0x008
  | .pusha => encodeBinary 0x00b
  | .popa => encodeBinary 0x00c

/-- The instruction that the words of `i` decode to: `i` itself, and PCS for its other name MOV (rule R112). -/
def Instr.canonical : Instr → Instr
  | .ifb a b => .ifb a b
  | .ifc a b => .ifc a b
  | .ife a b => .ife a b
  | .ifn a b => .ifn a b
  | .ifg a b => .ifg a b
  | .ifa a b => .ifa a b
  | .ifl a b => .ifl a b
  | .ifu a b => .ifu a b
  | .sti a b => .sti a b
  | .std a b => .std a b
  | .add a b => .add a b
  | .sub a b => .sub a b
  | .mul a b => .mul a b
  | .mli a b => .mli a b
  | .div a b => .div a b
  | .dvi a b => .dvi a b
  | .mod a b => .mod a b
  | .mdi a b => .mdi a b
  | .and a b => .and a b
  | .bor a b => .bor a b
  | .xor a b => .xor a b
  | .shr a b => .shr a b
  | .asr a b => .asr a b
  | .shl a b => .shl a b
  | .adx a b => .adx a b
  | .sbx a b => .sbx a b
  | .fadd a b => .fadd a b
  | .fsub a b => .fsub a b
  | .fmul a b => .fmul a b
  | .fdiv a b => .fdiv a b
  | .fmod a b => .fmod a b
  | .fife a b => .fife a b
  | .fifn a b => .fifn a b
  | .fifg a b => .fifg a b
  | .fifl a b => .fifl a b
  | .fset a b => .fset a b
  | .set b c => .set b c
  | .dset b c => .dset b c
  | .jsr c => .jsr c
  | .call c => .call c
  | .movh c => .movh c
  | .movl c => .movl c
  | .movt c => .movt c
  | .pcs c => .pcs c
  | .mov c => .pcs c
  | .sps c => .sps c
  | .ias c => .ias c
  | .iag c => .iag c
  | .int c => .int c
  | .rfi c => .rfi c
  | .iaq c => .iaq c
  | .hwn c => .hwn c
  | .hwq c => .hwq c
  | .hwi c => .hwi c
  | .ifex => .ifex
  | .popsg => .popsg
  | .hsg => .hsg
  | .lsg => .lsg
  | .hng => .hng
  | .pusha => .pusha
  | .popa => .popa

end Sys2Proof
end

