-- ==== Sys2Proof/Machine/State.lean ====
section
/-! DEFINITION. The state of the machine as plain data (10_state.md), the reasons a step stops, and the machine
right after reset (rule R45). -/

namespace Sys2Proof.Machine

/-- The two halves of RAM (rules R31, R61). -/
inductive Seg where
  | low | high
deriving DecidableEq, Repr

/-- Why the machine caught fire: both are terminal (rules R330, R334, R351). -/
inductive FireReason where
  /-- A 257th entry entered the interrupt queue (rule R334). -/
  | queueOverflow
  /-- More than 65535 devices were connected at power-on (rule R351). -/
  | tooManyDevices
deriving DecidableEq, Repr

/-- `STATUS` (rule R38). The machine steps only while `running`. Catching fire is a terminal state that stays in
the state; the third status of the rule, `Faulted(reason)`, is the fault outcome of the step that raises it, which
carries no state, so that nothing can be claimed about one (rule R331; log entry 7). -/
inductive Status where
  | running
  | onFire (r : FireReason)
deriving DecidableEq, Repr

/-- RAM as the words that differ from the word an unlisted address reads as: pairs of a flat address
(segment times 0x10000 plus address, rule R61) and a word, the unit of addressing (rule R60; log entry 1). -/
abbrev Memory := List (Nat × Word)

/-- The state of the machine. -/
structure State where
  /-- A, general register 0 (rule R20). -/
  a : Word
  /-- B, general register 1 (rule R20). -/
  b : Word
  /-- C, general register 2 (rule R20). -/
  c : Word
  /-- I, general register 3 (rule R20). -/
  i : Word
  /-- XH, general register 4, the high half of DX (rules R20, R21). -/
  xh : Word
  /-- XL, general register 5, the low half of DX (rules R20, R21). -/
  xl : Word
  /-- YH, general register 6, the high half of DY (rules R20, R21). -/
  yh : Word
  /-- YL, general register 7, the low half of DY (rules R20, R21). -/
  yl : Word
  /-- FA, a binary32 pattern (rule R23). -/
  fa : Dword
  /-- FB, a binary32 pattern (rule R23). -/
  fb : Dword
  /-- EX, the overflow half of results (rule R24). -/
  ex : Word
  /-- PC, an address in the current segment (rule R26). -/
  pc : Word
  /-- SP, an address in the current segment (rule R29). -/
  sp : Word
  /-- IA, the interrupt address; 0 disables handling (rule R30). -/
  ia : Word
  /-- `SEG`, the current segment (rule R31). -/
  seg : Seg
  /-- `IAQ_ON`, interrupt queueing (rule R32). -/
  iaqOn : Bool
  /-- `Q`, the waiting interrupt messages, oldest first (rule R33). -/
  queue : List Word
  /-- `STATUS` (rule R38). -/
  status : Status
  /-- RAM, 0x20000 words (rules R35, R60). -/
  mem : Memory
  /-- The MODEL's own input: the messages that devices enqueue at each of the next instruction boundaries, the
  nearest boundary first; past its end, and where no device is connected, none is sent (rule R352; log entry 8). -/
  arrivals : List (List Word)
  /-- The MODEL's own counter of free values drawn so far (rules R221, R296; log entry 5). -/
  draws : Nat
  /-- The MODEL's own ghost counter of cycles spent; nothing reads it (rules R400, R401; log entry 12). -/
  cycles : Nat
deriving DecidableEq, Repr

/-- Why a step stops with no next state. -/
inductive Fault where
  /-- Raised by the fetch and by a skip on a first word, at `g:addr`, with no format or no defined opcode (rules
  R97, R106, R331). Safe: the source gives such a word no meaning. -/
  | illegalInstruction (g : Seg) (addr : Word)
  /-- Raised by the fetch and by a skip on an instruction, at `g:addr`, with an extension word that names no value
  (rules R100, R130, R331). Safe: the source gives such a word no meaning. -/
  | badExtensionWord (g : Seg) (addr : Word)
  /-- Raised by a skip whose chain of conditionals runs round the whole segment and never ends: the loop of rule
  R171 has no last instruction. Safe: no step of the spec ends there (log entry 9). -/
  | endlessSkip
  /-- Raised by a step of a machine that is on fire: no rule leaves that status (rules R38, R334, R351). Safe: the
  source gives no state after it. -/
  | onFire (r : FireReason)
deriving DecidableEq, Repr

/-- Why an instruction has no meaning in the model. -/
inductive Refusal where
  /-- Answered by the dispatch for an instruction that has no meaning yet; safe. No arm answers it now. -/
  | notModelled (mnemonic : String)
deriving DecidableEq, Repr

/-- The machine right after reset: the values of rule R45 (its data registers and RAM: log entries 2 and 3). The
last three fields are the model's own (log entries 5, 8, 12). -/
def State.reset : State where
  a := 0
  b := 0
  c := 0
  i := 0
  xh := 0
  xl := 0
  yh := 0
  yl := 0
  fa := 0
  fb := 0
  ex := 0
  pc := 0
  sp := 0
  ia := 0
  seg := .low
  iaqOn := false
  queue := []
  status := .running
  mem := []
  arrivals := []
  draws := 0
  cycles := 0

end Sys2Proof.Machine
end

