-- ==== Sys2Proof/Machine/Ops.lean ====
section
/-! DEFINITION. The named operations over RAM, the registers, the stack and the interrupt queue: the primitives of
rule R10, taking an interrupt and returning from one (60_exceptions.md), and fetching. -/

namespace Sys2Proof.Machine

/-- What every meaning and every step answers. -/
abbrev Result := Host.Outcome State Fault Refusal

/-! ## RAM -/

/-- What a word of RAM that is not listed reads as: the spec leaves `INIT_RAM` open and its own vectors take 0
(rules R6, R97, R382; log entry 2). -/
def unlistedWord : Word := 0

/-- The number of words of RAM (rules R5, R60). -/
def ramWords : Nat := 0x20000

/-- The flat index of an address of a segment (rule R61). -/
def flatAddress (g : Seg) (addr : Word) : Nat :=
  match g with
  | .low => addr.toNat
  | .high => 0x10000 + addr.toNat

/-- The word at a flat address. -/
def Memory.get : Memory → Nat → Word
  | [], _ => unlistedWord
  | cell :: rest, n => if cell.1 = n then cell.2 else Memory.get rest n

/-- Puts a cell before the first cell of a higher address. -/
def Memory.insert (n : Nat) (w : Word) : Memory → Memory
  | [] => [(n, w)]
  | cell :: rest => if n < cell.1 then (n, w) :: cell :: rest else cell :: Memory.insert n w rest

/-- Memory with the word `w` at the flat address `n`: the old cell goes, and a new one comes unless `w` is what an
unlisted address reads as. -/
def Memory.set (m : Memory) (n : Nat) (w : Word) : Memory :=
  let others := m.filter (fun cell => cell.1 != n)
  if w = unlistedWord then others else Memory.insert n w others

/-- The canonical form: addresses strictly rising and inside RAM, no cell equal to an unlisted one. -/
abbrev Memory.wf (m : Memory) : Prop :=
  m.Pairwise (fun x y => x.1 < y.1) ∧ ∀ cell ∈ m, cell.2 ≠ unlistedWord ∧ cell.1 < ramWords

/-- `MemRead(g:addr, 1)` (rules R10, R69): every address is backed by RAM and a read has no side effect. -/
def State.readWord (s : State) (g : Seg) (addr : Word) : Word :=
  s.mem.get (flatAddress g addr)

/-- `MemWrite(g:addr, 1, w)` (rule R10). -/
def State.writeWord (s : State) (g : Seg) (addr w : Word) : State :=
  { s with mem := s.mem.set (flatAddress g addr) w }

/-- `MemRead(g:addr, 2)`: the word at `addr` is the high half, the next one, inside the segment, the low half
(rules R10, R64, R68). -/
def State.readDword (s : State) (g : Seg) (addr : Word) : Dword :=
  dword (s.readWord g addr) (s.readWord g (addr + 1))

/-- `MemWrite(g:addr, 2, d)` (rules R10, R64, R68). -/
def State.writeDword (s : State) (g : Seg) (addr : Word) (d : Dword) : State :=
  (s.writeWord g addr (hi16 d)).writeWord g (addr + 1) (lo16 d)

/-! ## Registers -/

/-- `x[r]` (rules R10, R20). -/
def State.reg (s : State) : Reg → Word
  | .a => s.a
  | .b => s.b
  | .c => s.c
  | .i => s.i
  | .xh => s.xh
  | .xl => s.xl
  | .yh => s.yh
  | .yl => s.yl

/-- `x[r] <- w` (rules R10, R20). -/
def State.setReg (s : State) (r : Reg) (w : Word) : State :=
  match r with
  | .a => { s with a := w }
  | .b => { s with b := w }
  | .c => { s with c := w }
  | .i => { s with i := w }
  | .xh => { s with xh := w }
  | .xl => { s with xl := w }
  | .yh => { s with yh := w }
  | .yl => { s with yl := w }

/-- The register that is the high half of a pairing (rule R21). -/
def highHalf : DReg → Reg
  | .dx => .xh
  | .dy => .yh

/-- The register that is the low half of a pairing (rule R21). -/
def lowHalf : DReg → Reg
  | .dx => .xl
  | .dy => .yl

/-- DX reads XH:XL, DY reads YH:YL (rules R10, R21). -/
def State.dreg (s : State) (d : DReg) : Dword :=
  dword (s.reg (highHalf d)) (s.reg (lowHalf d))

/-- A write to DX or DY writes both halves (rules R10, R21). -/
def State.setDreg (s : State) (d : DReg) (v : Dword) : State :=
  (s.setReg (highHalf d) (hi16 v)).setReg (lowHalf d) (lo16 v)

/-- The pattern in a float register (rule R23). -/
def State.freg (s : State) : FReg → Dword
  | .fa => s.fa
  | .fb => s.fb

/-- Writes the pattern of a float register (rule R23). -/
def State.setFreg (s : State) (f : FReg) (p : Dword) : State :=
  match f with
  | .fa => { s with fa := p }
  | .fb => { s with fb := p }

/-! ## The stack -/

/-- `Push(w)`: `[--SP]` in the current segment (rules R10, R29). -/
def State.push (s : State) (w : Word) : State :=
  { s with sp := s.sp - 1 }.writeWord s.seg (s.sp - 1) w

/-- The word that `Pop()` answers: the one at SP in the current segment (rule R10). -/
def State.top (s : State) : Word :=
  s.readWord s.seg s.sp

/-- `Pop()` leaves SP raised by one and RAM as it was (rules R10, R29). -/
def State.drop (s : State) : State :=
  { s with sp := s.sp + 1 }

/-- `r <- Pop()`. -/
def State.popReg (s : State) (r : Reg) : State :=
  s.drop.setReg r s.top

/-- The eight pushes of PUSHA and CALL, in the order A, B, C, XH, XL, YH, YL, I (rules R272, R316). -/
def State.pushAll (s : State) : State :=
  (((((((s.push s.a).push s.b).push s.c).push s.xh).push s.xl).push s.yh).push s.yl).push s.i

/-- The eight pops of POPA, in the order I, YL, YH, XL, XH, C, B, A (rule R317). -/
def State.popAll (s : State) : State :=
  (((((((s.popReg .i).popReg .yl).popReg .yh).popReg .xl).popReg .xh).popReg .c).popReg .b).popReg .a

/-! ## Segments -/

/-- The word that MOVH, MOVL and MOVT push for the segment they started in (rule R276). -/
def Seg.flag : Seg → Word
  | .low => 0
  | .high => 1

/-- The segment that a flag popped by POPSG selects: low for 0, high for any other word (rule R312). -/
def Seg.ofFlag (w : Word) : Seg :=
  if w = 0 then .low else .high

/-- The other segment (rule R275). -/
def Seg.other : Seg → Seg
  | .low => .high
  | .high => .low

/-- The shared action of MOVH, MOVL and MOVT: move to `target`, push the next address, push the segment started
in, jump to `v`; both pushes land in `target` (rules R273 to R276). -/
def State.moveCall (s : State) (target : Seg) (v : Word) : State :=
  { (({ s with seg := target }.push s.pc).push (Seg.flag s.seg)) with pc := v }

/-! ## Interrupts -/

/-- `Enqueue(m)`: the message joins the end of the queue; the 257th entry sets the machine on fire (rules R333,
R334). -/
def State.enqueue (s : State) (m : Word) : State :=
  let q := s.queue ++ [m]
  if q.length > Config.queueMax then { s with queue := q, status := .onFire .queueOverflow }
  else { s with queue := q }

/-- Several messages in order; the run ends where one of them sets the machine on fire (rules R334, R342). -/
def State.enqueueAll (s : State) : List Word → State
  | [] => s
  | m :: rest =>
    match s.status with
    | .running => (s.enqueue m).enqueueAll rest
    | .onFire _ => s

/-- `Entry(m)`, taking an interrupt: queueing on, PC and A pushed, PC to IA, A the message; nothing else is saved
or changed (rules R337, R339). What the entry costs is not stated (rule R400; log entry 12). -/
def State.enterInterrupt (s : State) (m : Word) : State :=
  { (({ s with iaqOn := true }.push s.pc).push s.a) with
    pc := s.ia, a := m, cycles := s.cycles + Config.entryCycles }

/-- The return from an interrupt, RFI's action: queueing off, pop A, pop PC (rules R290, R340). -/
def State.returnFromInterrupt (s : State) : State :=
  let s1 := { s with iaqOn := false }.popReg .a
  { s1.drop with pc := s1.top }

/-- The messages that devices enqueue at the coming boundary: the next of the scheduled ones, and none where no device
is connected, since INT is then the only source of interrupts (rule R352; log entry 8). -/
def State.arriving (s : State) : List Word :=
  match s.arrivals with
  | [] => []
  | now :: _ => if Config.deviceCount = 0 then [] else now

/-- The devices' messages of this boundary enter the queue, and the schedule moves on (rules R342, R352; log entry
8). -/
def State.arrive (s : State) : State :=
  { s with arrivals := s.arrivals.tail }.enqueueAll s.arriving

/-- The delivery check of a boundary: at most one message leaves the queue, and it is taken unless IA is 0
(rule R336). -/
def State.deliver (s : State) : State :=
  match s.status, s.iaqOn, s.queue with
  | .running, false, m :: rest =>
    let s1 := { s with queue := rest }
    if s.ia = 0 then s1 else s1.enterInterrupt m
  | _, _, _ => s

/-- What happens between two instructions: arrivals, then delivery (rules R11, R336, R342). -/
def State.boundary (s : State) : State :=
  s.arrive.deliver

/-! ## Fetching -/

/-- The fault of words at `SEG:PC` that are no instruction, with the address of the instruction (rule R331). -/
def State.faultOf (s : State) : DecodeError → Fault
  | .illegalInstruction => .illegalInstruction s.seg s.pc
  | .badExtensionWord => .badExtensionWord s.seg s.pc

/-- The instruction at `SEG:PC`: instruction words are read in the current segment, wrapping inside it (rules R26,
R27, R60, R62, R108). Words past the instruction are read without effect (rule R69). -/
def State.fetch (s : State) : Except DecodeError Instr :=
  decode (s.readWord s.seg s.pc) (s.readWord s.seg (s.pc + 1)) (s.readWord s.seg (s.pc + 2))
    (s.readWord s.seg (s.pc + 3)) (s.readWord s.seg (s.pc + 4))

/-- PC past all the words of `i` (rules R26, R108). -/
def State.passWords (s : State) (i : Instr) : State :=
  { s with pc := s.pc + BitVec.ofNat 16 i.length }

/-- The loop of `Skip()` (rule R171), at most `fuel` instructions of it: the instruction at PC is measured, not
executed; a conditional passed over takes one more with it; each costs a cycle (rule R400). -/
def skipLoop : Nat → State → Result
  | 0, _ => .fault .endlessSkip
  | fuel + 1, s =>
    match s.fetch with
    | .error e => .fault (s.faultOf e)
    | .ok i =>
      let s1 := { s.passWords i with cycles := s.cycles + 1 }
      if i.isConditional then skipLoop fuel s1 else .next s1

/-- As many instructions as a skip can pass over before PC takes a value a second time: from there on it would
repeat itself for ever (log entry 9). -/
def skipFuel : Nat := 0x10000

/-- `Skip()` (rule R171). -/
def State.skip (s : State) : Result :=
  skipLoop skipFuel s

/-- `s` with the words `ws` in the segment `g`, from the address `addr` up. -/
def State.storeWords (s : State) (g : Seg) (addr : Word) : List Word → State
  | [] => s
  | w :: rest => (s.writeWord g addr w).storeWords g (addr + 1) rest

/-- `s` with the words `ws` where its next step fetches: at the PC and in the segment that this boundary leaves. -/
def State.placeProgram (s : State) (ws : List Word) : State :=
  s.storeWords s.boundary.seg s.boundary.pc ws

end Sys2Proof.Machine
end

