-- ==== Sys2Proof/Machine/Operands.lean ====
section
/-! DEFINITION. Operands: what a value code resolves to, and how a place is read and written in each of the four
domains W, D, F and FS (40_operands.md). -/

namespace Sys2Proof.Machine

/-- A place: what a value code resolves to (rule R122). -/
inductive Place where
  | reg16 (r : Reg)
  | reg32 (d : DReg)
  | regF (f : FReg)
  | mem (g : Seg) (addr : Word)
  | ex
  | pc
  | sp
  | lit (w : Word)
deriving DecidableEq, Repr

/-- A resolved parameter and the state after its resolution. -/
structure Resolved where
  place : Place
  state : State
deriving DecidableEq, Repr

/-- `Resolve` (rule R123, Listing 40-A): `first` says whether code 0x0c is PUSH or POP. The operand words have been
read by the fetch; resolution changes at most SP (rules R124, R125). -/
def resolve (first : Bool) (o : Operand) (s : State) : Resolved :=
  match o.value with
  | .reg r => ⟨.reg16 r, s⟩
  | .dreg d => ⟨.reg32 d, s⟩
  | .freg f => ⟨.regF f, s⟩
  | .stack =>
    if first then ⟨.mem s.seg (s.sp - 1), { s with sp := s.sp - 1 }⟩
    else ⟨.mem s.seg s.sp, { s with sp := s.sp + 1 }⟩
  | .pick n => ⟨.mem s.seg (s.sp + n), s⟩
  | .peek => ⟨.mem s.seg s.sp, s⟩
  | .ind r => ⟨.mem s.seg (s.reg r), s⟩
  | .idx r n => ⟨.mem s.seg (s.reg r + n), s⟩
  | .next n => ⟨.lit n, s⟩
  | .ex => ⟨.ex, s⟩
  | .pc => ⟨.pc, s⟩
  | .sp => ⟨.sp, s⟩
  | .mem n => ⟨.mem s.seg n, s⟩
  | .minusOne => ⟨.lit 0xffff, s⟩
  | .small k => ⟨.lit (k.setWidth 16), s⟩
  | .power k => ⟨.lit (BitVec.ofNat 16 (2 ^ (k.val + 4))), s⟩

/-- Two resolved parameters and the state after both resolutions. -/
structure Resolved2 where
  first : Place
  second : Place
  state : State
deriving DecidableEq, Repr

/-- Both parameters of a two-parameter instruction, left to right, before anything is read (rules R123, R131). -/
def resolve2 (o1 o2 : Operand) (s : State) : Resolved2 :=
  let r1 := resolve true o1 s
  let r2 := resolve false o2 r1.state
  ⟨r1.place, r2.place, r2.state⟩

/-! ## Domain W -/

/-- `readW` (rule R134): a dword register gives its low half, a float register its truncated low 16 bits. -/
def readW (p : Place) (s : State) : Word :=
  match p with
  | .reg16 r => s.reg r
  | .reg32 d => s.reg (lowHalf d)
  | .regF f => floatToInt 16 (s.freg f)
  | .mem g addr => s.readWord g addr
  | .ex => s.ex
  | .pc => s.pc
  | .sp => s.sp
  | .lit w => w

/-- How a W-domain writer reads its result when it becomes a float (rule R135). -/
inductive Signedness where
  | unsigned | signed
deriving DecidableEq, Repr

/-- A 16-bit result as an integer of its opcode's signedness (rule R135). -/
def Signedness.read (sg : Signedness) (w : Word) : Int :=
  match sg with
  | .unsigned => uInt w
  | .signed => s16 w

/-- `writeW` (rule R135): a dword register changes only in its low half, a float register takes the result as a
float, a literal drops the write (rule R129). -/
def writeW (p : Place) (w : Word) (sg : Signedness) (s : State) : State :=
  match p with
  | .reg16 r => s.setReg r w
  | .reg32 d => s.setReg (lowHalf d) w
  | .regF f => s.setFreg f (intToFloat (sg.read w))
  | .mem g addr => s.writeWord g addr w
  | .ex => { s with ex := w }
  | .pc => { s with pc := w }
  | .sp => { s with sp := w }
  | .lit _ => s

/-! ## Domain D -/

/-- What `readD` answers: a dword, and whether the source was only 16 bits (rule R136). -/
structure DwordSource where
  value : Dword
  only16 : Bool
deriving DecidableEq, Repr

/-- `readD` (rule R136). -/
def readD (p : Place) (s : State) : DwordSource :=
  match p with
  | .reg16 r => ⟨zext32 (s.reg r), true⟩
  | .reg32 d => ⟨s.dreg d, false⟩
  | .regF f => ⟨floatToInt 32 (s.freg f), false⟩
  | .mem g addr => ⟨s.readDword g addr, false⟩
  | .ex => ⟨zext32 s.ex, true⟩
  | .pc => ⟨zext32 s.pc, true⟩
  | .sp => ⟨zext32 s.sp, true⟩
  | .lit w => ⟨zext32 w, true⟩

/-- `writeD` (rule R137): a 16-bit source changes only the low half of a dword register or of the dword in RAM; a
float register takes the unsigned integer as a float; a 16-bit place takes the low half. -/
def writeD (p : Place) (v : DwordSource) (s : State) : State :=
  match p with
  | .reg16 r => s.setReg r (lo16 v.value)
  | .reg32 d => if v.only16 then s.setReg (lowHalf d) (lo16 v.value) else s.setDreg d v.value
  | .regF f => s.setFreg f (intToFloat (Int.ofNat v.value.toNat))
  | .mem g addr =>
    if v.only16 then s.writeWord g (addr + 1) (lo16 v.value) else s.writeDword g addr v.value
  | .ex => { s with ex := lo16 v.value }
  | .pc => { s with pc := lo16 v.value }
  | .sp => { s with sp := lo16 v.value }
  | .lit _ => s

/-! ## Domain F -/

/-- `readF` (rule R138): a float register as it is, one word of RAM and every 16-bit place as a signed integer, a
dword register as a signed 32-bit integer. -/
def readF (p : Place) (s : State) : Dword :=
  match p with
  | .reg16 r => intToFloat (s16 (s.reg r))
  | .reg32 d => intToFloat (s32 (s.dreg d))
  | .regF f => s.freg f
  | .mem g addr => intToFloat (s16 (s.readWord g addr))
  | .ex => intToFloat (s16 s.ex)
  | .pc => intToFloat (s16 s.pc)
  | .sp => intToFloat (s16 s.sp)
  | .lit w => intToFloat (s16 w)

/-- `writeF` (rule R139): a float register takes the float, every other place its truncation at the place's
width. -/
def writeF (p : Place) (r : Dword) (s : State) : State :=
  match p with
  | .reg16 x => s.setReg x (floatToInt 16 r)
  | .reg32 d => s.setDreg d (floatToInt 32 r)
  | .regF f => s.setFreg f r
  | .mem g addr => s.writeWord g addr (floatToInt 16 r)
  | .ex => { s with ex := floatToInt 16 r }
  | .pc => { s with pc := floatToInt 16 r }
  | .sp => { s with sp := floatToInt 16 r }
  | .lit _ => s

/-! ## Domain FS -/

/-- `readFS` (rule R140): the pattern of a place that holds 32 bits; a 16-bit place as a signed integer made a
float. -/
def readFS (p : Place) (s : State) : Dword :=
  match p with
  | .reg16 r => intToFloat (s16 (s.reg r))
  | .reg32 d => s.dreg d
  | .regF f => s.freg f
  | .mem g addr => s.readDword g addr
  | .ex => intToFloat (s16 s.ex)
  | .pc => intToFloat (s16 s.pc)
  | .sp => intToFloat (s16 s.sp)
  | .lit w => intToFloat (s16 w)

/-- `writeFS` (rule R141): the pattern bit for bit where 32 bits fit; a 16-bit place takes the truncated float. -/
def writeFS (p : Place) (v : Dword) (s : State) : State :=
  match p with
  | .reg16 r => s.setReg r (floatToInt 16 v)
  | .reg32 d => s.setDreg d v
  | .regF f => s.setFreg f v
  | .mem g addr => s.writeDword g addr v
  | .ex => { s with ex := floatToInt 16 v }
  | .pc => { s with pc := floatToInt 16 v }
  | .sp => { s with sp := floatToInt 16 v }
  | .lit _ => s

end Sys2Proof.Machine
end

