-- ==== Sys2Proof/Machine/Basic.lean ====
section
/-! DEFINITION. The Basic opcodes (41_basic.md): each resolves both parameters, reads both as words, computes, and
then writes in the order destination, EX, I (rule R170). -/

namespace Sys2Proof.Machine

/-- A Basic conditional: the next instruction is skipped unless the test of the two words holds (rules R170 to
R172). -/
def basicTest (test : Word → Word → Bool) (a b : Operand) (s : State) : Result :=
  let r := resolve2 a b s
  if test (readW r.first r.state) (readW r.second r.state) then .next r.state else r.state.skip

/-- A Basic opcode that writes a result and leaves EX (rule R170). -/
def basicWrite (f : Word → Word → Word) (sg : Signedness) (a b : Operand) (s : State) : Result :=
  let r := resolve2 a b s
  .next (writeW r.first (f (readW r.first r.state) (readW r.second r.state)) sg r.state)

/-- A Basic opcode that writes a result and then EX: with EX as destination the EX value stays (rules R25, R170).
The third argument of `f` is the EX from before. -/
def basicWriteEx (f : Word → Word → Word → WithEx) (sg : Signedness) (a b : Operand) (s : State) : Result :=
  let r := resolve2 a b s
  let x := f (readW r.first r.state) (readW r.second r.state) r.state.ex
  .next { writeW r.first x.value sg r.state with ex := x.ex }

/-- STI and STD: the destination takes the source, then I takes its step (rules R181, R182). -/
def storeAndStep (step : Word → Word) (a b : Operand) (s : State) : Result :=
  let r := resolve2 a b s
  let s1 := writeW r.first (readW r.second r.state) .unsigned r.state
  .next { s1 with i := step s1.i }

/-- IFB (rule R173): next only if `(a & b) != 0`. -/
def execIfb (a b : Operand) (s : State) : Result :=
  basicTest (fun x y => x &&& y != 0) a b s

/-- IFC (rule R174): next only if `(a & b) = 0`. -/
def execIfc (a b : Operand) (s : State) : Result :=
  basicTest (fun x y => x &&& y == 0) a b s

/-- IFE (rule R175): next only if `a = b`. -/
def execIfe (a b : Operand) (s : State) : Result :=
  basicTest (fun x y => x == y) a b s

/-- IFN (rule R176): next only if `a != b`. -/
def execIfn (a b : Operand) (s : State) : Result :=
  basicTest (fun x y => x != y) a b s

/-- IFG (rule R177): next only if `a > b`, unsigned. -/
def execIfg (a b : Operand) (s : State) : Result :=
  basicTest (fun x y => decide (y.toNat < x.toNat)) a b s

/-- IFA (rule R178): next only if `a > b`, signed. -/
def execIfa (a b : Operand) (s : State) : Result :=
  basicTest (fun x y => decide (s16 y < s16 x)) a b s

/-- IFL (rule R179): next only if `a < b`, unsigned. -/
def execIfl (a b : Operand) (s : State) : Result :=
  basicTest (fun x y => decide (x.toNat < y.toNat)) a b s

/-- IFU (rule R180): next only if `a < b`, signed. -/
def execIfu (a b : Operand) (s : State) : Result :=
  basicTest (fun x y => decide (s16 x < s16 y)) a b s

/-- STI (rule R181): `a <- b`, then I is raised by 1. -/
def execSti (a b : Operand) (s : State) : Result :=
  storeAndStep (fun i => i + 1) a b s

/-- STD (rule R182): `a <- b`, then I is lowered by 1. -/
def execStd (a b : Operand) (s : State) : Result :=
  storeAndStep (fun i => i - 1) a b s

/-- ADD (rule R183): `a <- a + b`, EX the carry. -/
def execAdd (a b : Operand) (s : State) : Result :=
  basicWriteEx (fun x y _ => addEx x y) .unsigned a b s

/-- SUB (rule R184): `a <- a - b`, EX 0xffff on a borrow. -/
def execSub (a b : Operand) (s : State) : Result :=
  basicWriteEx (fun x y _ => subEx x y) .unsigned a b s

/-- MUL (rule R185): `a <- a * b`, EX the high word, unsigned. -/
def execMul (a b : Operand) (s : State) : Result :=
  basicWriteEx (fun x y _ => mulEx x y) .unsigned a b s

/-- MLI (rule R186): `a <- a * b`, EX the high word, signed. -/
def execMli (a b : Operand) (s : State) : Result :=
  basicWriteEx (fun x y _ => mliEx x y) .signed a b s

/-- DIV (rule R187): `a <- a / b`, EX the first fraction bits, unsigned. -/
def execDiv (a b : Operand) (s : State) : Result :=
  basicWriteEx (fun x y _ => divEx x y) .unsigned a b s

/-- DVI (rule R188): `a <- a / b` toward zero, EX the first fraction bits, signed. -/
def execDvi (a b : Operand) (s : State) : Result :=
  basicWriteEx (fun x y _ => dviEx x y) .signed a b s

/-- MOD (rule R189): `a <- a mod b`, EX unchanged. -/
def execMod (a b : Operand) (s : State) : Result :=
  basicWrite modResult .unsigned a b s

/-- MDI (rule R190): the signed remainder with the sign of `a`, EX unchanged. -/
def execMdi (a b : Operand) (s : State) : Result :=
  basicWrite mdiResult .signed a b s

/-- AND (rule R191): `a <- a & b`. -/
def execAnd (a b : Operand) (s : State) : Result :=
  basicWrite (fun x y => x &&& y) .unsigned a b s

/-- BOR (rule R192): `a <- a | b`. -/
def execBor (a b : Operand) (s : State) : Result :=
  basicWrite (fun x y => x ||| y) .unsigned a b s

/-- XOR (rule R193): `a <- a ^ b`. -/
def execXor (a b : Operand) (s : State) : Result :=
  basicWrite (fun x y => x ^^^ y) .unsigned a b s

/-- SHR (rule R194): `a >>> b`, EX the bits shifted out. -/
def execShr (a b : Operand) (s : State) : Result :=
  basicWriteEx (fun x y _ => shrEx x y) .unsigned a b s

/-- ASR (rule R195): `a >> b` with `a` signed, EX the bits shifted out. -/
def execAsr (a b : Operand) (s : State) : Result :=
  basicWriteEx (fun x y _ => asrEx x y) .signed a b s

/-- SHL (rule R196): `a << b`, EX the bits shifted out. -/
def execShl (a b : Operand) (s : State) : Result :=
  basicWriteEx (fun x y _ => shlEx x y) .unsigned a b s

/-- ADX (rule R197): `a <- a + b + EX`, EX the overflow half. -/
def execAdx (a b : Operand) (s : State) : Result :=
  basicWriteEx adxEx .unsigned a b s

/-- SBX (rule R198): `a <- a - b + EX`, EX the overflow half. -/
def execSbx (a b : Operand) (s : State) : Result :=
  basicWriteEx sbxEx .unsigned a b s

end Sys2Proof.Machine
end

