-- ==== Sys2Proof/Machine/Binary.lean ====
section
/-! DEFINITION. The Binary opcodes (45_binary.md): no parameters; none writes EX, only IFEX reads it (rule R310). -/

namespace Sys2Proof.Machine

/-- IFEX (rule R311): next only if EX is not 0. -/
def execIfex (s : State) : Result :=
  if s.ex = 0 then s.skip else .next s

/-- POPSG (rule R312): pop the segment flag, then PC, both in the segment it starts in; then move. -/
def execPopsg (s : State) : Result :=
  let flag := s.top
  let s1 := s.drop
  .next { s1.drop with pc := s1.top, seg := Seg.ofFlag flag }

/-- HSG (rule R313): move to the high segment. -/
def execHsg (s : State) : Result :=
  .next { s with seg := .high }

/-- LSG (rule R314): move to the low segment. -/
def execLsg (s : State) : Result :=
  .next { s with seg := .low }

/-- HNG (rule R315): PC back to this instruction; an ordinary step that repeats itself. -/
def execHng (s : State) : Result :=
  .next { s with pc := s.pc - 1 }

/-- PUSHA (rule R316): push the eight general registers, I last. -/
def execPusha (s : State) : Result :=
  .next s.pushAll

/-- POPA (rule R317): pop the eight general registers, I first. -/
def execPopa (s : State) : Result :=
  .next s.popAll

end Sys2Proof.Machine
end

