-- ==== Sys2Proof/Machine/FloatOpcodes.lean ====
section
/-! DEFINITION. The Float opcodes (42_float.md). None reads or writes EX (rule R220). -/

namespace Sys2Proof.Machine

/-- FADD to FMOD: both parameters read as floats, the result computed with a fresh NaN pattern at hand, written
(rules R220, R221). The draw is counted whether or not the result is a NaN (log entry 5). -/
def floatWrite (f : Dword → Dword → Dword → Dword) (a b : Operand) (s : State) : Result :=
  let r := resolve2 a b s
  let v := f (freshNan s.draws) (readF r.first r.state) (readF r.second r.state)
  .next (writeF r.first v { r.state with draws := s.draws + 1 })

/-- A Float conditional: the next instruction is skipped unless the test of the two floats holds (rules R171, R220,
R222). -/
def floatTest (test : Dword → Dword → Bool) (a b : Operand) (s : State) : Result :=
  let r := resolve2 a b s
  if test (readF r.first r.state) (readF r.second r.state) then .next r.state else r.state.skip

/-- FADD (rule R223): `a <- a + b`. -/
def execFadd (a b : Operand) (s : State) : Result :=
  floatWrite floatAdd a b s

/-- FSUB (rule R224): `a <- a - b`. -/
def execFsub (a b : Operand) (s : State) : Result :=
  floatWrite floatSub a b s

/-- FMUL (rule R225): `a <- a * b`. -/
def execFmul (a b : Operand) (s : State) : Result :=
  floatWrite floatMul a b s

/-- FDIV (rule R226): `a <- a / b`, +0.0 for a zero divisor. -/
def execFdiv (a b : Operand) (s : State) : Result :=
  floatWrite floatDiv a b s

/-- FMOD (rule R227): the remainder with the sign of `a`, +0.0 for a zero divisor. -/
def execFmod (a b : Operand) (s : State) : Result :=
  floatWrite floatMod a b s

/-- FIFE (rule R228): next only if `a = b`. -/
def execFife (a b : Operand) (s : State) : Result :=
  floatTest floatEq a b s

/-- FIFN (rule R229): next only if `a != b`; a NaN is unlike everything. -/
def execFifn (a b : Operand) (s : State) : Result :=
  floatTest (fun x y => !floatEq x y) a b s

/-- FIFG (rule R230): next only if `a > b`. -/
def execFifg (a b : Operand) (s : State) : Result :=
  floatTest (fun x y => floatLt y x) a b s

/-- FIFL (rule R231): next only if `a < b`. -/
def execFifl (a b : Operand) (s : State) : Result :=
  floatTest floatLt a b s

/-- FSET (rule R232): a move in the FS domain, bit for bit between places that hold 32 bits. -/
def execFset (a b : Operand) (s : State) : Result :=
  let r := resolve2 a b s
  .next (writeFS r.first (readFS r.second r.state) r.state)

end Sys2Proof.Machine
end

