-- ==== Sys2Proof/Machine/Load.lean ====
section
/-! DEFINITION. The Load opcodes (43_load.md): the destination `b` is the first parameter, the source `c` the
second; neither changes EX unless it is the destination. -/

namespace Sys2Proof.Machine

/-- SET (rule R250): a move in the W domain. -/
def execSet (b c : Operand) (s : State) : Result :=
  let r := resolve2 b c s
  .next (writeW r.first (readW r.second r.state) .unsigned r.state)

/-- DSET (rules R251 to R255): a move in the D domain. -/
def execDset (b c : Operand) (s : State) : Result :=
  let r := resolve2 b c s
  .next (writeD r.first (readD r.second r.state) r.state)

end Sys2Proof.Machine
end

