-- ==== Sys2Proof/Machine/Devices.lean ====
section
/-! DEFINITION. The devices as far as the spec gives them (rules R296, R350 to R355): which numbers are connected,
and what a connected device may do to the machine when HWI addresses it. -/

namespace Sys2Proof.Machine

/-- What a device did in answer to one HWI: the registers it leaves, the words of RAM it writes, the messages it
enqueues, the cycles it adds (rules R296, R353, R400). -/
structure DeviceReaction where
  a : Word
  b : Word
  c : Word
  i : Word
  xh : Word
  xl : Word
  yh : Word
  yl : Word
  fa : Dword
  fb : Dword
  ex : Word
  pc : Word
  sp : Word
  ia : Word
  stores : List (Seg × Word × Word)
  messages : List Word
  cycles : Nat
deriving Inhabited

/-- FREE. `HW[device].hwi`, the reaction of a connected device, drawn afresh at each use: a device holds state of
its own, so the same machine state may meet another reaction the next time (rules R6, R36, R296; log entry 6). -/
opaque deviceReaction : (device : Word) → (draw : Nat) → State → DeviceReaction

/-- The number `v` is that of a connected device: devices are numbered 0 to `N_HW - 1`, as they are after the
rerouting of the reserved numbers (rules R350, R354). -/
def connected (v : Word) : Bool :=
  decide (v.toNat < Config.deviceCount.toNat)

/-- The stores of a device, in order; any word of either segment may be among them (rule R296). -/
def State.storeAll (s : State) : List (Seg × Word × Word) → State
  | [] => s
  | (g, addr, w) :: rest => (s.writeWord g addr w).storeAll rest

/-- The machine after a device's reaction: general registers, FA, FB, EX, PC, SP, IA and RAM as the device leaves
them, its messages in the queue; the segment and the queueing flag are not the device's (rules R296, R353). -/
def State.react (s : State) (r : DeviceReaction) : State :=
  ({ s with
      a := r.a, b := r.b, c := r.c, i := r.i, xh := r.xh, xl := r.xl, yh := r.yh, yl := r.yl,
      fa := r.fa, fb := r.fb, ex := r.ex, pc := r.pc, sp := r.sp, ia := r.ia,
      draws := s.draws + 1, cycles := s.cycles + r.cycles }.storeAll r.stores).enqueueAll r.messages

/-- The machine with `n` devices connected at power-on: at most 65535 leave it as after reset, more set it on fire
before its first step (rules R351, R383). -/
def State.powerOn (n : Nat) : State :=
  if n ≤ Config.maxDevices then State.reset
  else { State.reset with status := .onFire .tooManyDevices }

end Sys2Proof.Machine
end

