-- ==== Sys2Proof/Machine/Special.lean ====
section
/-! DEFINITION. The Special opcodes (44_special.md): the parameter is resolved, and read where it is used, before
anything else happens (rule R270). -/

namespace Sys2Proof.Machine

/-- A Special opcode that reads its parameter: code 0x0c is POP; the action gets the value and the state after the
resolution (rules R126, R270). -/
def specialRead (action : Word → State → State) (c : Operand) (s : State) : Result :=
  let r := resolve false c s
  .next (action (readW r.place r.state) r.state)

/-- A Special opcode that writes its parameter: code 0x0c is PUSH (rules R126, R270). -/
def specialWrite (value : State → Word) (c : Operand) (s : State) : Result :=
  let r := resolve true c s
  .next (writeW r.place (value r.state) .unsigned r.state)

/-- HWQ's action (rule R293): DX, DY and C take what the device says of itself, zeros for a number that is not
connected. -/
def State.queryDevice (s : State) (v : Word) : State :=
  let present := connected v
  let id := if present then Config.deviceId v else 0
  let maker := if present then Config.deviceManufacturer v else 0
  let version := if present then Config.deviceVersion v else 0
  ((s.setDreg .dx id).setDreg .dy maker).setReg .c version

/-- HWI's action (rule R296): a connected device reacts, a number that is not connected has no effect. The device
is not shown the ghost counter (rule R401). -/
def State.interruptDevice (s : State) (v : Word) : State :=
  if connected v then s.react (deviceReaction v s.draws { s with cycles := 0 }) else s

/-- JSR (rule R271): push the next address, jump. -/
def execJsr (c : Operand) (s : State) : Result :=
  specialRead (fun v s1 => { s1.push s1.pc with pc := v }) c s

/-- CALL (rule R272): push the next address and the eight registers, jump. -/
def execCall (c : Operand) (s : State) : Result :=
  specialRead (fun v s1 => { (s1.push s1.pc).pushAll with pc := v }) c s

/-- MOVH (rule R273): call into the high segment. -/
def execMovh (c : Operand) (s : State) : Result :=
  specialRead (fun v s1 => s1.moveCall .high v) c s

/-- MOVL (rule R274): call into the low segment. -/
def execMovl (c : Operand) (s : State) : Result :=
  specialRead (fun v s1 => s1.moveCall .low v) c s

/-- MOVT (rule R275): call into the other segment. -/
def execMovt (c : Operand) (s : State) : Result :=
  specialRead (fun v s1 => s1.moveCall (Seg.other s1.seg) v) c s

/-- PCS (rule R277): PC takes the value. -/
def execPcs (c : Operand) (s : State) : Result :=
  specialRead (fun v s1 => { s1 with pc := v }) c s

/-- MOV (rule R277): the other name of PCS (rule R112). -/
def execMov (c : Operand) (s : State) : Result :=
  specialRead (fun v s1 => { s1 with pc := v }) c s

/-- SPS (rule R278): SP takes the value. -/
def execSps (c : Operand) (s : State) : Result :=
  specialRead (fun v s1 => { s1 with sp := v }) c s

/-- IAS (rule R279): IA takes the value. -/
def execIas (c : Operand) (s : State) : Result :=
  specialRead (fun v s1 => { s1 with ia := v }) c s

/-- IAG (rule R280): the parameter takes IA. -/
def execIag (c : Operand) (s : State) : Result :=
  specialWrite (fun s1 => s1.ia) c s

/-- INT (rule R281): the value is enqueued as an interrupt message; it is taken at a later boundary. -/
def execInt (c : Operand) (s : State) : Result :=
  specialRead (fun v s1 => s1.enqueue v) c s

/-- RFI (rule R290): return from an interrupt; the parameter is resolved and not used. -/
def execRfi (c : Operand) (s : State) : Result :=
  .next (resolve false c s).state.returnFromInterrupt

/-- IAQ (rule R291): interrupt queueing on for a value that is not 0, off for 0. -/
def execIaq (c : Operand) (s : State) : Result :=
  specialRead (fun v s1 => { s1 with iaqOn := v != 0 }) c s

/-- HWN (rule R292): the parameter takes the number of connected devices. -/
def execHwn (c : Operand) (s : State) : Result :=
  specialWrite (fun _ => Config.deviceCount) c s

/-- HWQ (rule R293): DX, DY and C take the id, manufacturer and version of a device. -/
def execHwq (c : Operand) (s : State) : Result :=
  specialRead (fun v s1 => s1.queryDevice v) c s

/-- HWI (rule R296): an interrupt is sent to a device. -/
def execHwi (c : Operand) (s : State) : Result :=
  specialRead (fun v s1 => s1.interruptDevice v) c s

end Sys2Proof.Machine
end

