-- ==== Sys2Proof/Machine/Dispatch.lean ====
section
/-! DEFINITION. The dispatch: one arm for each instruction, one call of its meaning. -/

namespace Sys2Proof.Machine

def exec (i : Instr) (s : State) : Host.Outcome State Fault Refusal :=
  match i with
  | .ifb a b => Sys2Proof.Machine.execIfb a b s
  | .ifc a b => Sys2Proof.Machine.execIfc a b s
  | .ife a b => Sys2Proof.Machine.execIfe a b s
  | .ifn a b => Sys2Proof.Machine.execIfn a b s
  | .ifg a b => Sys2Proof.Machine.execIfg a b s
  | .ifa a b => Sys2Proof.Machine.execIfa a b s
  | .ifl a b => Sys2Proof.Machine.execIfl a b s
  | .ifu a b => Sys2Proof.Machine.execIfu a b s
  | .sti a b => Sys2Proof.Machine.execSti a b s
  | .std a b => Sys2Proof.Machine.execStd a b s
  | .add a b => Sys2Proof.Machine.execAdd a b s
  | .sub a b => Sys2Proof.Machine.execSub a b s
  | .mul a b => Sys2Proof.Machine.execMul a b s
  | .mli a b => Sys2Proof.Machine.execMli a b s
  | .div a b => Sys2Proof.Machine.execDiv a b s
  | .dvi a b => Sys2Proof.Machine.execDvi a b s
  | .mod a b => Sys2Proof.Machine.execMod a b s
  | .mdi a b => Sys2Proof.Machine.execMdi a b s
  | .and a b => Sys2Proof.Machine.execAnd a b s
  | .bor a b => Sys2Proof.Machine.execBor a b s
  | .xor a b => Sys2Proof.Machine.execXor a b s
  | .shr a b => Sys2Proof.Machine.execShr a b s
  | .asr a b => Sys2Proof.Machine.execAsr a b s
  | .shl a b => Sys2Proof.Machine.execShl a b s
  | .adx a b => Sys2Proof.Machine.execAdx a b s
  | .sbx a b => Sys2Proof.Machine.execSbx a b s
  | .fadd a b => Sys2Proof.Machine.execFadd a b s
  | .fsub a b => Sys2Proof.Machine.execFsub a b s
  | .fmul a b => Sys2Proof.Machine.execFmul a b s
  | .fdiv a b => Sys2Proof.Machine.execFdiv a b s
  | .fmod a b => Sys2Proof.Machine.execFmod a b s
  | .fife a b => Sys2Proof.Machine.execFife a b s
  | .fifn a b => Sys2Proof.Machine.execFifn a b s
  | .fifg a b => Sys2Proof.Machine.execFifg a b s
  | .fifl a b => Sys2Proof.Machine.execFifl a b s
  | .fset a b => Sys2Proof.Machine.execFset a b s
  | .set b c => Sys2Proof.Machine.execSet b c s
  | .dset b c => Sys2Proof.Machine.execDset b c s
  | .jsr c => Sys2Proof.Machine.execJsr c s
  | .call c => Sys2Proof.Machine.execCall c s
  | .movh c => Sys2Proof.Machine.execMovh c s
  | .movl c => Sys2Proof.Machine.execMovl c s
  | .movt c => Sys2Proof.Machine.execMovt c s
  | .pcs c => Sys2Proof.Machine.execPcs c s
  | .mov c => Sys2Proof.Machine.execMov c s
  | .sps c => Sys2Proof.Machine.execSps c s
  | .ias c => Sys2Proof.Machine.execIas c s
  | .iag c => Sys2Proof.Machine.execIag c s
  | .int c => Sys2Proof.Machine.execInt c s
  | .rfi c => Sys2Proof.Machine.execRfi c s
  | .iaq c => Sys2Proof.Machine.execIaq c s
  | .hwn c => Sys2Proof.Machine.execHwn c s
  | .hwq c => Sys2Proof.Machine.execHwq c s
  | .hwi c => Sys2Proof.Machine.execHwi c s
  | .ifex => Sys2Proof.Machine.execIfex s
  | .popsg => Sys2Proof.Machine.execPopsg s
  | .hsg => Sys2Proof.Machine.execHsg s
  | .lsg => Sys2Proof.Machine.execLsg s
  | .hng => Sys2Proof.Machine.execHng s
  | .pusha => Sys2Proof.Machine.execPusha s
  | .popa => Sys2Proof.Machine.execPopa s

end Sys2Proof.Machine
end

