-- ==== Sys2Proof/Machine/Timing.lean ====
section
/-! DEFINITION. The cycle costs (rule R400), as a ghost counter that nothing reads (rule R401; log entry 12). The
parts that depend on the run are added where they arise: one cycle for each instruction a skip passes over
(Machine/Ops.lean) and what a device adds to HWI (Machine/Devices.lean). -/

namespace Sys2Proof.Machine

/-- The operand is a place in RAM, whatever its state: the sources and destinations that cost DSET and FSET a cycle
more (rule R400). -/
def valueInRam : Value → Bool
  | .reg _ => false
  | .dreg _ => false
  | .freg _ => false
  | .stack => true
  | .pick _ => true
  | .peek => true
  | .ind _ => true
  | .idx _ _ => true
  | .next _ => false
  | .ex => false
  | .pc => false
  | .sp => false
  | .mem _ => true
  | .minusOne => false
  | .small _ => false
  | .power _ => false

/-- The cost of the opcode itself, with the extra cycle of a DSET that loads from RAM and of an FSET that touches
RAM (rule R400). -/
def opcodeCycles : Instr → Nat
  | .ifb _ _ => 2
  | .ifc _ _ => 2
  | .ife _ _ => 2
  | .ifn _ _ => 2
  | .ifg _ _ => 2
  | .ifa _ _ => 2
  | .ifl _ _ => 2
  | .ifu _ _ => 2
  | .sti _ _ => 2
  | .std _ _ => 2
  | .add _ _ => 2
  | .sub _ _ => 2
  | .mul _ _ => 2
  | .mli _ _ => 2
  | .div _ _ => 15
  | .dvi _ _ => 15
  | .mod _ _ => 8
  | .mdi _ _ => 8
  | .and _ _ => 1
  | .bor _ _ => 1
  | .xor _ _ => 1
  | .shr _ _ => 1
  | .asr _ _ => 1
  | .shl _ _ => 1
  | .adx _ _ => 3
  | .sbx _ _ => 3
  | .fadd _ _ => 2
  | .fsub _ _ => 2
  | .fmul _ _ => 2
  | .fdiv _ _ => 15
  | .fmod _ _ => 8
  | .fife _ _ => 2
  | .fifn _ _ => 2
  | .fifg _ _ => 2
  | .fifl _ _ => 2
  | .fset a b => if valueInRam a.value || valueInRam b.value then 3 else 2
  | .set _ _ => 1
  | .dset _ c => if valueInRam c.value then 3 else 2
  | .jsr _ => 3
  | .call _ => 7
  | .movh _ => 4
  | .movl _ => 4
  | .movt _ => 4
  | .pcs _ => 1
  | .mov _ => 1
  | .sps _ => 1
  | .ias _ => 1
  | .iag _ => 1
  | .int _ => 4
  | .rfi _ => 3
  | .iaq _ => 2
  | .hwn _ => 2
  | .hwq _ => 4
  | .hwi _ => 4
  | .ifex => 1
  | .popsg => 3
  | .hsg => 1
  | .lsg => 1
  | .hng => 1
  | .pusha => 4
  | .popa => 4

/-- The cycles of an instruction: its opcode's and one for each word its parameters own, since a next word costs
one look-up cycle and so does an extension word (rules R146, R400). -/
def instrCycles (i : Instr) : Nat :=
  opcodeCycles i + (i.operands.map Operand.length).sum

/-- The cycles of an instruction that is performed, added to the ghost counter. -/
def State.spend (s : State) (n : Nat) : State :=
  { s with cycles := s.cycles + n }

end Sys2Proof.Machine
end

