-- ==== Sys2Proof/Machine/Step.lean ====
section
/-! DEFINITION. One step of the machine (rule R11). -/

namespace Sys2Proof.Machine

/-- One step (rules R11, R38): a machine on fire has no step. Otherwise the boundary comes first, with the devices'
messages and at most one delivery; if the messages set the machine on fire the run ends there (rule R342); else one
instruction is fetched, PC passes its words, and it is performed, with any skip it causes. -/
def step (s : State) : Host.Outcome State Fault Refusal :=
  match s.status with
  | .onFire r => .fault (.onFire r)
  | .running =>
    let s1 := s.boundary
    match s1.status with
    | .onFire _ => .next s1
    | .running =>
      match s1.fetch with
      | .error e => .fault (s1.faultOf e)
      | .ok i => exec i ((s1.passWords i).spend (instrCycles i))

/-- `s` with the instruction of an opcode-table row stored where `step` fetches its next instruction: its `nbits`
bits, zeros above them, five words in all, bit 0 the least significant bit of the first word. It stands for the
load of a program into RAM from outside the machine (rule R382; log entry 10). -/
def State.withFetchWord (s : State) (nbits w : Nat) : State :=
  s.placeProgram (tableWords nbits w)

end Sys2Proof.Machine
end

