-- ==== Sys2Proof/Safety.lean ====
section
/-! DEFINITION. What claims about runs say: the invariant of the machine's states, a safe run, and the finished
state that rule R403 suggests. -/

namespace Sys2Proof

/-- The parameter an instruction writes: the first of the Basic, Float and Load opcodes that are no conditionals, the
only one of IAG and HWN (rules R170, R220, R250, R251, R280, R292); none where its parameters are only read. -/
def Instr.destination : Instr → Option Operand
  | .ifb _ _ => none
  | .ifc _ _ => none
  | .ife _ _ => none
  | .ifn _ _ => none
  | .ifg _ _ => none
  | .ifa _ _ => none
  | .ifl _ _ => none
  | .ifu _ _ => none
  | .sti o _ => some o
  | .std o _ => some o
  | .add o _ => some o
  | .sub o _ => some o
  | .mul o _ => some o
  | .mli o _ => some o
  | .div o _ => some o
  | .dvi o _ => some o
  | .mod o _ => some o
  | .mdi o _ => some o
  | .and o _ => some o
  | .bor o _ => some o
  | .xor o _ => some o
  | .shr o _ => some o
  | .asr o _ => some o
  | .shl o _ => some o
  | .adx o _ => some o
  | .sbx o _ => some o
  | .fadd o _ => some o
  | .fsub o _ => some o
  | .fmul o _ => some o
  | .fdiv o _ => some o
  | .fmod o _ => some o
  | .fife _ _ => none
  | .fifn _ _ => none
  | .fifg _ _ => none
  | .fifl _ _ => none
  | .fset o _ => some o
  | .set o _ => some o
  | .dset o _ => some o
  | .jsr _ => none
  | .call _ => none
  | .movh _ => none
  | .movl _ => none
  | .movt _ => none
  | .pcs _ => none
  | .mov _ => none
  | .sps _ => none
  | .ias _ => none
  | .iag o => some o
  | .int _ => none
  | .rfi _ => none
  | .iaq _ => none
  | .hwn o => some o
  | .hwq _ => none
  | .hwi _ => none
  | .ifex => none
  | .popsg => none
  | .hsg => none
  | .lsg => none
  | .hng => none
  | .pusha => none
  | .popa => none

end Sys2Proof

namespace Sys2Proof.Machine

/-- The invariant of every state a run passes: RAM is in its canonical form, and while the machine runs the queue
holds at most 256 messages (rules R33, R334). -/
def State.Inv (s : State) : Prop :=
  s.mem.wf ∧ (s.status = .running → s.queue.length ≤ Config.queueMax)

/-- The next `k` steps neither stop nor set the machine on fire (rule R38). -/
def SafeFor : Nat → State → Prop
  | 0, s => s.status = .running
  | k + 1, s => s.status = .running ∧ ∃ t, step s = .next t ∧ SafeFor k t

/-- No device message of the coming boundary overflows the queue (rule R334). -/
def State.ArrivalsFit (s : State) : Prop :=
  s.queue.length + s.arriving.length ≤ Config.queueMax

/-- The finished state of rule R403: the machine runs, at an HNG, and either drops every interrupt, or no device
sends any (none is scheduled, or none is connected) and none is waiting to be taken. -/
def State.Finished (s : State) : Prop :=
  s.status = .running ∧ s.readWord s.seg s.pc = 0x0808 ∧
    ((s.ia = 0 ∧ s.iaqOn = false) ∨
      ((s.arrivals = [] ∨ Config.deviceCount = 0) ∧ (s.queue = [] ∨ s.iaqOn = true)))

/-- The two states agree on all that a program can read of the machine: every register, the segment, the status and
every word of RAM. The queue, the inputs and the model's counters are left out. -/
def SameRegistersAndRam (s t : State) : Prop :=
  (∀ r, t.reg r = s.reg r) ∧ (∀ f, t.freg f = s.freg f) ∧ t.ex = s.ex ∧ t.pc = s.pc ∧ t.sp = s.sp ∧
    t.ia = s.ia ∧ t.seg = s.seg ∧ t.iaqOn = s.iaqOn ∧ t.status = s.status ∧
    ∀ g addr, t.readWord g addr = s.readWord g addr

/-- The two states agree on what no operand can name: IA, the segment, the queueing flag, the queue, the status and
the inputs. -/
def SameControl (s t : State) : Prop :=
  t.ia = s.ia ∧ t.seg = s.seg ∧ t.iaqOn = s.iaqOn ∧ t.queue = s.queue ∧ t.status = s.status ∧
    t.arrivals = s.arrivals

/-- A write to the place stores to the general register `x`; `both` says whether a dword register takes both its
halves (rules R135, R137, R139, R141). -/
def Place.storesReg (both : Bool) (p : Place) (x : Reg) : Bool :=
  match p with
  | .reg16 r => x == r
  | .reg32 d => x == lowHalf d || (both && x == highHalf d)
  | .regF _ => false
  | .mem _ _ => false
  | .ex => false
  | .pc => false
  | .sp => false
  | .lit _ => false

/-- A write to the place stores to the word `x` of segment `g`; `two` says whether a place in RAM takes two words
(rule R70). -/
def Place.storesWord (two : Bool) (p : Place) (g : Seg) (x : Word) : Bool :=
  match p with
  | .mem g' y => g == g' && (x == y || (two && x == y + 1))
  | .reg16 _ => false
  | .reg32 _ => false
  | .regF _ => false
  | .ex => false
  | .pc => false
  | .sp => false
  | .lit _ => false

/-- From `s` to `t` nothing changed but what a write to the place `p` stores to: the frame of a destination. -/
def OnlyPlaceChanged (both two : Bool) (p : Place) (s t : State) : Prop :=
  (∀ x, p.storesReg both x = false → t.reg x = s.reg x) ∧
    (∀ f, p ≠ .regF f → t.freg f = s.freg f) ∧
    (p ≠ .ex → t.ex = s.ex) ∧ (p ≠ .pc → t.pc = s.pc) ∧ (p ≠ .sp → t.sp = s.sp) ∧
    SameControl s t ∧
    ∀ g x, p.storesWord two g x = false → t.readWord g x = s.readWord g x

/-- The two states agree on the data registers: the eight general registers, FA, FB and EX. -/
def SameData (s t : State) : Prop :=
  (∀ r, t.reg r = s.reg r) ∧ (∀ f, t.freg f = s.freg f) ∧ t.ex = s.ex

/-- What "performs next instruction only if" says of a conditional (rule R172): when its test holds the machine is
as after the resolution of the parameters and the next step performs the next instruction; when it fails, a skip
follows in the same step. -/
def PerformsNextOnlyIf (test : Prop) (resolved : State) (result : Result) : Prop :=
  (test → result = .next resolved) ∧ (¬ test → result = resolved.skip)

/-- The words of `i` are the first word `w` and after it the words of the parameters, left to right (rules R90,
R98). -/
def EncodesTo (i : Instr) (w : Word) : Prop :=
  encode i = w :: i.operands.flatMap Operand.words

/-- A first word with the field of `f` at bit 6 and the field of `g` at bit 0 (rules R92 to R94). -/
def firstWordTwo (base : Word) (f g : Operand) : Word :=
  base ||| (f.field.setWidth 16 <<< 6) ||| g.field.setWidth 16

/-- A first word with the field of `c` at bit 0 (rule R95). -/
def firstWordOne (base : Word) (c : Operand) : Word :=
  base ||| c.field.setWidth 16

/-- The pattern `p` is that of the finite number `q` (rule R23). -/
def HasValue (p : Dword) (q : ℚ) : Prop :=
  ∃ neg n, floatValue p = .finite neg n ∧ q = (signedUnits neg n : ℚ) / 2 ^ 149

/-- `p` is the exact result `q` rounded once to binary32: the infinity of its sign from half a unit above the
largest finite number on, else the nearest finite number, and of two as near the one whose last fraction bit is 0
(`RM`, rules R6, R221). -/
def IsRounding (q : ℚ) (p : Dword) : Prop :=
  if (2 ^ 25 - 1) * 2 ^ 103 ≤ |q| then p = infinityOf (decide (q < 0))
  else
    ∃ v, HasValue p v ∧ ∀ p' v', HasValue p' v' →
      |q - v| ≤ |q - v'| ∧ (|q - v| = |q - v'| → v' = v ∨ p.getLsbD 0 = false)

/-- The integer part of a number, its fraction dropped (rule R142). -/
def truncated (q : ℚ) : Int :=
  if 0 ≤ q then ⌊q⌋ else ⌈q⌉

end Sys2Proof.Machine
end

