-- ==== Sys2Proof/Certificates/Slice0/Obligations.lean ====
section
/-! DEFINITION. The statements for the provers. Each docstring names the rules of spec/ it formalises; a statement
whose basis is 'derived' rests on a rule that the spec marks as a decision, an inference or general knowledge of
its own, and says so. -/

section

open Sys2Proof Sys2Proof.Machine

/-! ## Encoding -/

/-- Rules R90 to R96, R98 to R100, R112. Decoding the words of any well-formed instruction, whatever follows them in
RAM, gives the instruction back, with every operand at every value the encoding admits; the words of MOV give PCS,
whose other name it is. The bit order is the spec's decision D1, the extension word its decision D2. -/
def Obligations.DecodeOfEncode : Prop :=
  ∀ (i : Instr) (after : List Word), i.wellFormed = true →
    decodeWords (encode i ++ after) = .ok i.canonical ∧ ((∀ c, i ≠ .mov c) → i.canonical = i)

/-- Whatever words decode are the encoding of the instruction they decode to, whose length counts exactly its words
(rules R98, R99, R108). This says more than the spec: a code in a field and the same code in an extension word, which
the spec calls two spellings of one value (rules R100, R113), are two terms here, the model's choice (log entry 13);
and it rests on the spec's decision D2, by which an extension word has no bits to spare. -/
def Obligations.EncodeOfDecode : Prop :=
  ∀ (w w1 w2 w3 w4 : Word) (i : Instr), decode w w1 w2 w3 w4 = .ok i →
    i.wellFormed = true ∧ encode i = [w, w1, w2, w3, w4].take i.length

/-- Words of the spec's own examples, one or more of each format, decode to the instructions the spec writes beside
them (rules R183, R225, R250, R254, R271, R311, R402), their operands by the value codes of rule R120. The bit order
is the spec's decision D1, the extension word of the second and third its decision D2 (log entry 13). -/
def Obligations.SampleWordsDecode : Prop :=
  decodeWords [0xac01] = .ok (.add ⟨false, .reg .a⟩ ⟨false, .reg .b⟩) ∧
    decodeWords [0xafe4, 0x0018, 0x0004, 0x2000] = .ok (.add ⟨true, .idx .a 4⟩ ⟨false, .mem 0x2000⟩) ∧
    decodeWords [0x4bca, 0x0024, 0x3000] = .ok (.fmul ⟨true, .mem 0x3000⟩ ⟨false, .freg .fa⟩) ∧
    decodeWords [0x2937, 0x1000] = .ok (.set ⟨false, .mem 0x1000⟩ ⟨false, .power 1⟩) ∧
    decodeWords [0x3418, 0x0001] = .ok (.dset ⟨false, .ind .a⟩ ⟨false, .idx .a 1⟩) ∧
    decodeWords [0x1020, 0x0100] = .ok (.jsr ⟨false, .next 0x0100⟩) ∧
    decodeWords [0x0801] = .ok .ifex

/-- Rules R97, R101 to R106, R234, R297, R318. The first words without a meaning are exactly those the spec lists, in
whatever words follow. That they are a fault is the spec's decision D19. -/
def Obligations.UndefinedFirstWords : Prop :=
  ∀ (w w1 w2 w3 w4 : Word),
    decode w w1 w2 w3 w4 = .error .illegalInstruction ↔
      let n := w.toNat
      n ≤ 0x0800 ∨ n = 0x0802 ∨ n = 0x0803 ∨ n = 0x0807 ∨ n = 0x0809 ∨ n = 0x080a ∨ (0x080d ≤ n ∧ n ≤ 0x0fff) ∨
        (0x1080 ≤ n ∧ n ≤ 0x10ff) ∨ (0x11c0 ≤ n ∧ n ≤ 0x12bf) ∨ (0x1340 ≤ n ∧ n ≤ 0x13bf) ∨
        (0x1440 ≤ n ∧ n ≤ 0x147f) ∨ (0x1540 ≤ n ∧ n ≤ 0x157f) ∨ (0x1640 ≤ n ∧ n ≤ 0x1fff) ∨
        (0x5400 ≤ n ∧ n ≤ 0x57ff) ∨ (0x6800 ≤ n ∧ n ≤ 0x6bff) ∨ (0x7000 ≤ n ∧ n ≤ 0x7fff) ∨
        (0xa000 ≤ n ∧ n ≤ 0xa3ff) ∨ (0xe400 ≤ n ∧ n ≤ 0xe7ff) ∨ 0xf000 ≤ n

/-- Rules R100, R130. A field decodes to an operand unless it holds 0x0f and the extension word is above 0x3f or is
0x0f itself. That such a word is a fault is the spec's decision D2. -/
def Obligations.ExtensionWordRange : Prop :=
  ∀ (field : BitVec 6) (w1 w2 : Word),
    (Operand.decode field w1 w2 = .error .badExtensionWord ↔ field = 0x0f ∧ (0x3f < w1.toNat ∨ w1 = 0x0f)) ∧
      Operand.decode field w1 w2 ≠ .error .illegalInstruction

/-! ## The step -/

/-- Rules R11, R26, R108, R400. When the machine runs past its boundary and the words at SEG:PC decode to `i`, the step
is `exec i` with PC past the words of `i` and the cycles of `i` on the ghost counter; with nothing arriving and
nothing queued the boundary changes nothing. -/
def Obligations.StepRunsDecodedInstruction : Prop :=
  ∀ (s : State) (i : Instr),
    s.status = .running → s.boundary.status = .running → s.boundary.fetch = .ok i →
      step s = exec i { s.boundary with
          pc := s.boundary.pc + BitVec.ofNat 16 i.length, cycles := s.boundary.cycles + instrCycles i } ∧
        (s.arrivals = [] → s.queue = [] → s.boundary = s)

/-- Rules R11, R27, R60, R77, R98. Where RAM holds, at SEG:PC after the boundary, the words of a well-formed
instruction, the step runs that instruction. That the words go on round the end of the segment is the spec's decision
D7 (R27, R68; log entry 16); the encoding rests on its decisions D1 and D2, the bit order and the extension word (log
entry 13). -/
def Obligations.StepRunsEncodedInstruction : Prop :=
  ∀ (s : State) (i : Instr),
    s.status = .running → s.boundary.status = .running → i.wellFormed = true →
      (∀ k, ∀ h : k < (encode i).length,
        s.boundary.readWord s.boundary.seg (s.boundary.pc + BitVec.ofNat 16 k) = (encode i)[k]) →
      step s = exec i.canonical { s.boundary with
        pc := s.boundary.pc + BitVec.ofNat 16 i.length, cycles := s.boundary.cycles + instrCycles i }

/-- Rules R38, R106, R130, R331, R334. A step stops where the words at SEG:PC are no instruction, with the address of
their first word, and where the machine is on fire, which no step leaves. -/
def Obligations.StepStops : Prop :=
  (∀ s : State, s.status = .running → s.boundary.status = .running →
      (s.boundary.fetch = .error .illegalInstruction →
        step s = .fault (.illegalInstruction s.boundary.seg s.boundary.pc)) ∧
      (s.boundary.fetch = .error .badExtensionWord →
        step s = .fault (.badExtensionWord s.boundary.seg s.boundary.pc))) ∧
    ∀ (s : State) (r : FireReason), s.status = .onFire r → step s = .fault (.onFire r)

/-- Rules R33, R60, R334. Every step keeps the invariant: RAM in its canonical form, and at most 256 messages in the
queue while the machine runs. -/
def Obligations.StepKeepsInvariant : Prop :=
  ∀ s t : State, s.Inv → step s = .next t → t.Inv

/-- Rules R33, R45. The machine right after reset meets the invariant. -/
def Obligations.ResetMeetsInvariant : Prop :=
  State.reset.Inv

/-- Rules R31, R45, R381. What reset leaves: the low segment is the source's own; the other values are the spec's
decision D27 (its log entry here: 3), and the words of RAM read 0 by the model's choice of INIT_RAM (log entry 2). -/
def Obligations.ResetState : Prop :=
  State.reset.seg = .low ∧ State.reset.pc = 0 ∧ State.reset.sp = 0 ∧ (∀ r, State.reset.reg r = 0) ∧
    (∀ f, State.reset.freg f = 0) ∧ State.reset.ex = 0 ∧ State.reset.ia = 0 ∧ State.reset.iaqOn = false ∧
    State.reset.queue = [] ∧ State.reset.status = .running ∧ ∀ g x, State.reset.readWord g x = 0

/-- Rule R351. More than 65535 devices at power-on set the machine on fire from the start and it performs no step; up to
65535 do not, and then their number fits the word that HWN writes. -/
def Obligations.TooManyDevicesIsFire : Prop :=
  ∀ n : Nat,
    (65535 < n → (State.powerOn n).status = .onFire .tooManyDevices ∧
      step (State.powerOn n) = .fault (.onFire .tooManyDevices)) ∧
    (n ≤ 65535 → State.powerOn n = State.reset ∧ (BitVec.ofNat 16 n).toNat = n)

/-! ## Rules of the whole machine -/

/-- Rule R63. The segment changes only by the six instructions the rule lists, and not at a boundary; HSG and LSG
change nothing else; MOVH, MOVL and MOVT read their operand, also one in RAM, in the segment they started in. That
they read it before the pushes is the spec's decision D22, that code 0x0c is POP there its decision D5 (log entry
14). -/
def Obligations.SegmentChangers : Prop :=
  (∀ (i : Instr) (s t : State), exec i s = .next t → t.seg ≠ s.seg →
      i = .hsg ∨ i = .lsg ∨ i = .popsg ∨ ∃ c, i = .movh c ∨ i = .movl c ∨ i = .movt c) ∧
    (∀ s : State, s.boundary.seg = s.seg) ∧
    (∀ s : State, exec .hsg s = .next { s with seg := .high } ∧ exec .lsg s = .next { s with seg := .low }) ∧
    ∀ (c : Operand) (s : State),
      let r := resolve false c s
      (∀ g x, r.place = .mem g x → g = s.seg) ∧
        ∀ i, i = .movh c ∨ i = .movl c ∨ i = .movt c →
          ∃ t, exec i s = .next t ∧ t.pc = readW r.place r.state ∧ t.ia = s.ia

/-- Rules R62, R276. An instruction changes RAM only in the current segment; MOVH, MOVL and MOVT only in the segment
they move to; a device that HWI addresses may change either. That data accesses use the current segment is the
spec's decision D6, where the MOVs push its decision D39. -/
def Obligations.OtherSegmentUntouched : Prop :=
  ∀ (i : Instr) (s t : State), exec i s = .next t → (∀ c, i ≠ .hwi c) →
    ∀ g x, t.readWord g x ≠ s.readWord g x →
      ((∃ c, i = .movh c ∨ i = .movl c ∨ i = .movt c) → g = t.seg) ∧
        ((∀ c, i ≠ .movh c ∧ i ≠ .movl c ∧ i ≠ .movt c) → g = s.seg)

/-- Rules R25, R310. EX changes only by the eleven opcodes that set it, by an instruction that writes its parameter EX,
and by a device that HWI addresses; an instruction that only reads a parameter EX leaves it. The list is an inference
the spec marks as its own. -/
def Obligations.ExOwners : Prop :=
  ∀ (i : Instr) (s t : State), exec i s = .next t → t.ex ≠ s.ex →
    (∃ a b, i = .add a b ∨ i = .sub a b ∨ i = .mul a b ∨ i = .mli a b ∨ i = .div a b ∨ i = .dvi a b ∨
        i = .shr a b ∨ i = .asr a b ∨ i = .shl a b ∨ i = .adx a b ∨ i = .sbx a b) ∨
      (∃ o ∈ i.destination, o.value = .ex) ∨ ∃ c, i = .hwi c

/-- Rules R30, R32, R33, R38, R296. Who changes the state no operand can name: IA by IAS and by a device; interrupt
queueing by RFI and IAQ; the queue and the status by INT and by a device; the inputs by no instruction. That a
device may write IA is the spec's reading in R296. -/
def Obligations.ControlOwners : Prop :=
  ∀ (i : Instr) (s t : State), exec i s = .next t →
    (t.ia ≠ s.ia → ∃ c, i = .ias c ∨ i = .hwi c) ∧
      (t.iaqOn ≠ s.iaqOn → ∃ c, i = .rfi c ∨ i = .iaq c) ∧
      (t.queue ≠ s.queue ∨ t.status ≠ s.status → ∃ c, i = .int c ∨ i = .hwi c) ∧
      t.arrivals = s.arrivals

/-- Rules R400, R401. The cycle count is a ghost: a step from a state with `k` more cycles on the counter does the same
and ends with `k` more cycles; and outside conditionals and HWI the instruction itself adds none to the cost the step
has counted. Log entry 12. The costs that the step counts: that of each opcode, a cycle for the next word of a
parameter and one for its extension word, and a cycle for a DSET whose source, or an FSET of which a parameter, is a
place in RAM. What a failed test adds SkipPassesOverConditionals says; what a device adds to HWI is free. -/
def Obligations.CyclesAreGhost : Prop :=
  (∀ (s : State) (k : Nat),
      step (s.spend k) =
        match step s with
        | .next t => .next (t.spend k)
        | .fault f => .fault f
        | .refused r => .refused r) ∧
    (∀ (i : Instr) (s t : State), exec i s = .next t → i.isConditional = false → (∀ c, i ≠ .hwi c) →
      t.cycles = s.cycles) ∧
    (∀ (e : Bool) (v : Value),
      let own := ∃ n, v = .pick n ∨ (∃ r, v = .idx r n) ∨ v = .next n ∨ v = .mem n
      (own → Operand.length ⟨e, v⟩ = if e then 2 else 1) ∧ (¬ own → Operand.length ⟨e, v⟩ = if e then 1 else 0)) ∧
    ∀ (a b : Operand) (s : State),
      let two := fun (n : Nat) (i : Operand → Operand → Instr) => instrCycles (i a b) = n + a.length + b.length
      let one := fun (n : Nat) (i : Operand → Instr) => instrCycles (i a) = n + a.length
      let inRam := fun p : Place => ∃ g x, p = .mem g x
      let r := resolve2 a b s
      (two 2 .ifb ∧ two 2 .ifc ∧ two 2 .ife ∧ two 2 .ifn ∧ two 2 .ifg ∧ two 2 .ifa ∧ two 2 .ifl ∧ two 2 .ifu ∧
          two 2 .sti ∧ two 2 .std ∧ two 2 .add ∧ two 2 .sub ∧ two 2 .mul ∧ two 2 .mli ∧ two 15 .div ∧ two 15 .dvi ∧
          two 8 .mod ∧ two 8 .mdi ∧ two 1 .and ∧ two 1 .bor ∧ two 1 .xor ∧ two 1 .shr ∧ two 1 .asr ∧ two 1 .shl ∧
          two 3 .adx ∧ two 3 .sbx) ∧
        (two 2 .fadd ∧ two 2 .fsub ∧ two 2 .fmul ∧ two 15 .fdiv ∧ two 8 .fmod ∧ two 2 .fife ∧ two 2 .fifn ∧
          two 2 .fifg ∧ two 2 .fifl) ∧
        ((inRam r.first ∨ inRam r.second → two 3 .fset) ∧ (¬ (inRam r.first ∨ inRam r.second) → two 2 .fset)) ∧
        (two 1 .set ∧ (inRam r.second → two 3 .dset) ∧ (¬ inRam r.second → two 2 .dset)) ∧
        (one 3 .jsr ∧ one 7 .call ∧ one 4 .movh ∧ one 4 .movl ∧ one 4 .movt ∧ one 1 .pcs ∧ one 1 .mov ∧ one 1 .sps ∧
          one 1 .ias ∧ one 1 .iag ∧ one 4 .int ∧ one 3 .rfi ∧ one 2 .iaq ∧ one 2 .hwn ∧ one 4 .hwq ∧ one 4 .hwi) ∧
        instrCycles .ifex = 1 ∧ instrCycles .popsg = 3 ∧ instrCycles .hsg = 1 ∧ instrCycles .lsg = 1 ∧
        instrCycles .hng = 1 ∧ instrCycles .pusha = 4 ∧ instrCycles .popa = 4

/-- Rule R403, the finished state that the spec suggests (its decision D34): from it every step, unless more messages
arrive than the queue holds, leaves registers and RAM as they are and ends in a finished state again. -/
def Obligations.FinishedStays : Prop :=
  ∀ s : State, s.Finished → s.ArrivalsFit → ∃ t, step s = .next t ∧ SameRegistersAndRam s t ∧ t.Finished

/-! ## Interrupts -/

/-- Rule R337. Taking an interrupt: queueing on, PC and then A pushed in the current segment, PC takes IA and A the
message; nothing else of the machine changes. -/
def Obligations.InterruptEntry : Prop :=
  ∀ (s : State) (m : Word),
    let t := s.enterInterrupt m
    t.iaqOn = true ∧ t.sp = s.sp - 2 ∧ t.readWord s.seg (s.sp - 1) = s.pc ∧ t.readWord s.seg (s.sp - 2) = s.a ∧
      t.pc = s.ia ∧ t.a = m ∧
      (∀ r, r ≠ .a → t.reg r = s.reg r) ∧ (∀ f, t.freg f = s.freg f) ∧ t.ex = s.ex ∧ t.ia = s.ia ∧ t.seg = s.seg ∧
      t.queue = s.queue ∧ t.status = s.status ∧ t.arrivals = s.arrivals ∧
      ∀ g x, ¬ (g = s.seg ∧ (x = s.sp - 1 ∨ x = s.sp - 2)) → t.readWord g x = s.readWord g x

/-- Rules R335, R336, R341, R342, R352. A boundary of a running machine at which the arrivals fit the queue: the
messages that arrive now (none past the end of the schedule, none where no device is connected, else those the
schedule names) join the end of the queue, then at most one leaves it: none while queueing is on or nothing waits, the
oldest dropped where IA is 0, the oldest taken otherwise. The order is the spec's decision D24, the arrivals its
decision D35 (log entry 8). -/
def Obligations.DeliveryCases : Prop :=
  ∀ s : State,
    (s.arrivals = [] → s.arriving = []) ∧ (Config.deviceCount = 0 → s.arriving = []) ∧
      (∀ now later, s.arrivals = now :: later → Config.deviceCount ≠ 0 → s.arriving = now) ∧
      (s.status = .running → s.queue.length + s.arriving.length ≤ 256 →
        let s1 := { s with arrivals := s.arrivals.tail, queue := s.queue ++ s.arriving }
        (s.iaqOn = true ∨ s1.queue = [] → s.boundary = s1) ∧
          ∀ m rest, s.iaqOn = false → s1.queue = m :: rest →
            (s.ia = 0 → s.boundary = { s1 with queue := rest }) ∧
              (s.ia ≠ 0 → s.boundary = { s1 with queue := rest }.enterInterrupt m))

/-- Rules R334, R342, R352. Where the scheduled messages of a boundary reach the 257th entry and a device is connected
to send them, the machine catches fire there, nothing is delivered or performed, and no further step is possible (the
spec's decision D30); with no device connected none of them arrives. That messages come from a schedule rests on the
spec's decision D35 (log entry 8). The rules specify no state after the fire: that the boundary is a step of its own,
and that its state keeps the first 257 entries of the queue and all else as it was, is the model's choice (log entry
19). -/
def Obligations.ArrivalOverflowIsFire : Prop :=
  ∀ (s : State) (now : List Word) (later : List (List Word)),
    s.status = .running → s.arrivals = now :: later → s.queue.length ≤ 256 → 256 < s.queue.length + now.length →
      (Config.deviceCount ≠ 0 →
        ∃ t, step s = .next t ∧ t.status = .onFire .queueOverflow ∧ t.queue = (s.queue ++ now).take 257 ∧
          SameData s t ∧ t.pc = s.pc ∧ t.sp = s.sp ∧ t.ia = s.ia ∧ t.seg = s.seg ∧ t.iaqOn = s.iaqOn ∧
          t.arrivals = later ∧ (∀ g x, t.readWord g x = s.readWord g x) ∧ step t = .fault (.onFire .queueOverflow)) ∧
        (Config.deviceCount = 0 → s.arrive = { s with arrivals := later })

/-- Rules R281, R333, R334. INT puts its message at the end of the queue and changes nothing else; the message that is
the 257th sets the machine on fire. That INT goes through the queue is the spec's decision D24, that fire is terminal
its decision D30; no state after the fire is specified, and that it keeps the queue and all else is the model's choice
(log entry 19). -/
def Obligations.IntEnqueues : Prop :=
  ∀ (c : Operand) (s : State),
    let r := resolve false c s
    let q := s.queue ++ [readW r.place r.state]
    EncodesTo (.int c) (firstWordOne 0x1480 c) ∧
      (s.queue.length < 256 → exec (.int c) s = .next { r.state with queue := q }) ∧
      (256 ≤ s.queue.length →
        exec (.int c) s = .next { r.state with queue := q, status := .onFire .queueOverflow })

/-- Rules R281, R336, R337. INT with queueing off and an empty queue, no device sending: the boundary after it takes
the interrupt when IA is not 0, and drops it when IA is 0 (the spec's decision D24). -/
def Obligations.IntIsTakenAtTheNextBoundary : Prop :=
  ∀ (c : Operand) (s t : State),
    s.status = .running → s.iaqOn = false → s.queue = [] → s.arrivals = [] → exec (.int c) s = .next t →
      let r := resolve false c s
      (s.ia ≠ 0 → t.boundary = r.state.enterInterrupt (readW r.place r.state)) ∧ (s.ia = 0 → t.boundary = r.state)

/-- Rules R290, R339. RFI turns queueing off, pops A, pops PC, in the current segment; its parameter is resolved and not
used, so that one written POP raises SP once more before (the spec's decision D22); nothing else changes. -/
def Obligations.RfiPops : Prop :=
  ∀ (c : Operand) (s : State),
    let sp := if c.value = .stack then s.sp + 1 else s.sp
    EncodesTo (.rfi c) (firstWordOne 0x14c0 c) ∧
      exec (.rfi c) s = .next { s with
        iaqOn := false, a := s.readWord s.seg sp, pc := s.readWord s.seg (sp + 1), sp := sp + 2 }

/-- Rules R290, R298, R337, R340. A handler that leaves SP, SEG and the two words of its frame as it found them returns
by RFI to the interrupted point with A as it was, SP as it was, and queueing off. -/
def Obligations.EntryThenRfi : Prop :=
  ∀ (s h : State) (m : Word) (c : Operand), c.value ≠ .stack →
    h.seg = s.seg → h.sp = (s.enterInterrupt m).sp →
    (∀ x, x = s.sp - 1 ∨ x = s.sp - 2 → h.readWord s.seg x = (s.enterInterrupt m).readWord s.seg x) →
      exec (.rfi c) h = .next { h with iaqOn := false, a := s.a, pc := s.pc, sp := s.sp }

/-- Rule R291. IAQ turns interrupt queueing on, or off where its parameter is 0, and changes nothing else; once off,
with nothing arriving, the oldest of the messages that wait leaves at the next boundary, before the next instruction,
and is taken where IA is not 0. That IAQ 0 itself only clears the flag, and that the oldest leaves first, are the
spec's decisions D37 and D24 (log entry 19). -/
def Obligations.IaqSetsQueueing : Prop :=
  ∀ (c : Operand) (s : State),
    let r := resolve false c s
    let v := readW r.place r.state
    EncodesTo (.iaq c) (firstWordOne 0x1500 c) ∧ instrCycles (.iaq c) = 2 + c.length ∧
      (v ≠ 0 → exec (.iaq c) s = .next { r.state with iaqOn := true }) ∧
      (v = 0 → exec (.iaq c) s = .next { r.state with iaqOn := false }) ∧
      ∀ t m rest, v = 0 → exec (.iaq c) s = .next t → s.status = .running → s.arrivals = [] → s.queue = m :: rest →
        t.boundary.queue = rest ∧ (s.ia ≠ 0 → t.boundary = { t with queue := rest }.enterInterrupt m)

/-! ## Operands -/

/-- Rule R125. Code 0x0c lowers SP and names the word at the new SP as first parameter, names the word at SP and raises
SP as second; the change happens at resolution, once for each occurrence, whatever the instruction then does. -/
def Obligations.StackCodeIsPositional : Prop :=
  ∀ (e : Bool) (s : State),
    resolve true ⟨e, .stack⟩ s = ⟨.mem s.seg (s.sp - 1), { s with sp := s.sp - 1 }⟩ ∧
      resolve false ⟨e, .stack⟩ s = ⟨.mem s.seg s.sp, { s with sp := s.sp + 1 }⟩ ∧
      resolve2 ⟨e, .stack⟩ ⟨e, .stack⟩ s = ⟨.mem s.seg (s.sp - 1), .mem s.seg (s.sp - 1), s⟩ ∧
      (∀ b, b.value ≠ .stack →
        exec (.add ⟨e, .stack⟩ b) s =
          (let s1 := { s with sp := s.sp - 1 }
           let y := readW (resolve false b s1).place s1
           let x := addEx (s.readWord s.seg (s.sp - 1)) y
           .next { s1.writeWord s.seg (s.sp - 1) x.value with ex := x.ex })) ∧
      ∀ b t, b.value ≠ .stack → exec (.ife ⟨e, .stack⟩ b) s = .next t → t.sp = s.sp - 1

/-- The whole value table and Listing 40-A (rules R120, R122, R123, R127, R128), but for the change of SP by code 0x0c,
which StackCodeIsPositional states. Each code names a value, with `n` its next word, and the value resolves to the place
the table gives, in the current segment, the literals as numbers; no register changes, so PICK and PEEK leave SP, and
PICK 0 names what PEEK names. The sums are taken modulo 2^16 inside the segment by the spec's decision D7 (log entry
16); the order of the registers in codes 0x10 to 0x1f is an inference the spec marks as its own. -/
def Obligations.PickAndPeek : Prop :=
  ∀ (first e : Bool) (n : Word) (s : State),
    let names := fun (code : Nat) (v : Value) (p : Place) =>
      Value.decode code n = some v ∧ resolve first ⟨e, v⟩ s = ⟨p, s⟩
    let sum := fun x y : Word => BitVec.ofNat 16 ((x.toNat + y.toNat) % 2 ^ 16)
    let regs : List Reg := [.a, .b, .c, .i, .xh, .xl, .yh, .yl]
    (∀ k, ∀ h : k < regs.length,
        names k (.reg regs[k]) (.reg16 regs[k]) ∧
          names (0x10 + k) (.ind regs[k]) (.mem s.seg (s.reg regs[k])) ∧
          names (0x18 + k) (.idx regs[k] n) (.mem s.seg (sum (s.reg regs[k]) n))) ∧
      (names 0x08 (.dreg .dx) (.reg32 .dx) ∧ names 0x09 (.dreg .dy) (.reg32 .dy) ∧
        names 0x0a (.freg .fa) (.regF .fa) ∧ names 0x0b (.freg .fb) (.regF .fb)) ∧
      (Value.decode 0x0c n = some .stack ∧ names 0x0d (.pick n) (.mem s.seg (sum s.sp n)) ∧
        names 0x0e .peek (.mem s.seg s.sp) ∧ Value.decode 0x0f n = none) ∧
      (names 0x20 (.next n) (.lit n) ∧ names 0x21 .ex .ex ∧ names 0x22 .pc .pc ∧ names 0x23 .sp .sp ∧
        names 0x24 (.mem n) (.mem s.seg n) ∧ names 0x25 .minusOne (.lit 65535)) ∧
      (∀ k < 16, names (0x26 + k) (.small (BitVec.ofNat 4 k)) (.lit (BitVec.ofNat 16 k))) ∧
      (∀ k, ∀ h : k < 10, names (0x36 + k) (.power ⟨k, h⟩) (.lit (BitVec.ofNat 16 (2 ^ (k + 4))))) ∧
      resolve first ⟨e, .pick 0⟩ s = resolve first ⟨e, .peek⟩ s

/-- Rules R129, R256, R280, R292. With a literal destination an instruction drops the write and only the write: the
parameters are resolved, EX is set by the opcodes that set it, I is stepped by STI and STD. Every instruction that
writes a parameter is named; that it holds of them all is the spec's decision D17. -/
def Obligations.LiteralWritesAreDropped : Prop :=
  ∀ (a b : Operand) (w : Word) (s : State), (resolve2 a b s).first = .lit w →
    let r := resolve2 a b s
    let y := readW r.second r.state
    let drops := fun i : Instr => exec i s = .next r.state
    let setsEx := fun (i : Instr) (x : WithEx) => exec i s = .next { r.state with ex := x.ex }
    let draws := fun i : Instr => exec i s = .next { r.state with draws := s.draws + 1 }
    (drops (.set a b) ∧ drops (.dset a b) ∧ drops (.fset a b) ∧ drops (.and a b) ∧ drops (.bor a b) ∧
        drops (.xor a b) ∧ drops (.mod a b) ∧ drops (.mdi a b)) ∧
      (setsEx (.add a b) (addEx w y) ∧ setsEx (.sub a b) (subEx w y) ∧ setsEx (.mul a b) (mulEx w y) ∧
        setsEx (.mli a b) (mliEx w y) ∧ setsEx (.div a b) (divEx w y) ∧ setsEx (.dvi a b) (dviEx w y) ∧
        setsEx (.shr a b) (shrEx w y) ∧ setsEx (.asr a b) (asrEx w y) ∧ setsEx (.shl a b) (shlEx w y) ∧
        setsEx (.adx a b) (adxEx w y s.ex) ∧ setsEx (.sbx a b) (sbxEx w y s.ex)) ∧
      (draws (.fadd a b) ∧ draws (.fsub a b) ∧ draws (.fmul a b) ∧ draws (.fdiv a b) ∧ draws (.fmod a b)) ∧
      exec (.sti a b) s = .next { r.state with i := s.i + 1 } ∧
      exec (.std a b) s = .next { r.state with i := s.i - 1 } ∧
      exec (.iag a) s = .next s ∧ exec (.hwn a) s = .next s

/-- Rule R21. DX is XH:XL and DY is YH:YL: no storage of their own, a write to either side is seen on the other; code
0x08 names DX, 0x09 names DY. -/
def Obligations.DwordRegistersAreTheirHalves : Prop :=
  ∀ (s : State) (v : Dword) (w : Word),
    s.dreg .dx = s.xh ++ s.xl ∧ s.dreg .dy = s.yh ++ s.yl ∧
      (s.setReg .xh w).dreg .dx = w ++ s.xl ∧ (s.setReg .xl w).dreg .dx = s.xh ++ w ∧
      (s.setReg .yh w).dreg .dy = w ++ s.yl ∧ (s.setReg .yl w).dreg .dy = s.yh ++ w ∧
      s.setDreg .dx v = { s with xh := v.extractLsb' 16 16, xl := v.extractLsb' 0 16 } ∧
      s.setDreg .dy v = { s with yh := v.extractLsb' 16 16, yl := v.extractLsb' 0 16 } ∧
      (s.setDreg .dx v).dreg .dx = v ∧ (s.setDreg .dy v).dreg .dy = v ∧
      (∀ n, Value.decode 0x08 n = some (.dreg .dx) ∧ Value.decode 0x09 n = some (.dreg .dy))

/-- Rules R20, R134, R135, R143. What a 16-bit instruction reads and writes at each place: the register itself, EX, PC,
SP, one word of RAM, the literal, the low half of DX or DY (the high half is left), and of a float register the low 16
bits of its integer part. What it writes to a place that is no literal it reads back there, also through a float
register, which holds every 16-bit integer exactly. The low half and the conversions are the spec's decisions D8 and
D9 (log entry 15). -/
def Obligations.WordReadAfterWrite : Prop :=
  (∀ (p : Place) (w : Word) (sg : Signedness) (s : State), (∀ x, p ≠ .lit x) →
    readW p (writeW p w sg s) = w ∧
      ∀ f, p = .regF f →
        HasValue ((writeW p w sg s).freg f)
          (match sg with | .unsigned => (w.toNat : ℚ) | .signed => (w.toInt : ℚ))) ∧
    (∀ s : State,
      (readW (.reg16 .a) s = s.a ∧ readW (.reg16 .b) s = s.b ∧ readW (.reg16 .c) s = s.c ∧ readW (.reg16 .i) s = s.i ∧
          readW (.reg16 .xh) s = s.xh ∧ readW (.reg16 .xl) s = s.xl ∧ readW (.reg16 .yh) s = s.yh ∧
          readW (.reg16 .yl) s = s.yl ∧ ∀ r, readW (.reg16 r) s = s.reg r) ∧
        (readW .ex s = s.ex ∧ readW .pc s = s.pc ∧ readW .sp s = s.sp) ∧ (∀ w, readW (.lit w) s = w) ∧
        (∀ g x, readW (.mem g x) s = s.readWord g x) ∧
        (readW (.reg32 .dx) s = s.xl ∧ readW (.reg32 .dy) s = s.yl) ∧
        ∀ f q, HasValue (s.freg f) q → readW (.regF f) s = BitVec.ofInt 16 (truncated q)) ∧
    ∀ (w : Word) (sg : Signedness) (s : State),
      let write := fun p : Place => writeW p w sg s
      (write (.reg16 .a) = { s with a := w } ∧ write (.reg16 .b) = { s with b := w } ∧
          write (.reg16 .c) = { s with c := w } ∧ write (.reg16 .i) = { s with i := w } ∧
          write (.reg16 .xh) = { s with xh := w } ∧ write (.reg16 .xl) = { s with xl := w } ∧
          write (.reg16 .yh) = { s with yh := w } ∧ write (.reg16 .yl) = { s with yl := w } ∧
          ∀ r, write (.reg16 r) = s.setReg r w) ∧
        (write .ex = { s with ex := w } ∧ write .pc = { s with pc := w } ∧ write .sp = { s with sp := w }) ∧
        (∀ x, write (.lit x) = s) ∧ (∀ g x, write (.mem g x) = s.writeWord g x w) ∧
        (write (.reg32 .dx) = { s with xl := w } ∧ write (.reg32 .dy) = { s with yl := w }) ∧
        write (.regF .fa) = { s with fa := (write (.regF .fa)).fa } ∧
        write (.regF .fb) = { s with fb := (write (.regF .fb)).fb }

/-- Rules R64, R66, R68. A dword in RAM has its high half at its address and its low half at the next one, which at
0xffff is 0x0000 of the same segment; what a dword write stores is read back; a word write changes one half of the
dword there and of the one before. The wrap is the spec's decision D7. -/
def Obligations.DwordsInRam : Prop :=
  ∀ (s : State) (g : Seg) (x w : Word) (d : Dword),
    let t := s.writeDword g x d
    t.readWord g x = d.extractLsb' 16 16 ∧ t.readWord g (BitVec.ofNat 16 (x.toNat + 1)) = d.extractLsb' 0 16 ∧
      t.readDword g x = d ∧
      (∀ g' x', ¬ (g' = g ∧ (x' = x ∨ x' = x + 1)) → t.readWord g' x' = s.readWord g' x') ∧
      (s.writeWord g x w).readDword g x = w ++ s.readWord g (x + 1) ∧
      (s.writeWord g x w).readDword g (x - 1) = s.readWord g (x - 1) ++ w

/-! ## Frames -/

/-- Rules R25, R135, R170, R181, R182. What the 16-bit writers change: the place of their first parameter as `writeW`
stores to it, EX for those that set it, I for STI and STD, SP by a stack code, and nothing else: no other register,
no control state, no other word of RAM. That a write to DX or DY leaves its high half is the spec's decision D8 (log
entry 15), which opcodes leave EX an inference the spec marks in R25, and that MOD and MDI are among them its decision
D18 (log entry 17). -/
def Obligations.WordWriterFrame : Prop :=
  ∀ (a b : Operand) (i : Instr) (s t : State), exec i s = .next t →
    let r := resolve2 a b s
    (r.state = { s with sp := r.state.sp } ∧
        (a.value ≠ .stack → b.value ≠ .stack → r.state.sp = s.sp)) ∧
      (i = .set a b ∨ i = .and a b ∨ i = .bor a b ∨ i = .xor a b ∨ i = .mod a b ∨ i = .mdi a b →
        OnlyPlaceChanged false false r.first r.state t) ∧
      (i = .add a b ∨ i = .sub a b ∨ i = .mul a b ∨ i = .mli a b ∨ i = .div a b ∨ i = .dvi a b ∨ i = .shr a b ∨
          i = .asr a b ∨ i = .shl a b ∨ i = .adx a b ∨ i = .sbx a b →
        OnlyPlaceChanged false false r.first r.state { t with ex := r.state.ex }) ∧
      (i = .sti a b ∨ i = .std a b → OnlyPlaceChanged false false r.first r.state { t with i := r.state.i })

/-- Rules R70, R137, R139, R141, R220. What the float opcodes, FSET and DSET change: the place of their first parameter
(both halves of a dword register; one word of RAM for the float opcodes, two for FSET and DSET) and nothing else: EX
is not touched. The widths are the spec's decisions D10 to D12. -/
def Obligations.WideWriterFrame : Prop :=
  ∀ (a b : Operand) (i : Instr) (s t : State), exec i s = .next t →
    let r := resolve2 a b s
    (i = .fadd a b ∨ i = .fsub a b ∨ i = .fmul a b ∨ i = .fdiv a b ∨ i = .fmod a b →
        OnlyPlaceChanged true false r.first r.state t) ∧
      (i = .fset a b ∨ i = .dset a b → OnlyPlaceChanged true true r.first r.state t)

/-- Rules R170 to R172, R220, R391. A conditional, its test holding or not, changes nothing but SP, PC and the ghost
counter: SP is what the resolution of its own parameters leaves, so that the instructions it skips do not move it, and
PC moves by the skip. That skipped instructions do nothing is the spec's decision D20. -/
def Obligations.ConditionalsChangeNothing : Prop :=
  ∀ (i : Instr) (s t : State), i.isConditional = true → exec i s = .next t →
    t = { s with pc := t.pc, sp := t.sp, cycles := t.cycles } ∧
      (∀ a b, i.operands = [a, b] → t.sp = (resolve2 a b s).state.sp) ∧ (i.operands = [] → t.sp = s.sp) ∧
      ((∀ o ∈ i.operands, o.value ≠ .stack) → t.sp = s.sp)

/-! ## Basic opcodes -/

/-- Rules R173 to R180. The eight Basic conditionals: each performs the next instruction only if its test of the two
words holds, bits, equality, unsigned or signed order. -/
def Obligations.BasicConditionals : Prop :=
  ∀ (a b : Operand) (s : State),
    let r := resolve2 a b s
    let x := readW r.first r.state
    let y := readW r.second r.state
    (PerformsNextOnlyIf (x &&& y ≠ 0) r.state (exec (.ifb a b) s) ∧
        PerformsNextOnlyIf (x &&& y = 0) r.state (exec (.ifc a b) s) ∧
        PerformsNextOnlyIf (x = y) r.state (exec (.ife a b) s) ∧
        PerformsNextOnlyIf (x ≠ y) r.state (exec (.ifn a b) s) ∧
        PerformsNextOnlyIf (x.toNat > y.toNat) r.state (exec (.ifg a b) s) ∧
        PerformsNextOnlyIf (x.toInt > y.toInt) r.state (exec (.ifa a b) s) ∧
        PerformsNextOnlyIf (x.toNat < y.toNat) r.state (exec (.ifl a b) s) ∧
        PerformsNextOnlyIf (x.toInt < y.toInt) r.state (exec (.ifu a b) s)) ∧
      (a.fitsFourBits = true →
        EncodesTo (.ifb a b) (firstWordTwo 0x8000 a b) ∧ EncodesTo (.ifc a b) (firstWordTwo 0x8400 a b) ∧
          EncodesTo (.ife a b) (firstWordTwo 0x8800 a b) ∧ EncodesTo (.ifn a b) (firstWordTwo 0x8c00 a b) ∧
          EncodesTo (.ifg a b) (firstWordTwo 0x9000 a b) ∧ EncodesTo (.ifa a b) (firstWordTwo 0x9400 a b) ∧
          EncodesTo (.ifl a b) (firstWordTwo 0x9800 a b) ∧ EncodesTo (.ifu a b) (firstWordTwo 0x9c00 a b))

/-- Rules R183, R184. ADD and SUB: the word sum and difference go to the first parameter; EX then takes 1 on a carry
and 0xffff on a borrow, else 0, also where it was the destination. -/
def Obligations.AddAndSub : Prop :=
  ∀ (a b : Operand) (s : State),
    let r := resolve2 a b s
    let x := readW r.first r.state
    let y := readW r.second r.state
    exec (.add a b) s = .next { writeW r.first (x + y) .unsigned r.state with
        ex := if 0x10000 ≤ x.toNat + y.toNat then 1 else 0 } ∧
      exec (.sub a b) s = .next { writeW r.first (x - y) .unsigned r.state with
        ex := if x.toNat < y.toNat then 0xffff else 0 } ∧
      (a.fitsFourBits = true →
        EncodesTo (.add a b) (firstWordTwo 0xac00 a b) ∧ EncodesTo (.sub a b) (firstWordTwo 0xb000 a b))

/-- Rules R185, R186. MUL and MLI: the low word of the product goes to the first parameter, its high word to EX, of the
unsigned and of the signed product. -/
def Obligations.Multiplications : Prop :=
  ∀ (a b : Operand) (s : State),
    let r := resolve2 a b s
    let x := readW r.first r.state
    let y := readW r.second r.state
    let u := x.zeroExtend 32 * y.zeroExtend 32
    let v := x.signExtend 32 * y.signExtend 32
    exec (.mul a b) s =
        .next { writeW r.first (u.extractLsb' 0 16) .unsigned r.state with ex := u.extractLsb' 16 16 } ∧
      exec (.mli a b) s =
        .next { writeW r.first (v.extractLsb' 0 16) .signed r.state with ex := v.extractLsb' 16 16 } ∧
      u.extractLsb' 0 16 = v.extractLsb' 0 16 ∧
      (a.fitsFourBits = true →
        EncodesTo (.mul a b) (firstWordTwo 0xb400 a b) ∧ EncodesTo (.mli a b) (firstWordTwo 0xb800 a b))

/-- Rules R187, R189. DIV and MOD, unsigned: quotient with the first 16 fraction bits in EX, and remainder with EX left;
a zero divisor gives 0, and 0 in EX for DIV. -/
def Obligations.UnsignedDivisions : Prop :=
  ∀ (a b : Operand) (s : State),
    let r := resolve2 a b s
    let x := readW r.first r.state
    let y := readW r.second r.state
    (y ≠ 0 →
        exec (.div a b) s = .next { writeW r.first (x / y) .unsigned r.state with
          ex := ((x ++ 0#16) / y.zeroExtend 32).extractLsb' 0 16 } ∧
        exec (.mod a b) s = .next (writeW r.first (x % y) .unsigned r.state)) ∧
      (y = 0 →
        exec (.div a b) s = .next { writeW r.first 0 .unsigned r.state with ex := 0 } ∧
        exec (.mod a b) s = .next (writeW r.first 0 .unsigned r.state)) ∧
      (a.fitsFourBits = true →
        EncodesTo (.div a b) (firstWordTwo 0xbc00 a b) ∧ EncodesTo (.mod a b) (firstWordTwo 0xc400 a b))

/-- Rules R188, R190. DVI and MDI, signed: the quotient toward zero with EX from the same division of the dividend times
65536, and the remainder with the sign of the dividend; a zero divisor gives 0; -32768 / -1 wraps. DVI's EX is an
inference the spec marks as its own. -/
def Obligations.SignedDivisions : Prop :=
  ∀ (a b : Operand) (s : State),
    let r := resolve2 a b s
    let x := readW r.first r.state
    let y := readW r.second r.state
    (y ≠ 0 →
        exec (.dvi a b) s = .next { writeW r.first (x.sdiv y) .signed r.state with
          ex := ((x ++ 0#16).sdiv (y.signExtend 32)).extractLsb' 0 16 } ∧
        exec (.mdi a b) s = .next (writeW r.first (x.srem y) .signed r.state)) ∧
      (y = 0 →
        exec (.dvi a b) s = .next { writeW r.first 0 .signed r.state with ex := 0 } ∧
        exec (.mdi a b) s = .next (writeW r.first 0 .signed r.state)) ∧
      (a.fitsFourBits = true →
        EncodesTo (.dvi a b) (firstWordTwo 0xc000 a b) ∧ EncodesTo (.mdi a b) (firstWordTwo 0xc800 a b))

/-- Rules R191 to R193. AND, BOR and XOR, bit by bit; EX is left. -/
def Obligations.BitwiseOpcodes : Prop :=
  ∀ (a b : Operand) (s : State),
    let r := resolve2 a b s
    let x := readW r.first r.state
    let y := readW r.second r.state
    exec (.and a b) s = .next (writeW r.first (x &&& y) .unsigned r.state) ∧
      exec (.bor a b) s = .next (writeW r.first (x ||| y) .unsigned r.state) ∧
      exec (.xor a b) s = .next (writeW r.first (x ^^^ y) .unsigned r.state) ∧
      (a.fitsFourBits = true →
        EncodesTo (.and a b) (firstWordTwo 0xcc00 a b) ∧ EncodesTo (.bor a b) (firstWordTwo 0xd000 a b) ∧
          EncodesTo (.xor a b) (firstWordTwo 0xd400 a b))

/-- Rules R194 to R196. SHR, ASR and SHL by the whole unsigned count: EX takes the bits shifted out, as a logical shift
of the 32-bit pattern that has the word in its high half (SHR, ASR) or its low half (SHL). Counts above 16 are the
spec's decision D15. -/
def Obligations.Shifts : Prop :=
  ∀ (a b : Operand) (s : State),
    let r := resolve2 a b s
    let x := readW r.first r.state
    let n := (readW r.second r.state).toNat
    exec (.shr a b) s = .next { writeW r.first (x >>> n) .unsigned r.state with
        ex := ((x ++ 0#16) >>> n).extractLsb' 0 16 } ∧
      exec (.asr a b) s = .next { writeW r.first (x.sshiftRight n) .signed r.state with
        ex := ((x ++ 0#16) >>> n).extractLsb' 0 16 } ∧
      exec (.shl a b) s = .next { writeW r.first (x <<< n) .unsigned r.state with
        ex := ((0#16 ++ x) <<< n).extractLsb' 16 16 } ∧
      (a.fitsFourBits = true →
        EncodesTo (.shr a b) (firstWordTwo 0xd800 a b) ∧ EncodesTo (.asr a b) (firstWordTwo 0xdc00 a b) ∧
          EncodesTo (.shl a b) (firstWordTwo 0xe000 a b))

/-- Rules R197, R198. ADX and SBX: EX from before, unsigned, enters the sum; the low word goes to the first parameter,
the high word of the 32-bit sum to EX. That EX is unsigned is the spec's decision D16. -/
def Obligations.ExtendedAddAndSub : Prop :=
  ∀ (a b : Operand) (s : State),
    let r := resolve2 a b s
    let x := (readW r.first r.state).zeroExtend 32
    let y := (readW r.second r.state).zeroExtend 32
    let t := x + y + s.ex.zeroExtend 32
    let u := x - y + s.ex.zeroExtend 32
    exec (.adx a b) s =
        .next { writeW r.first (t.extractLsb' 0 16) .unsigned r.state with ex := t.extractLsb' 16 16 } ∧
      exec (.sbx a b) s =
        .next { writeW r.first (u.extractLsb' 0 16) .unsigned r.state with ex := u.extractLsb' 16 16 } ∧
      (a.fitsFourBits = true →
        EncodesTo (.adx a b) (firstWordTwo 0xe800 a b) ∧ EncodesTo (.sbx a b) (firstWordTwo 0xec00 a b))

/-- Rules R181, R182. STI and STD: the first parameter takes the second, then I is raised or lowered by one, wrapping;
with I as the destination the step is from the word written, with `[I]` the address is from the old I. -/
def Obligations.StoreAndStepI : Prop :=
  ∀ (a b : Operand) (s : State),
    let r := resolve2 a b s
    let y := readW r.second r.state
    let t := writeW r.first y .unsigned r.state
    exec (.sti a b) s = .next { t with i := if r.first = .reg16 .i then y + 1 else s.i + 1 } ∧
      exec (.std a b) s = .next { t with i := if r.first = .reg16 .i then y - 1 else s.i - 1 } ∧
      (a.value = .ind .i → r.first = .mem s.seg s.i) ∧
      (a.fitsFourBits = true →
        EncodesTo (.sti a b) (firstWordTwo 0xa400 a b) ∧ EncodesTo (.std a b) (firstWordTwo 0xa800 a b))

/-! ## Skips -/

/-- Rule R171. A skip passes over the instruction at PC without performing it, and over one more after each conditional
it passes; each costs a cycle; words that are no instruction stop it. It wraps inside the segment and ends wherever
the loop of the rule ends. What is skipped, and that the thirteen conditionals chain, are the spec's decisions D20
and D21; log entry 9. -/
def Obligations.SkipPassesOverConditionals : Prop :=
  ∀ s : State,
    (∀ i, s.fetch = .ok i → i.isConditional = false →
        s.skip = .next { s with pc := s.pc + BitVec.ofNat 16 i.length, cycles := s.cycles + 1 }) ∧
      (∀ i, s.fetch = .ok i → i.isConditional = true →
        s.skip = State.skip { s with pc := s.pc + BitVec.ofNat 16 i.length, cycles := s.cycles + 1 }) ∧
      (∀ e, s.fetch = .error e → s.skip = .fault (s.faultOf e))

/-- Rule R311. IFEX performs the next instruction only if EX is not 0; it is a conditional for chains, one word, one
cycle. -/
def Obligations.IfexTestsEx : Prop :=
  ∀ s : State, PerformsNextOnlyIf (s.ex ≠ 0) s (exec .ifex s) ∧ EncodesTo .ifex 0x0801 ∧ instrCycles .ifex = 1 ∧
    Instr.isConditional .ifex = true

/-! ## Float opcodes -/

/-- Rules R139, R220, R221, R226, R227. FADD, FSUB, FMUL and FDIV of finite operands write the exact result rounded
once to the nearest binary32 number, ties to even; FMOD of finite operands writes the exact remainder of the division
toward zero; a zero divisor, of either sign and for any dividend, writes +0.0; each completes on every operand. What
is written: the float itself to FA or FB, its integer part at the place's width to any other place (both halves of a
dword register, one word of RAM), nothing to a literal. The arithmetic is IEEE 754's, which the spec takes from
general knowledge (its decisions D13 and D40); the widths are its decision D11. -/
def Obligations.FloatArithmeticIsCorrectlyRounded : Prop :=
  (∀ (a b : Operand) (s : State),
    let r := resolve2 a b s
    let write := fun p => Host.Outcome.next (writeF r.first p { r.state with draws := s.draws + 1 })
    (∀ u v, HasValue (readF r.first r.state) u → HasValue (readF r.second r.state) v →
        (∃ p, exec (.fadd a b) s = write p ∧ IsRounding (u + v) p) ∧
          (∃ p, exec (.fsub a b) s = write p ∧ IsRounding (u - v) p) ∧
          (∃ p, exec (.fmul a b) s = write p ∧ IsRounding (u * v) p) ∧
          (v ≠ 0 → ∃ p, exec (.fdiv a b) s = write p ∧ IsRounding (u / v) p) ∧
          (v ≠ 0 → ∃ p, exec (.fmod a b) s = write p ∧ HasValue p (u - v * truncated (u / v)))) ∧
      (HasValue (readF r.second r.state) 0 → exec (.fdiv a b) s = write 0 ∧ exec (.fmod a b) s = write 0) ∧
      let x := readF r.first r.state
      let y := readF r.second r.state
      let nan := freshNan s.draws
      exec (.fadd a b) s = write (floatAdd nan x y) ∧ exec (.fsub a b) s = write (floatSub nan x y) ∧
        exec (.fmul a b) s = write (floatMul nan x y) ∧ exec (.fdiv a b) s = write (floatDiv nan x y) ∧
        exec (.fmod a b) s = write (floatMod nan x y) ∧
        (a.fitsFourBits = true →
          EncodesTo (.fadd a b) (firstWordTwo 0x4000 a b) ∧ EncodesTo (.fsub a b) (firstWordTwo 0x4400 a b) ∧
            EncodesTo (.fmul a b) (firstWordTwo 0x4800 a b) ∧ EncodesTo (.fdiv a b) (firstWordTwo 0x4c00 a b) ∧
            EncodesTo (.fmod a b) (firstWordTwo 0x5000 a b))) ∧
    (∀ (p : Dword) (s : State),
      writeF (.regF .fa) p s = { s with fa := p } ∧ writeF (.regF .fb) p s = { s with fb := p }) ∧
    ∀ (p : Dword) (q : ℚ) (s : State), HasValue p q →
      let w := BitVec.ofInt 16 (truncated q)
      (∀ x, writeF (.reg16 x) p s = s.setReg x w) ∧
        (∀ d, writeF (.reg32 d) p s = s.setDreg d (BitVec.ofInt 32 (truncated q))) ∧
        (∀ g x, writeF (.mem g x) p s = s.writeWord g x w) ∧ writeF .ex p s = { s with ex := w } ∧
        writeF .pc p s = { s with pc := w } ∧ writeF .sp p s = { s with sp := w } ∧ ∀ x, writeF (.lit x) p s = s

/-- Rules R221, R226, R227. What the float opcodes make of NaNs, infinities and zeros: an operand that is a NaN and an
invalid operation give a NaN, of which nothing but its being one is known (log entry 5); an infinity behaves as IEEE
754 says. A zero result has the sign IEEE 754 gives it: +0.0 for a sum of opposites, the common sign for a sum of two
zeros of one sign, the sign of the product or quotient for a zero product or quotient, also where it underflows or the
divisor is an infinity, and the sign of the dividend for a zero remainder. General knowledge of the spec (its
decisions D13 and D40). -/
def Obligations.FloatSpecialValues : Prop :=
  (∀ draw : Nat, floatValue (freshNan draw) = .nan) ∧
    (∀ nan x y, floatValue x = .nan ∨ floatValue y = .nan →
      floatAdd nan x y = nan ∧ floatSub nan x y = nan ∧ floatMul nan x y = nan ∧
        (¬ HasValue y 0 → floatDiv nan x y = nan ∧ floatMod nan x y = nan)) ∧
    (∀ nan x y p q, floatValue x = .infinite p → floatValue y = .infinite q →
      (p = q → floatAdd nan x y = x ∧ floatSub nan x y = nan) ∧ (p ≠ q → floatAdd nan x y = nan ∧ floatSub nan x y = x) ∧
        floatMul nan x y = infinityOf (p != q) ∧ floatDiv nan x y = nan ∧ floatMod nan x y = nan) ∧
    (∀ nan x y p v, floatValue x = .infinite p → HasValue y v →
      floatAdd nan x y = x ∧ floatSub nan x y = x ∧ floatAdd nan y x = x ∧ floatSub nan y x = infinityOf (!p) ∧
        (v = 0 → floatMul nan x y = nan ∧ floatMul nan y x = nan) ∧
        (v ≠ 0 → floatDiv nan x y = floatMul nan x y ∧ floatMod nan x y = nan ∧
          floatMul nan x y = infinityOf (p != decide (v < 0)) ∧ floatMul nan y x = floatMul nan x y) ∧
        floatDiv nan y x = (y ^^^ x) &&& 0x80000000 ∧ floatMod nan y x = y) ∧
    (∀ nan x v, HasValue x v → floatSub nan x x = 0 ∧ floatAdd nan x (floatNegate x) = 0) ∧
    (∀ nan x, HasValue x 0 → floatAdd nan x x = x ∧ floatSub nan x (floatNegate x) = x) ∧
    ∀ nan x y u v, HasValue x u → HasValue y v →
      (u = 0 ∨ v = 0 → floatMul nan x y = (x ^^^ y) &&& 0x80000000) ∧
        (HasValue (floatMul nan x y) 0 → floatMul nan x y = (x ^^^ y) &&& 0x80000000) ∧
        (v ≠ 0 → u = 0 → floatDiv nan x y = (x ^^^ y) &&& 0x80000000) ∧
        (v ≠ 0 → HasValue (floatDiv nan x y) 0 → floatDiv nan x y = (x ^^^ y) &&& 0x80000000) ∧
        (v ≠ 0 → HasValue (floatMod nan x y) 0 → floatMod nan x y = x &&& 0x80000000)

/-- Rules R222, R228 to R231. The tests of the float conditionals compare numbers: a NaN is unlike everything and in no
order, an infinity is beyond every finite number, zeros of unlike signs are equal. The treatment of NaNs and
infinities is general knowledge of the spec (its decision D13). -/
def Obligations.FloatComparisonsCompareNumbers : Prop :=
  (∀ x y u v, HasValue x u → HasValue y v → (floatEq x y = true ↔ u = v) ∧ (floatLt x y = true ↔ u < v)) ∧
    (∀ x y, floatValue x = .nan → floatEq x y = false ∧ floatEq y x = false ∧ floatLt x y = false ∧
      floatLt y x = false) ∧
    (∀ x y v p, floatValue x = .infinite p → HasValue y v →
      floatEq x y = false ∧ floatEq y x = false ∧ floatLt x y = p ∧ floatLt y x = !p) ∧
    ∀ x y p q, floatValue x = .infinite p → floatValue y = .infinite q →
      (floatEq x y = true ↔ p = q) ∧ (floatLt x y = true ↔ p = true ∧ q = false)

/-- Rules R138, R222, R228 to R231. The four float conditionals: each performs the next instruction only if its
comparison of the two floats holds. +0.0 equals -0.0, and a NaN equals nothing, so that FIFN performs and the others
skip: general knowledge of the spec (its decision D13, log entry 11). The floats compared, as in the float arithmetic:
FA and FB as they are; a register, a word of RAM, EX, PC, SP or a literal as its signed value, exactly; DX and DY as
the signed value of their 32 bits, rounded where it is inexact (its decision D11, log entry 15). -/
def Obligations.FloatConditionals : Prop :=
  (∀ (a b : Operand) (s : State),
      let r := resolve2 a b s
      let x := readF r.first r.state
      let y := readF r.second r.state
      (PerformsNextOnlyIf (floatEq x y = true) r.state (exec (.fife a b) s) ∧
          PerformsNextOnlyIf (floatEq x y = false) r.state (exec (.fifn a b) s) ∧
          PerformsNextOnlyIf (floatLt y x = true) r.state (exec (.fifg a b) s) ∧
          PerformsNextOnlyIf (floatLt x y = true) r.state (exec (.fifl a b) s)) ∧
        instrCycles (.fife a b) = 2 + a.length + b.length ∧
        (a.fitsFourBits = true →
          EncodesTo (.fife a b) (firstWordTwo 0x5800 a b) ∧ EncodesTo (.fifn a b) (firstWordTwo 0x5c00 a b) ∧
            EncodesTo (.fifg a b) (firstWordTwo 0x6000 a b) ∧ EncodesTo (.fifl a b) (firstWordTwo 0x6400 a b))) ∧
    (∀ x y, HasValue x 0 → HasValue y 0 → floatEq x y = true ∧ floatLt x y = false) ∧
    (∀ x y, floatEq x y = true → floatLt x y = false ∧ floatLt y x = false) ∧
    (∀ x y, floatValue x = .nan ∨ floatValue y = .nan → floatEq x y = false ∧ floatLt x y = false) ∧
    ∀ s : State,
      (readF (.regF .fa) s = s.fa ∧ readF (.regF .fb) s = s.fb) ∧ (∀ r, HasValue (readF (.reg16 r) s) ((s.reg r).toInt : ℚ)) ∧
        (∀ g x, HasValue (readF (.mem g x) s) ((s.readWord g x).toInt : ℚ)) ∧
        HasValue (readF .ex s) (s.ex.toInt : ℚ) ∧ HasValue (readF .pc s) (s.pc.toInt : ℚ) ∧
        HasValue (readF .sp s) (s.sp.toInt : ℚ) ∧ (∀ w, HasValue (readF (.lit w) s) (w.toInt : ℚ)) ∧
        ∀ d, IsRounding ((s.dreg d).toInt : ℚ) (readF (.reg32 d) s)

/-- Rules R23, R142, R143. The value of a pattern: sign, exponent field and fraction field of binary32, infinities and
NaNs where the exponent field is all ones, subnormal numbers where it is 0. An integer of magnitude up to 2^24 becomes
the float of the same value, 0 becomes +0.0, any other integer is rounded to nearest, ties to even; a finite float
becomes its integer part, wrapped to the width. The layout and the rounding are general knowledge of the spec (its
decision D13, log entry 11), the wrap its decision D9; a NaN or an infinity gives the open value of log entry 4. -/
def Obligations.IntegersAndFloats : Prop :=
  (∀ (neg : Bool) (e : BitVec 8) (f : BitVec 23),
    let p : Dword := BitVec.ofBool neg ++ e ++ f
    let sign : ℚ := if neg then -1 else 1
    (e = 255 → f = 0 → floatValue p = .infinite neg) ∧ (e = 255 → f ≠ 0 → floatValue p = .nan) ∧
      (e = 0 → HasValue p (sign * f.toNat / 2 ^ 149)) ∧
      (e ≠ 0 → e ≠ 255 → HasValue p (sign * (2 ^ 23 + f.toNat) * 2 ^ e.toNat / 2 ^ 150))) ∧
  (∀ n : Int, IsRounding (n : ℚ) (intToFloat n)) ∧
    (∀ n : Int, |n| ≤ 2 ^ 24 → HasValue (intToFloat n) (n : ℚ)) ∧ intToFloat 0 = 0 ∧
    (∀ (N : Nat) (p : Dword) (q : ℚ), HasValue p q → floatToInt N p = BitVec.ofInt N (truncated q)) ∧
    (∀ n : Int, |n| ≤ 2 ^ 24 → floatToInt 32 (intToFloat n) = BitVec.ofInt 32 n) ∧
    ∀ (N : Nat) (p : Dword), (∀ q, ¬ HasValue p q) → floatToInt N p = Config.nonFiniteToInt N p

/-- Rules R65, R140, R141, R232. FSET between places that hold 32 bits copies the pattern bit for bit, whatever it is:
FA, FB, DX, DY, two words of RAM with the high half first; a 16-bit source becomes the float of its signed value, a
16-bit destination takes the truncated float. The spec's decision D12 (log entry 15). -/
def Obligations.FsetMovesPatterns : Prop :=
  (∀ s : State,
    (readFS (.regF .fa) s = s.fa ∧ readFS (.regF .fb) s = s.fb) ∧
      (readFS (.reg32 .dx) s = s.xh ++ s.xl ∧ readFS (.reg32 .dy) s = s.yh ++ s.yl) ∧
      ∀ g y, readFS (.mem g y) s = s.readWord g y ++ s.readWord g (y + 1)) ∧
  ∀ (a b : Operand) (s : State),
    let r := resolve2 a b s
    let wide := fun p : Place => match p with
      | .reg32 _ => true
      | .regF _ => true
      | .mem _ _ => true
      | _ => false
    (a.fitsFourBits = true → EncodesTo (.fset a b) (firstWordTwo 0x6c00 a b)) ∧
      ∃ t, exec (.fset a b) s = .next t ∧
        (wide r.first = true → wide r.second = true → readFS r.first t = readFS r.second r.state) ∧
        (wide r.first = true → wide r.second = false → HasValue (readFS r.first t) ((readW r.second r.state).toInt : ℚ)) ∧
        (wide r.first = false → (∀ w, r.first ≠ .lit w) →
          readW r.first t = floatToInt 16 (readFS r.second r.state)) ∧
        ∀ g x, r.first = .mem g x →
          t.readWord g x = (readFS r.second r.state).extractLsb' 16 16 ∧
            t.readWord g (x + 1) = (readFS r.second r.state).extractLsb' 0 16

/-! ## Load opcodes -/

/-- Rules R134, R250 to R255. SET moves a word: the low half of DX or DY, the low 16 bits of the integer part of FA or
FB. DSET moves a dword: a 16-bit source changes only the low half of a dword register or the second word of a dword in
RAM; a 16-bit destination takes the low half; RAM is two words, high half first; FA or FB gives the low 32 bits of its
integer part, and takes the dword, unsigned, as a float. DX and DY under SET are the spec's decision D8, floats its
decisions D9 and D10. -/
def Obligations.Loads : Prop :=
  ∀ (b c : Operand) (s : State),
    let r := resolve2 b c s
    let v := (readD r.second r.state).value
    (EncodesTo (.set b c) (firstWordTwo 0x2000 b c) ∧ EncodesTo (.dset b c) (firstWordTwo 0x3000 b c)) ∧
      exec (.set b c) s = .next (writeW r.first (readW r.second r.state) .unsigned r.state) ∧
      ∃ t, exec (.dset b c) s = .next t ∧
        (∀ g x, r.second = .mem g x → v = r.state.readWord g x ++ r.state.readWord g (x + 1)) ∧
        (∀ d, r.second = .reg32 d → v = s.dreg d ∧ readW r.second r.state = v.extractLsb' 0 16) ∧
        (∀ f q, r.second = .regF f → HasValue (s.freg f) q →
          v = BitVec.ofInt 32 (truncated q) ∧ readW r.second r.state = BitVec.ofInt 16 (truncated q)) ∧
        (∀ x, r.first = .reg16 x → t = r.state.setReg x (v.extractLsb' 0 16)) ∧
        (r.first = .ex → t = { r.state with ex := v.extractLsb' 0 16 }) ∧
        (r.first = .pc → t = { r.state with pc := v.extractLsb' 0 16 }) ∧
        (r.first = .sp → t = { r.state with sp := v.extractLsb' 0 16 }) ∧
        ((∃ x, r.second = .reg16 x) ∨ r.second = .ex ∨ r.second = .pc ∨ r.second = .sp ∨ (∃ w, r.second = .lit w) →
          v = (readW r.second r.state).zeroExtend 32 ∧
            (∀ d, r.first = .reg32 d → t = r.state.setReg (lowHalf d) (v.extractLsb' 0 16)) ∧
            ∀ g x, r.first = .mem g x → t = r.state.writeWord g (x + 1) (v.extractLsb' 0 16)) ∧
        ((∃ d, r.second = .reg32 d) ∨ (∃ f, r.second = .regF f) ∨ (∃ g x, r.second = .mem g x) →
          (∀ d, r.first = .reg32 d → t.dreg d = v) ∧
            ∀ g x, r.first = .mem g x →
              t.readWord g x = v.extractLsb' 16 16 ∧ t.readWord g (x + 1) = v.extractLsb' 0 16) ∧
        ∀ f, r.first = .regF f → IsRounding (v.toNat : ℚ) (t.freg f)

/-! ## Special opcodes -/

/-- Rules R270 to R272. JSR pushes the address of the next instruction, CALL that and then A, B, C, XH, XL, YH, YL and
I; both then jump to the parameter; the registers keep their values, nothing else changes. That the parameter is read
before the pushes is the spec's decision D22 (log entry 14). -/
def Obligations.CallsPush : Prop :=
  ∀ (c : Operand) (s : State),
    let r := resolve false c s
    let v := readW r.place r.state
    let frame := [s.pc, s.a, s.b, s.c, s.xh, s.xl, s.yh, s.yl, s.i]
    (EncodesTo (.jsr c) (firstWordOne 0x1000 c) ∧ instrCycles (.jsr c) = 3 + c.length ∧
        EncodesTo (.call c) (firstWordOne 0x1040 c) ∧ instrCycles (.call c) = 7 + c.length) ∧
      (∃ t, exec (.jsr c) s = .next t ∧ t.pc = v ∧ t.sp = r.state.sp - 1 ∧ t.readWord s.seg (r.state.sp - 1) = s.pc ∧
        SameData s t ∧ SameControl s t ∧
        ∀ g x, ¬ (g = s.seg ∧ x = r.state.sp - 1) → t.readWord g x = s.readWord g x) ∧
      ∃ t, exec (.call c) s = .next t ∧ t.pc = v ∧ t.sp = r.state.sp - 9 ∧ SameData s t ∧ SameControl s t ∧
        (∀ k, ∀ h : k < frame.length, t.readWord s.seg (r.state.sp - 1 - BitVec.ofNat 16 k) = frame[k]) ∧
        ∀ g x, ¬ (g = s.seg ∧ ∃ k < 9, x = r.state.sp - 1 - BitVec.ofNat 16 k) → t.readWord g x = s.readWord g x

/-- Rules R273 to R276. MOVH, MOVL and MOVT: the segment becomes the high one, the low one or the other one; then the
address of the next instruction and the number of the segment started in are pushed there, and PC takes the
parameter; nothing else changes. That both words are pushed in the target segment is the spec's decision D39 (log
entry 16), that the parameter is read before the move its decision D22 (log entry 14). -/
def Obligations.SegmentCalls : Prop :=
  ∀ (c : Operand) (s : State),
    let r := resolve false c s
    let moves := fun (i : Instr) (base : Word) (target : Seg) =>
      EncodesTo i (firstWordOne base c) ∧ instrCycles i = 4 + c.length ∧
        ∃ t, exec i s = .next t ∧ t.seg = target ∧ t.pc = readW r.place r.state ∧ t.sp = r.state.sp - 2 ∧
          t.readWord target (r.state.sp - 1) = s.pc ∧
          t.readWord target (r.state.sp - 2) = (match s.seg with | .low => 0x0000 | .high => 0x0001) ∧
          SameData s t ∧ SameControl s { t with seg := s.seg } ∧
          ∀ g x, ¬ (g = target ∧ (x = r.state.sp - 1 ∨ x = r.state.sp - 2)) → t.readWord g x = s.readWord g x
    moves (.movh c) 0x1100 .high ∧ moves (.movl c) 0x1140 .low ∧
      moves (.movt c) 0x1180 (match s.seg with | .low => .high | .high => .low)

/-- Rules R277 to R280, R292. PCS, under its name MOV too, SPS and IAS set PC, SP and IA to their parameter and change
nothing else; IAG and HWN write IA and the number of devices to theirs and change nothing else. That code 0x0c is PUSH
in IAG and HWN is the spec's decision D5 (log entry 14). -/
def Obligations.PointerAndCountMoves : Prop :=
  ∀ (c : Operand) (s : State),
    let r := resolve false c s
    let v := readW r.place r.state
    let w := resolve true c s
    (EncodesTo (.pcs c) (firstWordOne 0x12c0 c) ∧ EncodesTo (.mov c) (firstWordOne 0x12c0 c) ∧
        EncodesTo (.sps c) (firstWordOne 0x1300 c) ∧ EncodesTo (.ias c) (firstWordOne 0x13c0 c) ∧
        EncodesTo (.iag c) (firstWordOne 0x1400 c) ∧ EncodesTo (.hwn c) (firstWordOne 0x1580 c)) ∧
      (instrCycles (.pcs c) = 1 + c.length ∧ instrCycles (.sps c) = 1 + c.length ∧
        instrCycles (.ias c) = 1 + c.length ∧ instrCycles (.iag c) = 1 + c.length ∧
        instrCycles (.hwn c) = 2 + c.length) ∧
      exec (.pcs c) s = .next { r.state with pc := v } ∧ exec (.mov c) s = .next { r.state with pc := v } ∧
      exec (.sps c) s = .next { r.state with sp := v } ∧ exec (.ias c) s = .next { r.state with ia := v } ∧
      exec (.iag c) s = .next (writeW w.place s.ia .unsigned w.state) ∧
      exec (.hwn c) s = .next (writeW w.place Config.deviceCount .unsigned w.state)

/-- Rules R293, R296, R353. HWQ puts the id, the manufacturer and the version of the device into DX, DY and C, zeros for
a number from N_HW up (the spec's decision D26). HWI always completes: it does nothing for such a number; a device may
change registers and RAM, but neither the segment, the queueing flag nor the inputs; to the queue it only appends, and
the status it changes only by overflowing the queue (its decision D29). -/
def Obligations.DeviceOpcodes : Prop :=
  ∀ (c : Operand) (s : State),
    let r := resolve false c s
    let v := readW r.place r.state
    let here := v.toNat < Config.deviceCount.toNat
    (EncodesTo (.hwq c) (firstWordOne 0x15c0 c) ∧ EncodesTo (.hwi c) (firstWordOne 0x1600 c)) ∧
      (∃ t, exec (.hwq c) s = .next t ∧ t.dreg .dx = (if here then Config.deviceId v else 0) ∧
        t.dreg .dy = (if here then Config.deviceManufacturer v else 0) ∧
        t.c = (if here then Config.deviceVersion v else 0) ∧
        t = { r.state with xh := t.xh, xl := t.xl, yh := t.yh, yl := t.yl, c := t.c }) ∧
      ∃ t, exec (.hwi c) s = .next t ∧ (¬ here → t = r.state) ∧ t.seg = s.seg ∧ t.iaqOn = s.iaqOn ∧
        t.arrivals = s.arrivals ∧ (∃ sent, t.queue = s.queue ++ sent) ∧
        (t.status = s.status ∨ t.status = .onFire .queueOverflow)

/-! ## Binary opcodes -/

/-- Rules R313, R314, R316, R317. HSG and LSG move to a segment and do nothing else; PUSHA pushes A, B, C, XH, XL, YH,
YL, I and keeps the registers; POPA pops I, YL, YH, XL, XH, C, B, A and keeps RAM. -/
def Obligations.SegmentMovesAndRegisterStacks : Prop :=
  ∀ s : State,
    let frame := [s.a, s.b, s.c, s.xh, s.xl, s.yh, s.yl, s.i]
    let w := fun k : Nat => s.readWord s.seg (s.sp + BitVec.ofNat 16 k)
    (EncodesTo .hsg 0x0805 ∧ EncodesTo .lsg 0x0806 ∧ EncodesTo .pusha 0x080b ∧ EncodesTo .popa 0x080c) ∧
      (instrCycles .hsg = 1 ∧ instrCycles .lsg = 1 ∧ instrCycles .pusha = 4 ∧ instrCycles .popa = 4) ∧
      exec .hsg s = .next { s with seg := .high } ∧ exec .lsg s = .next { s with seg := .low } ∧
      (∃ t, exec .pusha s = .next t ∧ t.sp = s.sp - 8 ∧ t.pc = s.pc ∧ SameData s t ∧ SameControl s t ∧
        (∀ k, ∀ h : k < frame.length, t.readWord s.seg (s.sp - 1 - BitVec.ofNat 16 k) = frame[k]) ∧
        ∀ g x, ¬ (g = s.seg ∧ ∃ k < 8, x = s.sp - 1 - BitVec.ofNat 16 k) → t.readWord g x = s.readWord g x) ∧
      exec .popa s = .next { s with
        i := w 0, yl := w 1, yh := w 2, xl := w 3, xh := w 4, c := w 5, b := w 6, a := w 7, sp := s.sp + 8 }

/-- Rules R312, R315. POPSG pops the flag, then PC, both in the segment it starts in, and moves to the low segment for 0,
else to the high one (the order of the pops is the spec's decision D23). HNG sets PC back to its own address, so that
with nothing arriving and nothing queued the step repeats itself for ever (the spec's decision D38). -/
def Obligations.PopsgAndHng : Prop :=
  ∀ s : State,
    (EncodesTo .popsg 0x0804 ∧ EncodesTo .hng 0x0808) ∧
      exec .popsg s = .next { s with
        pc := s.readWord s.seg (s.sp + 1), sp := s.sp + 2,
        seg := if s.readWord s.seg s.sp = 0 then .low else .high } ∧
      exec .hng s = .next { s with pc := s.pc - 1 } ∧
      (s.status = .running → s.arrivals = [] → s.queue = [] → s.readWord s.seg s.pc = 0x0808 →
        step s = .next { s with cycles := s.cycles + 1 })

/-- Rules R276, R298, R312, R316, R317, R394. The returns undo the calls, for a routine that ends in the segment it
was called in, with SP and the pushed words (two of the MOVs, nine of CALL) as it found them: POPSG returns from MOVH,
MOVL and MOVT to the caller's segment, address and SP; POPA takes back what PUSHA pushed; POPA and then `SET PC, POP`
return from CALL with the caller's eight registers. Rests on the spec's decisions D23 and D39 and its own inference of
the pairs. -/
def Obligations.ReturnsUndoCalls : Prop :=
  (∀ (c : Operand) (i : Instr) (s t u : State), i = .movh c ∨ i = .movl c ∨ i = .movt c → exec i s = .next t →
      u.seg = t.seg → u.sp = t.sp → (∀ x, x = t.sp ∨ x = t.sp + 1 → u.readWord t.seg x = t.readWord t.seg x) →
        exec .popsg u = .next { u with seg := s.seg, pc := s.pc, sp := (resolve false c s).state.sp }) ∧
    (∀ s : State, ∃ t, exec .pusha s = .next t ∧ exec .popa t = .next { t with sp := s.sp }) ∧
    ∀ (c : Operand) (s t u : State), exec (.call c) s = .next t → u.seg = t.seg → u.sp = t.sp →
      (∀ k < 9, u.readWord t.seg (t.sp + BitVec.ofNat 16 k) = t.readWord t.seg (t.sp + BitVec.ofNat 16 k)) →
        ∃ v, exec .popa u = .next v ∧ (∀ r, v.reg r = s.reg r) ∧
          exec (.set ⟨false, .pc⟩ ⟨false, .stack⟩) v =
            .next { v with pc := s.pc, sp := (resolve false c s).state.sp }

end
end

