-- ==== Sys2Proof/Laws/Float.lean ====
section
/-! SUPPORT. The laws of binary32 patterns: the value of a packed pattern, which values are finite, and that
`roundUnits` rounds once to the nearest, ties to even. -/

namespace Sys2Proof.Machine

/-! ### Patterns -/

/-- A packed pattern as a number. -/
theorem packFloat_toNat (neg : Bool) {e f : Nat} (he : e < 256) (hf : f < 2 ^ 23) :
    (packFloat neg e f).toNat = neg.toNat * 2 ^ 31 + e * 2 ^ 23 + f := by
  have h1 : ((BitVec.ofBool neg ++ BitVec.ofNat 8 e : BitVec 9)).toNat = neg.toNat * 2 ^ 8 + e := by
    rw [BitVec.toNat_append, ← Nat.shiftLeft_add_eq_or_of_lt (BitVec.isLt _)]
    cases neg <;> simp [Nat.shiftLeft_eq, Nat.mod_eq_of_lt he]
  unfold packFloat
  rw [BitVec.toNat_append, ← Nat.shiftLeft_add_eq_or_of_lt (BitVec.isLt _), h1]
  simp only [Nat.shiftLeft_eq, BitVec.toNat_ofNat, Nat.mod_eq_of_lt hf]
  ring

/-- The value of a pattern, from its number. -/
theorem floatValue_eq (p : Dword) :
    floatValue p =
      if p.toNat / 2 ^ 23 % 256 = 255 then
        (if p.toNat % 2 ^ 23 = 0 then .infinite (decide (2 ^ 31 ≤ p.toNat)) else .nan)
      else if p.toNat / 2 ^ 23 % 256 = 0 then .finite (decide (2 ^ 31 ≤ p.toNat)) (p.toNat % 2 ^ 23)
      else .finite (decide (2 ^ 31 ≤ p.toNat)) ((2 ^ 23 + p.toNat % 2 ^ 23) <<< (p.toNat / 2 ^ 23 % 256 - 1)) := by
  have hs : p.getLsbD 31 = decide (2 ^ 31 ≤ p.toNat) := by
    have := BitVec.msb_eq_decide p
    simpa [BitVec.msb_eq_getLsbD_last] using this
  have he : (p.extractLsb' 23 8).toNat = p.toNat / 2 ^ 23 % 256 := by
    simp [BitVec.extractLsb'_toNat, Nat.shiftRight_eq_div_pow]
  have hf : (p.extractLsb' 0 23).toNat = p.toNat % 2 ^ 23 := by simp [BitVec.extractLsb'_toNat]
  unfold floatValue
  rw [hs, he, hf]

/-- The value of a packed pattern (rule R23). -/
theorem floatValue_packFloat (neg : Bool) {e f : Nat} (he : e < 256) (hf : f < 2 ^ 23) :
    floatValue (packFloat neg e f) =
      if e = 255 then (if f = 0 then .infinite neg else .nan)
      else if e = 0 then .finite neg f
      else .finite neg ((2 ^ 23 + f) <<< (e - 1)) := by
  have hn := packFloat_toNat neg he hf
  have h1 : (packFloat neg e f).toNat / 2 ^ 23 % 256 = e := by rw [hn]; cases neg <;> simp <;> omega
  have h2 : (packFloat neg e f).toNat % 2 ^ 23 = f := by rw [hn]; cases neg <;> simp <;> omega
  have h3 : decide (2 ^ 31 ≤ (packFloat neg e f).toNat) = neg := by rw [hn]; cases neg <;> simp <;> omega
  rw [floatValue_eq, h1, h2, h3]

/-- The last bit of a packed pattern is the parity of its fraction. -/
theorem packFloat_lsb (neg : Bool) {e f : Nat} (he : e < 256) (hf : f < 2 ^ 23) :
    (packFloat neg e f).getLsbD 0 = decide (f % 2 = 1) := by
  rw [← BitVec.testBit_toNat, Nat.testBit_zero, packFloat_toNat neg he hf]
  congr 1
  simp only [eq_iff_iff]
  cases neg <;> simp <;> omega

/-- The magnitudes of the finite numbers: 24 bits times a power of two. -/
theorem finite_form {p : Dword} {neg : Bool} {n : Nat} (h : floatValue p = .finite neg n) :
    ∃ m j, n = m * 2 ^ j ∧ m < 2 ^ 24 ∧ (j = 0 ∨ 2 ^ 23 ≤ m) ∧ j ≤ 253 := by
  rw [floatValue_eq] at h
  split at h
  · split at h <;> cases h
  · rename_i h255
    have hf : p.toNat % 2 ^ 23 < 2 ^ 23 := Nat.mod_lt _ (by norm_num)
    have he : p.toNat / 2 ^ 23 % 256 < 256 := Nat.mod_lt _ (by norm_num)
    split at h
    · cases h
      exact ⟨p.toNat % 2 ^ 23, 0, by simp, by omega, .inl rfl, by omega⟩
    · cases h
      exact ⟨2 ^ 23 + p.toNat % 2 ^ 23, p.toNat / 2 ^ 23 % 256 - 1, by rw [Nat.shiftLeft_eq], by omega, .inr (by omega),
        by omega⟩

/-! ### Rounding -/

/-- What `nearestEven` answers: within half, and even at a tie (`RM`, rule R6). -/
theorem nearestEven_spec (num : Nat) {den : Nat} (hd : 0 < den) :
    |(num : ℚ) / den - nearestEven num den| ≤ 1 / 2 ∧
      (|(num : ℚ) / den - nearestEven num den| = 1 / 2 → nearestEven num den % 2 = 0) := by
  have hq : (0 : ℚ) < den := by exact_mod_cast hd
  have hm : (num : ℚ) = den * (num / den : ℕ) + (num % den : ℕ) := by exact_mod_cast (Nat.div_add_mod num den).symm
  have hr : ((num % den : ℕ) : ℚ) < den := by exact_mod_cast Nat.mod_lt _ hd
  have h0 : (0 : ℚ) ≤ (num % den : ℕ) := Nat.cast_nonneg _
  have hx : (num : ℚ) / den = (num / den : ℕ) + ((num % den : ℕ) : ℚ) / den := by
    rw [hm]
    generalize num / den = a
    generalize num % den = b
    field_simp
  rw [hx]
  unfold nearestEven
  dsimp only
  generalize num / den = a at *
  generalize num % den = b at *
  have hb0 : (0 : ℚ) ≤ b / den := by positivity
  split
  · rename_i h
    have h' : (b : ℚ) / den < 1 / 2 := by
      rw [div_lt_div_iff₀ hq (by norm_num)]
      exact_mod_cast (by omega : b * 2 < 1 * den)
    rw [add_sub_cancel_left, abs_of_nonneg hb0]
    exact ⟨h'.le, fun e => absurd e h'.ne⟩
  · split
    · rename_i h
      have h' : (1 : ℚ) / 2 < b / den := by
        rw [div_lt_div_iff₀ (by norm_num) hq]
        exact_mod_cast (by omega : 1 * den < b * 2)
      have h1 : (b : ℚ) / den < 1 := (div_lt_one hq).2 hr
      have e : (a : ℚ) + b / den - (a + 1 : ℕ) = -(1 - b / den) := by push_cast; ring
      rw [e, abs_neg, abs_of_pos (by linarith)]
      exact ⟨by linarith, fun e => absurd e (by linarith)⟩
    · have hh : 2 * b = den := by omega
      have h' : (b : ℚ) / den = 1 / 2 := by
        rw [div_eq_div_iff hq.ne' (by norm_num)]
        exact_mod_cast (by omega : b * 2 = 1 * den)
      rw [h']
      have ha : a % 2 = 0 ∨ a % 2 = 1 := by omega
      rcases ha with ha | ha <;> rw [ha] <;> push_cast
      · refine ⟨by norm_num, fun _ => by omega⟩
      · refine ⟨?_, fun _ => by omega⟩
        rw [show (a : ℚ) + 1 / 2 - (a + 1) = -(1 / 2) by ring, abs_neg]
        norm_num

/-- Of the whole multiples of a spacing, one that is within half a spacing is nearest, and a tie is even. -/
theorem nearest_on_grid {y : ℚ} {q : ℕ} (h : |y - q| ≤ 1 / 2) (he : |y - q| = 1 / 2 → q % 2 = 0) (c : ℤ) :
    |y - q| ≤ |y - c| ∧ (|y - q| = |y - c| → c = q ∨ q % 2 = 0) := by
  by_cases hc : c = q
  · subst hc
    exact ⟨by simp, fun _ => .inl rfl⟩
  · have h1 : (1 : ℚ) ≤ |(c : ℚ) - q| := by
      have : (1 : ℤ) ≤ |c - q| := Int.one_le_abs (sub_ne_zero.2 hc)
      exact_mod_cast this
    have h2 : |(c : ℚ) - q| ≤ |y - q| + |y - c| := by
      have := abs_sub (y - q) (y - c)
      rwa [show y - q - (y - c) = (c : ℚ) - q by ring] at this
    exact ⟨by linarith, fun e => .inr (he (by linarith))⟩

/-- The nearest of the finite magnitudes: for `x` of the binade of spacing `2^k` (or below it when `k` is 0), the
nearest multiple `q * 2^k` is as near as every other. -/
theorem nearest_magnitude {x : ℚ} {q k : ℕ} (hx : k = 0 ∨ (2 : ℚ) ^ (23 + k) ≤ x) (h : |x / 2 ^ k - q| ≤ 1 / 2)
    (he : |x / 2 ^ k - q| = 1 / 2 → q % 2 = 0) {m j : ℕ} (hm : m < 2 ^ 24) :
    |x - (q * 2 ^ k : ℕ)| ≤ |x - (m * 2 ^ j : ℕ)| ∧
      (|x - (q * 2 ^ k : ℕ)| = |x - (m * 2 ^ j : ℕ)| → m * 2 ^ j = q * 2 ^ k ∨ q % 2 = 0) := by
  have hk : (0 : ℚ) < 2 ^ k := by positivity
  have scale : ∀ c : ℤ, |x - c * 2 ^ k| = 2 ^ k * |x / 2 ^ k - c| := by
    intro c
    rw [← abs_of_pos hk, ← abs_mul, abs_of_pos hk, mul_sub, mul_div_cancel₀ _ hk.ne', mul_comm (c : ℚ)]
  have grid : ∀ c : ℕ, |x - (q * 2 ^ k : ℕ)| ≤ |x - (c * 2 ^ k : ℕ)| ∧
      (|x - (q * 2 ^ k : ℕ)| = |x - (c * 2 ^ k : ℕ)| → c = q ∨ q % 2 = 0) := by
    intro c
    obtain ⟨g1, g2⟩ := nearest_on_grid h he c
    have e1 := scale q
    have e2 := scale c
    push_cast at e1 e2 g1 g2 ⊢
    rw [e1, e2]
    refine ⟨mul_le_mul_of_nonneg_left g1 hk.le, fun e => ?_⟩
    rcases g2 (mul_left_cancel₀ hk.ne' e) with g | g
    · exact .inl (by exact_mod_cast g)
    · exact .inr g
  by_cases hj : k ≤ j
  · have e : m * 2 ^ j = m * 2 ^ (j - k) * 2 ^ k := by rw [mul_assoc, ← pow_add, Nat.sub_add_cancel hj]
    rw [e]
    refine ⟨(grid _).1, fun hh => ?_⟩
    rcases (grid _).2 hh with g | g
    · exact .inl (by rw [g])
    · exact .inr g
  · have hk0 : k ≠ 0 := by omega
    have hb : (2 : ℚ) ^ (23 + k) ≤ x := hx.resolve_left hk0
    have hlt : m * 2 ^ j < 2 ^ 23 * 2 ^ k := by
      calc m * 2 ^ j < 2 ^ 24 * 2 ^ j := Nat.mul_lt_mul_of_pos_right hm (by positivity)
        _ = 2 ^ 23 * 2 ^ (j + 1) := by ring
        _ ≤ 2 ^ 23 * 2 ^ k := Nat.mul_le_mul_left _ (Nat.pow_le_pow_right (by norm_num) (by omega))
    have hltq : ((m * 2 ^ j : ℕ) : ℚ) < (2 ^ 23 * 2 ^ k : ℕ) := by exact_mod_cast hlt
    have hbq : ((2 ^ 23 * 2 ^ k : ℕ) : ℚ) ≤ x := by
      rw [pow_add] at hb
      exact_mod_cast hb
    have g := (grid (2 ^ 23)).1
    rw [abs_of_nonneg (by linarith : (0 : ℚ) ≤ x - (2 ^ 23 * 2 ^ k : ℕ))] at g
    rw [abs_of_nonneg (by linarith : (0 : ℚ) ≤ x - (m * 2 ^ j : ℕ))]
    exact ⟨by linarith, fun e => absurd e (by linarith)⟩

/-- What `packUnits` makes of a rounded magnitude: the finite number, with the parity of `q` as its last bit, or an
infinity when no exponent field holds it (rule R221). -/
theorem packUnits_spec (neg : Bool) {q k : ℕ} (hq : q ≤ 2 ^ 24) (hk : k = 0 ∨ 2 ^ 23 ≤ q) :
    (q * 2 ^ k < 2 ^ 277 → floatValue (packUnits neg q k) = .finite neg (q * 2 ^ k) ∧
        (q % 2 = 0 → (packUnits neg q k).getLsbD 0 = false)) ∧
      (2 ^ 277 ≤ q * 2 ^ k → packUnits neg q k = infinityOf neg) := by
  unfold packUnits
  split
  · rename_i h
    have hk0 : k = 0 := hk.resolve_right (not_le.2 h)
    subst hk0
    refine ⟨fun _ => ⟨?_, fun he => ?_⟩, fun hb => ?_⟩
    · rw [floatValue_packFloat neg (by norm_num) h]
      simp
    · rw [packFloat_lsb neg (by norm_num) h]
      simp [he]
    · rw [pow_zero, mul_one] at hb
      exact absurd hb (not_le.2 (lt_of_lt_of_le h (pow_le_pow_right₀ (by norm_num) (by norm_num))))
  · rename_i h1
    split
    · rename_i h2
      have hiff : k + 1 < 255 ↔ q * 2 ^ k < 2 ^ 277 := by
        constructor
        · intro h
          calc q * 2 ^ k < 2 ^ 24 * 2 ^ k := Nat.mul_lt_mul_of_pos_right h2 (by positivity)
            _ = 2 ^ (24 + k) := (pow_add _ _ _).symm
            _ ≤ 2 ^ 277 := Nat.pow_le_pow_right (by norm_num) (by omega)
        · intro h
          by_contra hc
          have : 2 ^ 277 ≤ q * 2 ^ k := by
            calc 2 ^ 277 ≤ 2 ^ (23 + k) := Nat.pow_le_pow_right (by norm_num) (by omega)
              _ = 2 ^ 23 * 2 ^ k := pow_add _ _ _
              _ ≤ q * 2 ^ k := Nat.mul_le_mul_right _ (by omega)
          exact absurd h (not_lt.2 this)
      refine ⟨fun hb => ?_, fun hb => by rw [if_neg (mt hiff.1 (not_lt.2 hb))]⟩
      rw [if_pos (hiff.2 hb)]
      have hk2 := hiff.2 hb
      have hf : q - 2 ^ 23 < 2 ^ 23 := by omega
      refine ⟨?_, fun he => ?_⟩
      · rw [floatValue_packFloat neg (by omega) hf, if_neg (by omega), if_neg (by omega), Nat.shiftLeft_eq,
          Nat.add_sub_cancel' (not_lt.1 h1), Nat.add_sub_cancel]
      · rw [packFloat_lsb neg (by omega) hf]
        simp
        omega
    · rename_i h2
      have hq24 : q = 2 ^ 24 := by omega
      subst hq24
      have hiff : k + 2 < 255 ↔ 2 ^ 24 * 2 ^ k < 2 ^ 277 := by
        rw [← pow_add, Nat.pow_lt_pow_iff_right (by norm_num)]
        constructor <;> intro h <;> omega
      refine ⟨fun hb => ?_, fun hb => by rw [if_neg (mt hiff.1 (not_lt.2 hb))]⟩
      rw [if_pos (hiff.2 hb)]
      have hk2 := hiff.2 hb
      refine ⟨?_, fun he => ?_⟩
      · rw [floatValue_packFloat neg (by omega) (by norm_num), if_neg (by omega), if_neg (by omega), Nat.shiftLeft_eq]
        congr 1
        rw [show k + 2 - 1 = k + 1 by omega, pow_succ]
        ring
      · rw [packFloat_lsb neg (by omega) (by norm_num)]
        rfl

/-- The spacing that `roundUnits` takes: 24 bits of the value before the point, and at least one unit. -/
theorem spacing_spec (num : ℕ) {den : ℕ} (hd : 0 < den) :
    let k := (num / den).log2 - 23
    (k = 0 ∨ (2 : ℚ) ^ (23 + k) ≤ (num : ℚ) / den) ∧ (num : ℚ) / den < 2 ^ (24 + k) := by
  intro k
  have hq : (0 : ℚ) < den := by exact_mod_cast hd
  have lower : ∀ c : ℕ, c ≤ num / den → (c : ℚ) ≤ (num : ℚ) / den := by
    intro c hc
    rw [le_div_iff₀ hq]
    exact_mod_cast (Nat.le_div_iff_mul_le hd).1 hc
  have upper : ∀ c : ℕ, num / den < c → (num : ℚ) / den < c := by
    intro c hc
    rw [div_lt_iff₀ hq]
    exact_mod_cast (Nat.div_lt_iff_lt_mul hd).1 hc
  have hlt : num / den < 2 ^ ((num / den).log2 + 1) := Nat.lt_log2_self
  constructor
  · by_cases hk : k = 0
    · exact .inl hk
    · right
      have hne : num / den ≠ 0 := by
        intro h0
        apply hk
        simp [k, h0]
      have := lower (2 ^ (num / den).log2) (Nat.log2_self_le hne)
      rw [show 23 + k = (num / den).log2 by omega]
      exact_mod_cast this
  · have := upper (2 ^ (24 + k)) (lt_of_lt_of_le hlt (Nat.pow_le_pow_right (by norm_num) (by omega)))
    exact_mod_cast this

/-- The magnitude reaches 2^277 units, past every finite number, exactly from half a unit above the largest finite
number on. -/
theorem rounds_up_to_infinity {x : ℚ} {q k : ℕ} (hx : k = 0 ∨ (2 : ℚ) ^ (23 + k) ≤ x) (hx' : x < 2 ^ (24 + k))
    (hq : q ≤ 2 ^ 24) (h : |x / 2 ^ k - q| ≤ 1 / 2) (he : |x / 2 ^ k - q| = 1 / 2 → q % 2 = 0) :
    2 ^ 277 ≤ q * 2 ^ k ↔ (2 ^ 25 - 1) * (2 : ℚ) ^ 252 ≤ x := by
  have hk : (0 : ℚ) < 2 ^ k := by positivity
  have hP : (0 : ℚ) < 2 ^ 252 := by positivity
  have hT1 : (2 : ℚ) ^ 276 < (2 ^ 25 - 1) * 2 ^ 252 := by
    rw [show (2 : ℚ) ^ 276 = 2 ^ 24 * 2 ^ 252 by rw [← pow_add]]
    exact mul_lt_mul_of_pos_right (by norm_num) hP
  have hT2 : (2 ^ 25 - 1) * (2 : ℚ) ^ 252 < 2 ^ 277 := by
    rw [show (2 : ℚ) ^ 277 = 2 ^ 25 * 2 ^ 252 by rw [← pow_add]]
    exact mul_lt_mul_of_pos_right (by norm_num) hP
  rcases Nat.lt_trichotomy k 253 with hlt | rfl | hgt
  · have a : (2 : ℚ) ^ (24 + k) ≤ 2 ^ 276 := pow_le_pow_right₀ (by norm_num) (by omega)
    have b : q * 2 ^ k ≤ 2 ^ 276 := by
      calc q * 2 ^ k ≤ 2 ^ 24 * 2 ^ k := Nat.mul_le_mul_right _ hq
        _ = 2 ^ (24 + k) := (pow_add _ _ _).symm
        _ ≤ 2 ^ 276 := pow_le_pow_right₀ (by norm_num) (by omega)
    have c : (2 : ℕ) ^ 276 < 2 ^ 277 := pow_lt_pow_right₀ (by norm_num) (by norm_num)
    exact ⟨fun h => absurd h (not_le.2 (lt_of_le_of_lt b c)), fun h => absurd h (not_le.2 (lt_trans (lt_of_lt_of_le hx' a) hT1))⟩
  · have e : (2 : ℕ) ^ 277 = 2 ^ 24 * 2 ^ 253 := by rw [← pow_add]
    have e' : (2 ^ 25 - 1) * (2 : ℚ) ^ 252 = (2 ^ 24 - 1 / 2) * 2 ^ 253 := by norm_num
    rw [e, e', ← le_div_iff₀ hk, Nat.mul_le_mul_right_iff (by positivity)]
    generalize x / 2 ^ 253 = y at *
    rw [abs_le] at h
    constructor
    · intro h1
      have hq24 : q = 2 ^ 24 := le_antisymm hq h1
      subst hq24
      push_cast at h
      linarith [h.1]
    · intro h1
      by_contra hc
      have h2 : q + 1 ≤ 2 ^ 24 := by omega
      have h3 : (q : ℚ) + 1 ≤ 2 ^ 24 := by exact_mod_cast h2
      have h4 : (q : ℚ) + 1 = 2 ^ 24 := by linarith [h.2]
      have h5 : y - q = 1 / 2 := by linarith [h.2]
      have h6 := he (by rw [h5]; norm_num)
      have h7 : q + 1 = 2 ^ 24 := by exact_mod_cast h4
      omega
  · have a : (2 : ℚ) ^ 277 ≤ 2 ^ (23 + k) := pow_le_pow_right₀ (by norm_num) (by omega)
    have hx1 : (2 : ℚ) ^ (23 + k) ≤ x := hx.resolve_left (by omega)
    have b : (2 : ℚ) ^ 23 ≤ x / 2 ^ k := by rwa [le_div_iff₀ hk, ← pow_add]
    have c : 2 ^ 23 ≤ q := by
      rw [abs_le] at h
      by_contra hc
      have h1 : q + 1 ≤ 2 ^ 23 := by omega
      have h2 : (q : ℚ) + 1 ≤ 2 ^ 23 := by exact_mod_cast h1
      linarith [h.2]
    have d : 2 ^ 277 ≤ q * 2 ^ k := by
      calc 2 ^ 277 ≤ 2 ^ (23 + k) := pow_le_pow_right₀ (by norm_num) (by omega)
        _ = 2 ^ 23 * 2 ^ k := pow_add _ _ _
        _ ≤ q * 2 ^ k := Nat.mul_le_mul_right _ c
    exact ⟨fun _ => hT2.le.trans (a.trans hx1), fun _ => d⟩

/-- The sign of a number of units, as a factor. -/
def signFactor (neg : Bool) : ℚ := if neg then -1 else 1

theorem signedUnits_eq (neg : Bool) (n : ℕ) : (signedUnits neg n : ℚ) = signFactor neg * n := by
  cases neg <;> simp [signedUnits, signFactor]

theorem abs_signFactor_mul (neg : Bool) (x : ℚ) : |signFactor neg * x| = |x| := by
  cases neg <;> simp [signFactor]

/-- `roundUnits` rounds the exact number of units once, to nearest, ties to even, with an infinity where the format
ends (rules R6, R143, R221). -/
theorem isRounding_roundUnits (neg : Bool) (num : ℕ) {den : ℕ} (hd : 0 < den) :
    IsRounding (signFactor neg * (num / den) / 2 ^ 149) (roundUnits neg num den) := by
  obtain ⟨hk, hk'⟩ := spacing_spec num hd
  unfold roundUnits
  dsimp only
  generalize (num / den).log2 - 23 = k at *
  have hk0 : (0 : ℚ) < 2 ^ k := by positivity
  have hx0 : (0 : ℚ) ≤ (num : ℚ) / den := by positivity
  obtain ⟨h, he⟩ := nearestEven_spec num (den := den <<< k) (by rw [Nat.shiftLeft_eq]; positivity)
  rw [show ((den <<< k : ℕ) : ℚ) = den * 2 ^ k by rw [Nat.shiftLeft_eq]; push_cast; rfl, ← div_div] at h he
  generalize nearestEven num (den <<< k) = q at *
  generalize (num : ℚ) / den = x at *
  have hy : x / 2 ^ k < 2 ^ 24 := by rwa [div_lt_iff₀ hk0, ← pow_add]
  have hq : q ≤ 2 ^ 24 := by
    rw [abs_le] at h
    by_contra hc
    have h1 : 2 ^ 24 + 1 ≤ q := by omega
    have h2 : (2 : ℚ) ^ 24 + 1 ≤ q := by exact_mod_cast h1
    linarith [h.1]
  have hq' : k = 0 ∨ 2 ^ 23 ≤ q := by
    refine hk.imp_right fun hb => ?_
    have b : (2 : ℚ) ^ 23 ≤ x / 2 ^ k := by rwa [le_div_iff₀ hk0, ← pow_add]
    rw [abs_le] at h
    by_contra hc
    have h1 : q + 1 ≤ 2 ^ 23 := by omega
    have h2 : (q : ℚ) + 1 ≤ 2 ^ 23 := by exact_mod_cast h1
    linarith [h.2]
  have hinf := rounds_up_to_infinity hk hk' hq h he
  obtain ⟨p1, p2⟩ := packUnits_spec neg hq hq'
  have habs : |signFactor neg * x / 2 ^ 149| = x / 2 ^ 149 := by
    rw [abs_div, abs_signFactor_mul, abs_of_nonneg hx0, abs_of_pos (by positivity)]
  unfold IsRounding
  rw [habs]
  have hiff : (2 ^ 25 - 1) * (2 : ℚ) ^ 103 ≤ x / 2 ^ 149 ↔ (2 ^ 25 - 1) * (2 : ℚ) ^ 252 ≤ x := by
    rw [le_div_iff₀ (by positivity), mul_assoc, ← pow_add]
  split
  · rename_i hbig
    have hb := hiff.1 hbig
    have hpos : (0 : ℚ) < x := lt_of_lt_of_le (by norm_num) hb
    rw [p2 (hinf.2 hb)]
    congr 1
    cases neg
    · simp only [signFactor, if_false, Bool.false_eq_true, one_mul]
      exact (decide_eq_false (not_lt.2 (by positivity))).symm
    · simp only [signFactor, if_true]
      refine (decide_eq_true ?_).symm
      have : (0 : ℚ) < x / 2 ^ 149 := by positivity
      rw [neg_one_mul, neg_div]
      linarith
  · rename_i hsmall
    have hlt : q * 2 ^ k < 2 ^ 277 := not_le.1 fun hc => hsmall (hiff.2 (hinf.1 hc))
    obtain ⟨v1, v2⟩ := p1 hlt
    refine ⟨_, ⟨neg, q * 2 ^ k, v1, rfl⟩, ?_⟩
    rintro p' v' ⟨neg', n, hv, rfl⟩
    obtain ⟨m, j, rfl, hm, _, _⟩ := finite_form hv
    obtain ⟨g1, g2⟩ := nearest_magnitude hk h he (j := j) hm
    have hE : (0 : ℚ) < 2 ^ 149 := by positivity
    have e1 : |signFactor neg * x / 2 ^ 149 - (signedUnits neg (q * 2 ^ k) : ℚ) / 2 ^ 149| =
        |x - (q * 2 ^ k : ℕ)| / 2 ^ 149 := by
      rw [signedUnits_eq, ← sub_div, ← mul_sub, abs_div, abs_signFactor_mul, abs_of_pos hE]
    rw [e1]
    by_cases hs : neg' = neg
    · subst hs
      have e2 : |signFactor neg' * x / 2 ^ 149 - (signedUnits neg' (m * 2 ^ j) : ℚ) / 2 ^ 149| =
          |x - (m * 2 ^ j : ℕ)| / 2 ^ 149 := by
        rw [signedUnits_eq, ← sub_div, ← mul_sub, abs_div, abs_signFactor_mul, abs_of_pos hE]
      rw [e2]
      refine ⟨div_le_div_of_nonneg_right g1 hE.le, fun e => ?_⟩
      rcases g2 ((div_left_inj' hE.ne').1 e) with g | g
      · exact .inl (by rw [g])
      · exact .inr (v2 g)
    · have e2 : |signFactor neg * x / 2 ^ 149 - (signedUnits neg' (m * 2 ^ j) : ℚ) / 2 ^ 149| =
          (x + (m * 2 ^ j : ℕ)) / 2 ^ 149 := by
        have hn : signFactor neg' = -signFactor neg := by cases neg <;> cases neg' <;> simp_all [signFactor]
        rw [signedUnits_eq, hn, ← sub_div, neg_mul, sub_neg_eq_add, ← mul_add, abs_div, abs_signFactor_mul,
          abs_of_pos hE, abs_of_nonneg (by positivity)]
      rw [e2]
      have hn0 : (0 : ℚ) ≤ (m * 2 ^ j : ℕ) := Nat.cast_nonneg _
      have g3 : |x - (m * 2 ^ j : ℕ)| ≤ x + (m * 2 ^ j : ℕ) := abs_le.2 ⟨by linarith, by linarith⟩
      refine ⟨div_le_div_of_nonneg_right (g1.trans g3) hE.le, fun e => ?_⟩
      have e' := (div_left_inj' hE.ne').1 e
      have e3 : |x - (m * 2 ^ j : ℕ)| = x + (m * 2 ^ j : ℕ) := le_antisymm g3 (by linarith)
      have hz : x = 0 ∨ ((m * 2 ^ j : ℕ) : ℚ) = 0 := by
        rcases abs_cases (x - (m * 2 ^ j : ℕ)) with ⟨c, _⟩ | ⟨c, _⟩
        · exact .inr (by linarith)
        · exact .inl (by linarith)
      rcases g2 (by linarith) with g | g
      · left
        have hq0 : ((q * 2 ^ k : ℕ) : ℚ) = 0 := by
          rcases hz with hz | hz
          · have g4 := (nearest_magnitude hk h he (m := 0) (j := 0) (by norm_num)).1
            rw [hz, Nat.zero_mul, Nat.cast_zero, sub_zero, abs_zero, zero_sub, abs_neg] at g4
            exact abs_eq_zero.1 (le_antisymm g4 (abs_nonneg _))
          · rw [← g]
            exact hz
        rw [signedUnits_eq, signedUnits_eq, g, hq0, mul_zero, mul_zero]
      · exact .inr (v2 g)

/-- A rounding of a number that the format holds is that number. -/
theorem isRounding_exact {p p' : Dword} {q : ℚ} (h : IsRounding q p) (hv : HasValue p' q)
    (hq : |q| < (2 ^ 25 - 1) * 2 ^ 103) : HasValue p q := by
  unfold IsRounding at h
  rw [if_neg (not_le.2 hq)] at h
  obtain ⟨v, h1, h2⟩ := h
  have h3 := (h2 p' q hv).1
  rw [sub_self, abs_zero] at h3
  have h4 : q - v = 0 := abs_eq_zero.1 (le_antisymm h3 (abs_nonneg _))
  rwa [show q = v by linarith]

end Sys2Proof.Machine
end

