-- ==== Sys2Proof/Laws/Memory.lean ====
section
/-! SUPPORT. The laws of RAM: read after write, and the canonical form that every write keeps. -/

namespace Sys2Proof.Machine

/-- Distinct addresses have distinct flat addresses. -/
theorem flatAddress_inj {g g' : Seg} {x y : Word} (h : flatAddress g x = flatAddress g' y) : g = g' ∧ x = y := by
  have hx := x.isLt
  have hy := y.isLt
  cases g <;> cases g' <;> simp only [flatAddress] at h
  · exact ⟨rfl, BitVec.eq_of_toNat_eq h⟩
  · omega
  · omega
  · exact ⟨rfl, BitVec.eq_of_toNat_eq (by omega)⟩

theorem flatAddress_lt (g : Seg) (x : Word) : flatAddress g x < ramWords := by
  have hx := x.isLt
  cases g <;> simp only [flatAddress, ramWords] <;> omega

theorem Memory.get_filter_self (m : Memory) (n : Nat) :
    Memory.get (m.filter (fun cell => cell.1 != n)) n = unlistedWord := by
  induction m with
  | nil => rfl
  | cons cell rest ih =>
    by_cases h : cell.1 = n
    · rw [List.filter_cons_of_neg (by simp [h])]
      exact ih
    · rw [List.filter_cons_of_pos (by simp [h])]
      simpa [Memory.get, h] using ih

theorem Memory.get_filter_ne (m : Memory) {n k : Nat} (hk : k ≠ n) :
    Memory.get (m.filter (fun cell => cell.1 != n)) k = Memory.get m k := by
  induction m with
  | nil => rfl
  | cons cell rest ih =>
    by_cases h : cell.1 = n
    · have hc : cell.1 ≠ k := fun e => hk (e.symm.trans h)
      rw [List.filter_cons_of_neg (by simp [h]), ih]
      simp [Memory.get, hc]
    · rw [List.filter_cons_of_pos (by simp [h])]
      simp [Memory.get, ih]

theorem Memory.get_insert_ne (m : Memory) {n k : Nat} (w : Word) (hk : k ≠ n) :
    Memory.get (Memory.insert n w m) k = Memory.get m k := by
  induction m with
  | nil => simp [Memory.insert, Memory.get, Ne.symm hk]
  | cons cell rest ih =>
    by_cases h : n < cell.1
    · simp [Memory.insert, h, Memory.get, Ne.symm hk]
    · simp [Memory.insert, h, Memory.get, ih]

theorem Memory.get_insert_self (m : Memory) {n : Nat} (w : Word) (hm : ∀ cell ∈ m, cell.1 ≠ n) :
    Memory.get (Memory.insert n w m) n = w := by
  induction m with
  | nil => simp [Memory.insert, Memory.get]
  | cons cell rest ih =>
    have hc : cell.1 ≠ n := hm cell (by simp)
    have hr := ih (fun x hx => hm x (by simp [hx]))
    by_cases h : n < cell.1
    · simp [Memory.insert, h, Memory.get]
    · simp [Memory.insert, h, Memory.get, hc, hr]

/-- A read after a write to the same address gives the word written, in any memory. -/
@[simp] theorem Memory.get_set_self (m : Memory) (n : Nat) (w : Word) : (m.set n w).get n = w := by
  unfold Memory.set
  by_cases h : w = unlistedWord
  · simp [h, Memory.get_filter_self]
  · simp only [if_neg h]
    exact Memory.get_insert_self _ w (by simp)

/-- A write leaves every other address alone, in any memory. -/
theorem Memory.get_set_ne (m : Memory) {n k : Nat} (w : Word) (hk : k ≠ n) : (m.set n w).get k = m.get k := by
  unfold Memory.set
  by_cases h : w = unlistedWord
  · simp [h, Memory.get_filter_ne m hk]
  · simp only [if_neg h]
    rw [Memory.get_insert_ne _ w hk, Memory.get_filter_ne m hk]

theorem Memory.mem_insert {m : Memory} {n : Nat} {w : Word} {cell : Nat × Word}
    (h : cell ∈ Memory.insert n w m) : cell = (n, w) ∨ cell ∈ m := by
  induction m with
  | nil => simpa [Memory.insert] using h
  | cons c rest ih =>
    by_cases hc : n < c.1
    · simpa [Memory.insert, hc] using h
    · simp only [Memory.insert, if_neg hc, List.mem_cons] at h ⊢
      rcases h with h | h
      · exact .inr (.inl h)
      · rcases ih h with h' | h'
        · exact .inl h'
        · exact .inr (.inr h')

theorem Memory.pairwise_insert {m : Memory} {n : Nat} (w : Word)
    (hp : m.Pairwise (fun x y => x.1 < y.1)) (hm : ∀ cell ∈ m, cell.1 ≠ n) :
    (Memory.insert n w m).Pairwise (fun x y => x.1 < y.1) := by
  induction m with
  | nil => simp [Memory.insert]
  | cons c rest ih =>
    have hc : c.1 ≠ n := hm c (by simp)
    rw [List.pairwise_cons] at hp
    by_cases h : n < c.1
    · simp only [Memory.insert, if_pos h, List.pairwise_cons, List.mem_cons]
      refine ⟨?_, hp⟩
      rintro x (rfl | hx)
      · exact h
      · exact lt_trans h (hp.1 x hx)
    · simp only [Memory.insert, if_neg h, List.pairwise_cons]
      refine ⟨fun x hx => ?_, ih hp.2 (fun x hx => hm x (by simp [hx]))⟩
      rcases Memory.mem_insert hx with rfl | hx'
      · show c.1 < n
        omega
      · exact hp.1 x hx'

/-- A write at an address inside RAM keeps the canonical form. -/
theorem Memory.wf_set {m : Memory} (hm : m.wf) {n : Nat} (hn : n < ramWords) (w : Word) : (m.set n w).wf := by
  obtain ⟨hp, hc⟩ := hm
  have hpf := hp.filter (fun cell => cell.1 != n)
  have hcf : ∀ cell ∈ m.filter (fun cell => cell.1 != n), cell.2 ≠ unlistedWord ∧ cell.1 < ramWords :=
    fun cell h => hc cell (List.mem_filter.1 h).1
  unfold Memory.set
  by_cases h : w = unlistedWord
  · simp only [if_pos h]
    exact ⟨hpf, hcf⟩
  · simp only [if_neg h]
    refine ⟨Memory.pairwise_insert w hpf (by simp), fun cell hcell => ?_⟩
    rcases Memory.mem_insert hcell with rfl | h'
    · exact ⟨h, hn⟩
    · exact hcf cell h'

@[simp] theorem readWord_writeWord_self (s : State) (g : Seg) (x w : Word) :
    (s.writeWord g x w).readWord g x = w := by
  simp [State.readWord, State.writeWord]

/-- Reading one word after a write of one word. -/
theorem readWord_writeWord (s : State) (g g' : Seg) (x x' w : Word) :
    (s.writeWord g x w).readWord g' x' = if g' = g ∧ x' = x then w else s.readWord g' x' := by
  by_cases h : g' = g ∧ x' = x
  · obtain ⟨rfl, rfl⟩ := h
    simp
  · rw [if_neg h]
    exact Memory.get_set_ne _ _ (fun e => h (flatAddress_inj e))

/-- A word after a dword was written at `x`: the half it holds, or what it was. -/
theorem readWord_writeDword (s : State) (g g' : Seg) (x x' : Word) (d : Dword) :
    (s.writeDword g x d).readWord g' x' =
      if g' = g ∧ x' = x + 1 then lo16 d else if g' = g ∧ x' = x then hi16 d else s.readWord g' x' := by
  simp only [State.writeDword, readWord_writeWord]

/-- Every write of a word keeps the canonical form of RAM. -/
theorem wf_writeWord {s : State} (h : s.mem.wf) (g : Seg) (x w : Word) : (s.writeWord g x w).mem.wf :=
  Memory.wf_set h (flatAddress_lt g x) w

theorem wf_writeDword {s : State} (h : s.mem.wf) (g : Seg) (x : Word) (d : Dword) : (s.writeDword g x d).mem.wf :=
  wf_writeWord (wf_writeWord h _ _ _) _ _ _

theorem wf_push {s : State} (h : s.mem.wf) (w : Word) : (s.push w).mem.wf :=
  wf_writeWord (s := { s with sp := s.sp - 1 }) h _ _ _

end Sys2Proof.Machine
end

