-- ==== Sys2Proof/Laws/State.lean ====
section
/-! SUPPORT. One lemma per field and update of the state, so that no later proof unfolds a record update. -/

namespace Sys2Proof.Machine

/-! ### writeWord -/

@[simp] theorem writeWord_a (s : State) (g : Seg) (x w : Word) : (s.writeWord g x w).a = s.a := rfl
@[simp] theorem writeWord_b (s : State) (g : Seg) (x w : Word) : (s.writeWord g x w).b = s.b := rfl
@[simp] theorem writeWord_c (s : State) (g : Seg) (x w : Word) : (s.writeWord g x w).c = s.c := rfl
@[simp] theorem writeWord_i (s : State) (g : Seg) (x w : Word) : (s.writeWord g x w).i = s.i := rfl
@[simp] theorem writeWord_xh (s : State) (g : Seg) (x w : Word) : (s.writeWord g x w).xh = s.xh := rfl
@[simp] theorem writeWord_xl (s : State) (g : Seg) (x w : Word) : (s.writeWord g x w).xl = s.xl := rfl
@[simp] theorem writeWord_yh (s : State) (g : Seg) (x w : Word) : (s.writeWord g x w).yh = s.yh := rfl
@[simp] theorem writeWord_yl (s : State) (g : Seg) (x w : Word) : (s.writeWord g x w).yl = s.yl := rfl
@[simp] theorem writeWord_fa (s : State) (g : Seg) (x w : Word) : (s.writeWord g x w).fa = s.fa := rfl
@[simp] theorem writeWord_fb (s : State) (g : Seg) (x w : Word) : (s.writeWord g x w).fb = s.fb := rfl
@[simp] theorem writeWord_ex (s : State) (g : Seg) (x w : Word) : (s.writeWord g x w).ex = s.ex := rfl
@[simp] theorem writeWord_pc (s : State) (g : Seg) (x w : Word) : (s.writeWord g x w).pc = s.pc := rfl
@[simp] theorem writeWord_sp (s : State) (g : Seg) (x w : Word) : (s.writeWord g x w).sp = s.sp := rfl
@[simp] theorem writeWord_ia (s : State) (g : Seg) (x w : Word) : (s.writeWord g x w).ia = s.ia := rfl
@[simp] theorem writeWord_seg (s : State) (g : Seg) (x w : Word) : (s.writeWord g x w).seg = s.seg := rfl
@[simp] theorem writeWord_iaqOn (s : State) (g : Seg) (x w : Word) : (s.writeWord g x w).iaqOn = s.iaqOn := rfl
@[simp] theorem writeWord_queue (s : State) (g : Seg) (x w : Word) : (s.writeWord g x w).queue = s.queue := rfl
@[simp] theorem writeWord_status (s : State) (g : Seg) (x w : Word) : (s.writeWord g x w).status = s.status := rfl
@[simp] theorem writeWord_arrivals (s : State) (g : Seg) (x w : Word) : (s.writeWord g x w).arrivals = s.arrivals := rfl
@[simp] theorem writeWord_draws (s : State) (g : Seg) (x w : Word) : (s.writeWord g x w).draws = s.draws := rfl
@[simp] theorem writeWord_cycles (s : State) (g : Seg) (x w : Word) : (s.writeWord g x w).cycles = s.cycles := rfl

/-! ### writeDword -/

@[simp] theorem writeDword_a (s : State) (g : Seg) (x : Word) (d : Dword) : (s.writeDword g x d).a = s.a := rfl
@[simp] theorem writeDword_b (s : State) (g : Seg) (x : Word) (d : Dword) : (s.writeDword g x d).b = s.b := rfl
@[simp] theorem writeDword_c (s : State) (g : Seg) (x : Word) (d : Dword) : (s.writeDword g x d).c = s.c := rfl
@[simp] theorem writeDword_i (s : State) (g : Seg) (x : Word) (d : Dword) : (s.writeDword g x d).i = s.i := rfl
@[simp] theorem writeDword_xh (s : State) (g : Seg) (x : Word) (d : Dword) : (s.writeDword g x d).xh = s.xh := rfl
@[simp] theorem writeDword_xl (s : State) (g : Seg) (x : Word) (d : Dword) : (s.writeDword g x d).xl = s.xl := rfl
@[simp] theorem writeDword_yh (s : State) (g : Seg) (x : Word) (d : Dword) : (s.writeDword g x d).yh = s.yh := rfl
@[simp] theorem writeDword_yl (s : State) (g : Seg) (x : Word) (d : Dword) : (s.writeDword g x d).yl = s.yl := rfl
@[simp] theorem writeDword_fa (s : State) (g : Seg) (x : Word) (d : Dword) : (s.writeDword g x d).fa = s.fa := rfl
@[simp] theorem writeDword_fb (s : State) (g : Seg) (x : Word) (d : Dword) : (s.writeDword g x d).fb = s.fb := rfl
@[simp] theorem writeDword_ex (s : State) (g : Seg) (x : Word) (d : Dword) : (s.writeDword g x d).ex = s.ex := rfl
@[simp] theorem writeDword_pc (s : State) (g : Seg) (x : Word) (d : Dword) : (s.writeDword g x d).pc = s.pc := rfl
@[simp] theorem writeDword_sp (s : State) (g : Seg) (x : Word) (d : Dword) : (s.writeDword g x d).sp = s.sp := rfl
@[simp] theorem writeDword_ia (s : State) (g : Seg) (x : Word) (d : Dword) : (s.writeDword g x d).ia = s.ia := rfl
@[simp] theorem writeDword_seg (s : State) (g : Seg) (x : Word) (d : Dword) : (s.writeDword g x d).seg = s.seg := rfl
@[simp] theorem writeDword_iaqOn (s : State) (g : Seg) (x : Word) (d : Dword) : (s.writeDword g x d).iaqOn = s.iaqOn := rfl
@[simp] theorem writeDword_queue (s : State) (g : Seg) (x : Word) (d : Dword) : (s.writeDword g x d).queue = s.queue := rfl
@[simp] theorem writeDword_status (s : State) (g : Seg) (x : Word) (d : Dword) : (s.writeDword g x d).status = s.status := rfl
@[simp] theorem writeDword_arrivals (s : State) (g : Seg) (x : Word) (d : Dword) : (s.writeDword g x d).arrivals = s.arrivals := rfl
@[simp] theorem writeDword_draws (s : State) (g : Seg) (x : Word) (d : Dword) : (s.writeDword g x d).draws = s.draws := rfl
@[simp] theorem writeDword_cycles (s : State) (g : Seg) (x : Word) (d : Dword) : (s.writeDword g x d).cycles = s.cycles := rfl

/-! ### setReg -/

@[simp] theorem setReg_fa (s : State) (r : Reg) (w : Word) : (s.setReg r w).fa = s.fa := by cases r <;> rfl
@[simp] theorem setReg_fb (s : State) (r : Reg) (w : Word) : (s.setReg r w).fb = s.fb := by cases r <;> rfl
@[simp] theorem setReg_ex (s : State) (r : Reg) (w : Word) : (s.setReg r w).ex = s.ex := by cases r <;> rfl
@[simp] theorem setReg_pc (s : State) (r : Reg) (w : Word) : (s.setReg r w).pc = s.pc := by cases r <;> rfl
@[simp] theorem setReg_sp (s : State) (r : Reg) (w : Word) : (s.setReg r w).sp = s.sp := by cases r <;> rfl
@[simp] theorem setReg_ia (s : State) (r : Reg) (w : Word) : (s.setReg r w).ia = s.ia := by cases r <;> rfl
@[simp] theorem setReg_seg (s : State) (r : Reg) (w : Word) : (s.setReg r w).seg = s.seg := by cases r <;> rfl
@[simp] theorem setReg_iaqOn (s : State) (r : Reg) (w : Word) : (s.setReg r w).iaqOn = s.iaqOn := by cases r <;> rfl
@[simp] theorem setReg_queue (s : State) (r : Reg) (w : Word) : (s.setReg r w).queue = s.queue := by cases r <;> rfl
@[simp] theorem setReg_status (s : State) (r : Reg) (w : Word) : (s.setReg r w).status = s.status := by cases r <;> rfl
@[simp] theorem setReg_mem (s : State) (r : Reg) (w : Word) : (s.setReg r w).mem = s.mem := by cases r <;> rfl
@[simp] theorem setReg_arrivals (s : State) (r : Reg) (w : Word) : (s.setReg r w).arrivals = s.arrivals := by cases r <;> rfl
@[simp] theorem setReg_draws (s : State) (r : Reg) (w : Word) : (s.setReg r w).draws = s.draws := by cases r <;> rfl
@[simp] theorem setReg_cycles (s : State) (r : Reg) (w : Word) : (s.setReg r w).cycles = s.cycles := by cases r <;> rfl

/-! ### setDreg -/

@[simp] theorem setDreg_fa (s : State) (d : DReg) (v : Dword) : (s.setDreg d v).fa = s.fa := by cases d <;> rfl
@[simp] theorem setDreg_fb (s : State) (d : DReg) (v : Dword) : (s.setDreg d v).fb = s.fb := by cases d <;> rfl
@[simp] theorem setDreg_ex (s : State) (d : DReg) (v : Dword) : (s.setDreg d v).ex = s.ex := by cases d <;> rfl
@[simp] theorem setDreg_pc (s : State) (d : DReg) (v : Dword) : (s.setDreg d v).pc = s.pc := by cases d <;> rfl
@[simp] theorem setDreg_sp (s : State) (d : DReg) (v : Dword) : (s.setDreg d v).sp = s.sp := by cases d <;> rfl
@[simp] theorem setDreg_ia (s : State) (d : DReg) (v : Dword) : (s.setDreg d v).ia = s.ia := by cases d <;> rfl
@[simp] theorem setDreg_seg (s : State) (d : DReg) (v : Dword) : (s.setDreg d v).seg = s.seg := by cases d <;> rfl
@[simp] theorem setDreg_iaqOn (s : State) (d : DReg) (v : Dword) : (s.setDreg d v).iaqOn = s.iaqOn := by cases d <;> rfl
@[simp] theorem setDreg_queue (s : State) (d : DReg) (v : Dword) : (s.setDreg d v).queue = s.queue := by cases d <;> rfl
@[simp] theorem setDreg_status (s : State) (d : DReg) (v : Dword) : (s.setDreg d v).status = s.status := by cases d <;> rfl
@[simp] theorem setDreg_mem (s : State) (d : DReg) (v : Dword) : (s.setDreg d v).mem = s.mem := by cases d <;> rfl
@[simp] theorem setDreg_arrivals (s : State) (d : DReg) (v : Dword) : (s.setDreg d v).arrivals = s.arrivals := by cases d <;> rfl
@[simp] theorem setDreg_draws (s : State) (d : DReg) (v : Dword) : (s.setDreg d v).draws = s.draws := by cases d <;> rfl
@[simp] theorem setDreg_cycles (s : State) (d : DReg) (v : Dword) : (s.setDreg d v).cycles = s.cycles := by cases d <;> rfl

/-! ### setFreg -/

@[simp] theorem setFreg_a (s : State) (f : FReg) (p : Dword) : (s.setFreg f p).a = s.a := by cases f <;> rfl
@[simp] theorem setFreg_b (s : State) (f : FReg) (p : Dword) : (s.setFreg f p).b = s.b := by cases f <;> rfl
@[simp] theorem setFreg_c (s : State) (f : FReg) (p : Dword) : (s.setFreg f p).c = s.c := by cases f <;> rfl
@[simp] theorem setFreg_i (s : State) (f : FReg) (p : Dword) : (s.setFreg f p).i = s.i := by cases f <;> rfl
@[simp] theorem setFreg_xh (s : State) (f : FReg) (p : Dword) : (s.setFreg f p).xh = s.xh := by cases f <;> rfl
@[simp] theorem setFreg_xl (s : State) (f : FReg) (p : Dword) : (s.setFreg f p).xl = s.xl := by cases f <;> rfl
@[simp] theorem setFreg_yh (s : State) (f : FReg) (p : Dword) : (s.setFreg f p).yh = s.yh := by cases f <;> rfl
@[simp] theorem setFreg_yl (s : State) (f : FReg) (p : Dword) : (s.setFreg f p).yl = s.yl := by cases f <;> rfl
@[simp] theorem setFreg_ex (s : State) (f : FReg) (p : Dword) : (s.setFreg f p).ex = s.ex := by cases f <;> rfl
@[simp] theorem setFreg_pc (s : State) (f : FReg) (p : Dword) : (s.setFreg f p).pc = s.pc := by cases f <;> rfl
@[simp] theorem setFreg_sp (s : State) (f : FReg) (p : Dword) : (s.setFreg f p).sp = s.sp := by cases f <;> rfl
@[simp] theorem setFreg_ia (s : State) (f : FReg) (p : Dword) : (s.setFreg f p).ia = s.ia := by cases f <;> rfl
@[simp] theorem setFreg_seg (s : State) (f : FReg) (p : Dword) : (s.setFreg f p).seg = s.seg := by cases f <;> rfl
@[simp] theorem setFreg_iaqOn (s : State) (f : FReg) (p : Dword) : (s.setFreg f p).iaqOn = s.iaqOn := by cases f <;> rfl
@[simp] theorem setFreg_queue (s : State) (f : FReg) (p : Dword) : (s.setFreg f p).queue = s.queue := by cases f <;> rfl
@[simp] theorem setFreg_status (s : State) (f : FReg) (p : Dword) : (s.setFreg f p).status = s.status := by cases f <;> rfl
@[simp] theorem setFreg_mem (s : State) (f : FReg) (p : Dword) : (s.setFreg f p).mem = s.mem := by cases f <;> rfl
@[simp] theorem setFreg_arrivals (s : State) (f : FReg) (p : Dword) : (s.setFreg f p).arrivals = s.arrivals := by cases f <;> rfl
@[simp] theorem setFreg_draws (s : State) (f : FReg) (p : Dword) : (s.setFreg f p).draws = s.draws := by cases f <;> rfl
@[simp] theorem setFreg_cycles (s : State) (f : FReg) (p : Dword) : (s.setFreg f p).cycles = s.cycles := by cases f <;> rfl

/-! ### push -/

@[simp] theorem push_a (s : State) (w : Word) : (s.push w).a = s.a := rfl
@[simp] theorem push_b (s : State) (w : Word) : (s.push w).b = s.b := rfl
@[simp] theorem push_c (s : State) (w : Word) : (s.push w).c = s.c := rfl
@[simp] theorem push_i (s : State) (w : Word) : (s.push w).i = s.i := rfl
@[simp] theorem push_xh (s : State) (w : Word) : (s.push w).xh = s.xh := rfl
@[simp] theorem push_xl (s : State) (w : Word) : (s.push w).xl = s.xl := rfl
@[simp] theorem push_yh (s : State) (w : Word) : (s.push w).yh = s.yh := rfl
@[simp] theorem push_yl (s : State) (w : Word) : (s.push w).yl = s.yl := rfl
@[simp] theorem push_fa (s : State) (w : Word) : (s.push w).fa = s.fa := rfl
@[simp] theorem push_fb (s : State) (w : Word) : (s.push w).fb = s.fb := rfl
@[simp] theorem push_ex (s : State) (w : Word) : (s.push w).ex = s.ex := rfl
@[simp] theorem push_pc (s : State) (w : Word) : (s.push w).pc = s.pc := rfl
@[simp] theorem push_ia (s : State) (w : Word) : (s.push w).ia = s.ia := rfl
@[simp] theorem push_seg (s : State) (w : Word) : (s.push w).seg = s.seg := rfl
@[simp] theorem push_iaqOn (s : State) (w : Word) : (s.push w).iaqOn = s.iaqOn := rfl
@[simp] theorem push_queue (s : State) (w : Word) : (s.push w).queue = s.queue := rfl
@[simp] theorem push_status (s : State) (w : Word) : (s.push w).status = s.status := rfl
@[simp] theorem push_arrivals (s : State) (w : Word) : (s.push w).arrivals = s.arrivals := rfl
@[simp] theorem push_draws (s : State) (w : Word) : (s.push w).draws = s.draws := rfl
@[simp] theorem push_cycles (s : State) (w : Word) : (s.push w).cycles = s.cycles := rfl

/-! ### drop -/

@[simp] theorem drop_a (s : State) : (s.drop).a = s.a := rfl
@[simp] theorem drop_b (s : State) : (s.drop).b = s.b := rfl
@[simp] theorem drop_c (s : State) : (s.drop).c = s.c := rfl
@[simp] theorem drop_i (s : State) : (s.drop).i = s.i := rfl
@[simp] theorem drop_xh (s : State) : (s.drop).xh = s.xh := rfl
@[simp] theorem drop_xl (s : State) : (s.drop).xl = s.xl := rfl
@[simp] theorem drop_yh (s : State) : (s.drop).yh = s.yh := rfl
@[simp] theorem drop_yl (s : State) : (s.drop).yl = s.yl := rfl
@[simp] theorem drop_fa (s : State) : (s.drop).fa = s.fa := rfl
@[simp] theorem drop_fb (s : State) : (s.drop).fb = s.fb := rfl
@[simp] theorem drop_ex (s : State) : (s.drop).ex = s.ex := rfl
@[simp] theorem drop_pc (s : State) : (s.drop).pc = s.pc := rfl
@[simp] theorem drop_ia (s : State) : (s.drop).ia = s.ia := rfl
@[simp] theorem drop_seg (s : State) : (s.drop).seg = s.seg := rfl
@[simp] theorem drop_iaqOn (s : State) : (s.drop).iaqOn = s.iaqOn := rfl
@[simp] theorem drop_queue (s : State) : (s.drop).queue = s.queue := rfl
@[simp] theorem drop_status (s : State) : (s.drop).status = s.status := rfl
@[simp] theorem drop_mem (s : State) : (s.drop).mem = s.mem := rfl
@[simp] theorem drop_arrivals (s : State) : (s.drop).arrivals = s.arrivals := rfl
@[simp] theorem drop_draws (s : State) : (s.drop).draws = s.draws := rfl
@[simp] theorem drop_cycles (s : State) : (s.drop).cycles = s.cycles := rfl

/-! ### passWords -/

@[simp] theorem passWords_a (s : State) (i : Instr) : (s.passWords i).a = s.a := rfl
@[simp] theorem passWords_b (s : State) (i : Instr) : (s.passWords i).b = s.b := rfl
@[simp] theorem passWords_c (s : State) (i : Instr) : (s.passWords i).c = s.c := rfl
@[simp] theorem passWords_i (s : State) (i : Instr) : (s.passWords i).i = s.i := rfl
@[simp] theorem passWords_xh (s : State) (i : Instr) : (s.passWords i).xh = s.xh := rfl
@[simp] theorem passWords_xl (s : State) (i : Instr) : (s.passWords i).xl = s.xl := rfl
@[simp] theorem passWords_yh (s : State) (i : Instr) : (s.passWords i).yh = s.yh := rfl
@[simp] theorem passWords_yl (s : State) (i : Instr) : (s.passWords i).yl = s.yl := rfl
@[simp] theorem passWords_fa (s : State) (i : Instr) : (s.passWords i).fa = s.fa := rfl
@[simp] theorem passWords_fb (s : State) (i : Instr) : (s.passWords i).fb = s.fb := rfl
@[simp] theorem passWords_ex (s : State) (i : Instr) : (s.passWords i).ex = s.ex := rfl
@[simp] theorem passWords_sp (s : State) (i : Instr) : (s.passWords i).sp = s.sp := rfl
@[simp] theorem passWords_ia (s : State) (i : Instr) : (s.passWords i).ia = s.ia := rfl
@[simp] theorem passWords_seg (s : State) (i : Instr) : (s.passWords i).seg = s.seg := rfl
@[simp] theorem passWords_iaqOn (s : State) (i : Instr) : (s.passWords i).iaqOn = s.iaqOn := rfl
@[simp] theorem passWords_queue (s : State) (i : Instr) : (s.passWords i).queue = s.queue := rfl
@[simp] theorem passWords_status (s : State) (i : Instr) : (s.passWords i).status = s.status := rfl
@[simp] theorem passWords_mem (s : State) (i : Instr) : (s.passWords i).mem = s.mem := rfl
@[simp] theorem passWords_arrivals (s : State) (i : Instr) : (s.passWords i).arrivals = s.arrivals := rfl
@[simp] theorem passWords_draws (s : State) (i : Instr) : (s.passWords i).draws = s.draws := rfl
@[simp] theorem passWords_cycles (s : State) (i : Instr) : (s.passWords i).cycles = s.cycles := rfl

/-! ### spend -/

@[simp] theorem spend_a (s : State) (n : Nat) : (s.spend n).a = s.a := rfl
@[simp] theorem spend_b (s : State) (n : Nat) : (s.spend n).b = s.b := rfl
@[simp] theorem spend_c (s : State) (n : Nat) : (s.spend n).c = s.c := rfl
@[simp] theorem spend_i (s : State) (n : Nat) : (s.spend n).i = s.i := rfl
@[simp] theorem spend_xh (s : State) (n : Nat) : (s.spend n).xh = s.xh := rfl
@[simp] theorem spend_xl (s : State) (n : Nat) : (s.spend n).xl = s.xl := rfl
@[simp] theorem spend_yh (s : State) (n : Nat) : (s.spend n).yh = s.yh := rfl
@[simp] theorem spend_yl (s : State) (n : Nat) : (s.spend n).yl = s.yl := rfl
@[simp] theorem spend_fa (s : State) (n : Nat) : (s.spend n).fa = s.fa := rfl
@[simp] theorem spend_fb (s : State) (n : Nat) : (s.spend n).fb = s.fb := rfl
@[simp] theorem spend_ex (s : State) (n : Nat) : (s.spend n).ex = s.ex := rfl
@[simp] theorem spend_pc (s : State) (n : Nat) : (s.spend n).pc = s.pc := rfl
@[simp] theorem spend_sp (s : State) (n : Nat) : (s.spend n).sp = s.sp := rfl
@[simp] theorem spend_ia (s : State) (n : Nat) : (s.spend n).ia = s.ia := rfl
@[simp] theorem spend_seg (s : State) (n : Nat) : (s.spend n).seg = s.seg := rfl
@[simp] theorem spend_iaqOn (s : State) (n : Nat) : (s.spend n).iaqOn = s.iaqOn := rfl
@[simp] theorem spend_queue (s : State) (n : Nat) : (s.spend n).queue = s.queue := rfl
@[simp] theorem spend_status (s : State) (n : Nat) : (s.spend n).status = s.status := rfl
@[simp] theorem spend_mem (s : State) (n : Nat) : (s.spend n).mem = s.mem := rfl
@[simp] theorem spend_arrivals (s : State) (n : Nat) : (s.spend n).arrivals = s.arrivals := rfl
@[simp] theorem spend_draws (s : State) (n : Nat) : (s.spend n).draws = s.draws := rfl

/-! ### enqueue -/

@[simp] theorem enqueue_a (s : State) (m : Word) : (s.enqueue m).a = s.a := by unfold State.enqueue; dsimp only; split <;> rfl
@[simp] theorem enqueue_b (s : State) (m : Word) : (s.enqueue m).b = s.b := by unfold State.enqueue; dsimp only; split <;> rfl
@[simp] theorem enqueue_c (s : State) (m : Word) : (s.enqueue m).c = s.c := by unfold State.enqueue; dsimp only; split <;> rfl
@[simp] theorem enqueue_i (s : State) (m : Word) : (s.enqueue m).i = s.i := by unfold State.enqueue; dsimp only; split <;> rfl
@[simp] theorem enqueue_xh (s : State) (m : Word) : (s.enqueue m).xh = s.xh := by unfold State.enqueue; dsimp only; split <;> rfl
@[simp] theorem enqueue_xl (s : State) (m : Word) : (s.enqueue m).xl = s.xl := by unfold State.enqueue; dsimp only; split <;> rfl
@[simp] theorem enqueue_yh (s : State) (m : Word) : (s.enqueue m).yh = s.yh := by unfold State.enqueue; dsimp only; split <;> rfl
@[simp] theorem enqueue_yl (s : State) (m : Word) : (s.enqueue m).yl = s.yl := by unfold State.enqueue; dsimp only; split <;> rfl
@[simp] theorem enqueue_fa (s : State) (m : Word) : (s.enqueue m).fa = s.fa := by unfold State.enqueue; dsimp only; split <;> rfl
@[simp] theorem enqueue_fb (s : State) (m : Word) : (s.enqueue m).fb = s.fb := by unfold State.enqueue; dsimp only; split <;> rfl
@[simp] theorem enqueue_ex (s : State) (m : Word) : (s.enqueue m).ex = s.ex := by unfold State.enqueue; dsimp only; split <;> rfl
@[simp] theorem enqueue_pc (s : State) (m : Word) : (s.enqueue m).pc = s.pc := by unfold State.enqueue; dsimp only; split <;> rfl
@[simp] theorem enqueue_sp (s : State) (m : Word) : (s.enqueue m).sp = s.sp := by unfold State.enqueue; dsimp only; split <;> rfl
@[simp] theorem enqueue_ia (s : State) (m : Word) : (s.enqueue m).ia = s.ia := by unfold State.enqueue; dsimp only; split <;> rfl
@[simp] theorem enqueue_seg (s : State) (m : Word) : (s.enqueue m).seg = s.seg := by unfold State.enqueue; dsimp only; split <;> rfl
@[simp] theorem enqueue_iaqOn (s : State) (m : Word) : (s.enqueue m).iaqOn = s.iaqOn := by unfold State.enqueue; dsimp only; split <;> rfl
@[simp] theorem enqueue_mem (s : State) (m : Word) : (s.enqueue m).mem = s.mem := by unfold State.enqueue; dsimp only; split <;> rfl
@[simp] theorem enqueue_arrivals (s : State) (m : Word) : (s.enqueue m).arrivals = s.arrivals := by unfold State.enqueue; dsimp only; split <;> rfl
@[simp] theorem enqueue_draws (s : State) (m : Word) : (s.enqueue m).draws = s.draws := by unfold State.enqueue; dsimp only; split <;> rfl
@[simp] theorem enqueue_cycles (s : State) (m : Word) : (s.enqueue m).cycles = s.cycles := by unfold State.enqueue; dsimp only; split <;> rfl

/-! ### What the updates write, and what a register, a float register and a word of RAM read after them -/

@[simp] theorem push_sp (s : State) (w : Word) : (s.push w).sp = s.sp - 1 := rfl
@[simp] theorem drop_sp (s : State) : s.drop.sp = s.sp + 1 := rfl
@[simp] theorem passWords_pc (s : State) (i : Instr) : (s.passWords i).pc = s.pc + BitVec.ofNat 16 i.length := rfl
@[simp] theorem spend_cycles (s : State) (n : Nat) : (s.spend n).cycles = s.cycles + n := rfl
@[simp] theorem enqueue_queue (s : State) (m : Word) : (s.enqueue m).queue = s.queue ++ [m] := by
  unfold State.enqueue; dsimp only; split <;> rfl

/-- A register after a write to a register: the word written, or what it held. -/
@[simp] theorem reg_setReg (s : State) (r r' : Reg) (w : Word) :
    (s.setReg r w).reg r' = if r' = r then w else s.reg r' := by cases r <;> cases r' <;> rfl

@[simp] theorem freg_setFreg (s : State) (f f' : FReg) (p : Dword) :
    (s.setFreg f p).freg f' = if f' = f then p else s.freg f' := by cases f <;> cases f' <;> rfl

@[simp] theorem freg_setReg (s : State) (r : Reg) (w : Word) (f : FReg) : (s.setReg r w).freg f = s.freg f := by
  cases f <;> simp [State.freg]
@[simp] theorem reg_setFreg (s : State) (f : FReg) (p : Dword) (r : Reg) : (s.setFreg f p).reg r = s.reg r := by
  cases r <;> simp [State.reg]
@[simp] theorem freg_setDreg (s : State) (d : DReg) (v : Dword) (f : FReg) : (s.setDreg d v).freg f = s.freg f := by
  cases f <;> simp [State.freg]

/-- A register after a write to a dword register: the half it is, or what it held (rule R21). -/
theorem reg_setDreg (s : State) (d : DReg) (v : Dword) (r : Reg) :
    (s.setDreg d v).reg r = if r = lowHalf d then lo16 v else if r = highHalf d then hi16 v else s.reg r := by
  simp [State.setDreg]

@[simp] theorem hi16_dword (h l : Word) : hi16 (dword h l) = h := by
  simp only [hi16, dword]
  exact BitVec.extractLsb'_append_eq_left

@[simp] theorem lo16_dword (h l : Word) : lo16 (dword h l) = l := by
  simp only [lo16, dword]
  exact BitVec.extractLsb'_append_eq_right

@[simp] theorem dword_hi16_lo16 (d : Dword) : dword (hi16 d) (lo16 d) = d := by
  simp only [hi16, lo16, dword]
  apply BitVec.eq_of_getLsbD_eq
  intro k hk
  simp only [BitVec.getLsbD_append, BitVec.getLsbD_extractLsb']
  by_cases h : k < 16
  · simp [h]
  · have hk' : k - 16 < 16 := by omega
    have he : 16 + (k - 16) = k := by omega
    simp [h, hk', he]

/-- A dword register reads the dword written to it (rule R21). -/
@[simp] theorem dreg_setDreg (s : State) (d : DReg) (v : Dword) : (s.setDreg d v).dreg d = v := by
  cases d <;> simp [State.dreg, reg_setDreg, highHalf, lowHalf]

@[simp] theorem reg_writeWord (s : State) (g : Seg) (x w : Word) (r : Reg) : (s.writeWord g x w).reg r = s.reg r := by
  cases r <;> rfl
@[simp] theorem freg_writeWord (s : State) (g : Seg) (x w : Word) (f : FReg) :
    (s.writeWord g x w).freg f = s.freg f := by cases f <;> rfl
@[simp] theorem reg_writeDword (s : State) (g : Seg) (x : Word) (d : Dword) (r : Reg) :
    (s.writeDword g x d).reg r = s.reg r := by cases r <;> rfl
@[simp] theorem freg_writeDword (s : State) (g : Seg) (x : Word) (d : Dword) (f : FReg) :
    (s.writeDword g x d).freg f = s.freg f := by cases f <;> rfl
@[simp] theorem reg_push (s : State) (w : Word) (r : Reg) : (s.push w).reg r = s.reg r := by cases r <;> rfl
@[simp] theorem freg_push (s : State) (w : Word) (f : FReg) : (s.push w).freg f = s.freg f := by cases f <;> rfl
@[simp] theorem reg_drop (s : State) (r : Reg) : s.drop.reg r = s.reg r := by cases r <;> rfl
@[simp] theorem freg_drop (s : State) (f : FReg) : s.drop.freg f = s.freg f := by cases f <;> rfl

/-- A word of RAM depends on nothing but RAM. -/
theorem readWord_congr {s t : State} (h : t.mem = s.mem) (g : Seg) (x : Word) : t.readWord g x = s.readWord g x := by
  simp only [State.readWord, h]

@[simp] theorem readWord_setReg (s : State) (r : Reg) (w : Word) (g : Seg) (x : Word) :
    (s.setReg r w).readWord g x = s.readWord g x := readWord_congr (by simp) g x
@[simp] theorem readWord_setDreg (s : State) (d : DReg) (v : Dword) (g : Seg) (x : Word) :
    (s.setDreg d v).readWord g x = s.readWord g x := readWord_congr (by simp) g x
@[simp] theorem readWord_setFreg (s : State) (f : FReg) (p : Dword) (g : Seg) (x : Word) :
    (s.setFreg f p).readWord g x = s.readWord g x := readWord_congr (by simp) g x
@[simp] theorem readWord_drop (s : State) (g : Seg) (x : Word) : s.drop.readWord g x = s.readWord g x := rfl
@[simp] theorem readWord_passWords (s : State) (i : Instr) (g : Seg) (x : Word) :
    (s.passWords i).readWord g x = s.readWord g x := rfl
@[simp] theorem readWord_spend (s : State) (n : Nat) (g : Seg) (x : Word) :
    (s.spend n).readWord g x = s.readWord g x := rfl

/-- What a push stores: the word below SP in the current segment, and nothing else (rules R10, R29). -/
theorem readWord_push (s : State) (w : Word) (g : Seg) (x : Word) :
    (s.push w).readWord g x = if g = s.seg ∧ x = s.sp - 1 then w else s.readWord g x := by
  rw [State.push, readWord_writeWord]
  rfl

end Sys2Proof.Machine
end

