-- ==== Sys2Proof/Laws/Operands.lean ====
section
/-! SUPPORT. The laws of operands: what a resolution can do, and what a write to a place can do in each domain. -/

namespace Sys2Proof.Machine

/-- A resolution changes SP alone, and SP only by PUSH or POP (rules R123, R125, R127). -/
theorem resolve_state (first : Bool) (o : Operand) (s : State) :
    (resolve first o s).state =
      { s with sp := if o.value = .stack then (if first then s.sp - 1 else s.sp + 1) else s.sp } := by
  unfold resolve
  cases o.value <;> cases first <;> rfl

/-- A value costs DSET and FSET their extra cycle exactly where it resolves to a place in RAM (rule R400). -/
theorem valueInRam_iff (first : Bool) (o : Operand) (s : State) :
    valueInRam o.value = true ↔ ∃ g x, (resolve first o s).place = .mem g x := by
  unfold resolve valueInRam
  cases o.value <;> cases first <;> simp

@[simp] theorem resolve_a (first : Bool) (o : Operand) (s : State) : (resolve first o s).state.a = s.a := by
  rw [resolve_state]
@[simp] theorem resolve_b (first : Bool) (o : Operand) (s : State) : (resolve first o s).state.b = s.b := by
  rw [resolve_state]
@[simp] theorem resolve_c (first : Bool) (o : Operand) (s : State) : (resolve first o s).state.c = s.c := by
  rw [resolve_state]
@[simp] theorem resolve_i (first : Bool) (o : Operand) (s : State) : (resolve first o s).state.i = s.i := by
  rw [resolve_state]
@[simp] theorem resolve_xh (first : Bool) (o : Operand) (s : State) : (resolve first o s).state.xh = s.xh := by
  rw [resolve_state]
@[simp] theorem resolve_xl (first : Bool) (o : Operand) (s : State) : (resolve first o s).state.xl = s.xl := by
  rw [resolve_state]
@[simp] theorem resolve_yh (first : Bool) (o : Operand) (s : State) : (resolve first o s).state.yh = s.yh := by
  rw [resolve_state]
@[simp] theorem resolve_yl (first : Bool) (o : Operand) (s : State) : (resolve first o s).state.yl = s.yl := by
  rw [resolve_state]
@[simp] theorem resolve_fa (first : Bool) (o : Operand) (s : State) : (resolve first o s).state.fa = s.fa := by
  rw [resolve_state]
@[simp] theorem resolve_fb (first : Bool) (o : Operand) (s : State) : (resolve first o s).state.fb = s.fb := by
  rw [resolve_state]
@[simp] theorem resolve_ex (first : Bool) (o : Operand) (s : State) : (resolve first o s).state.ex = s.ex := by
  rw [resolve_state]
@[simp] theorem resolve_pc (first : Bool) (o : Operand) (s : State) : (resolve first o s).state.pc = s.pc := by
  rw [resolve_state]
@[simp] theorem resolve_ia (first : Bool) (o : Operand) (s : State) : (resolve first o s).state.ia = s.ia := by
  rw [resolve_state]
@[simp] theorem resolve_seg (first : Bool) (o : Operand) (s : State) : (resolve first o s).state.seg = s.seg := by
  rw [resolve_state]
@[simp] theorem resolve_iaqOn (first : Bool) (o : Operand) (s : State) : (resolve first o s).state.iaqOn = s.iaqOn := by
  rw [resolve_state]
@[simp] theorem resolve_queue (first : Bool) (o : Operand) (s : State) : (resolve first o s).state.queue = s.queue := by
  rw [resolve_state]
@[simp] theorem resolve_status (first : Bool) (o : Operand) (s : State) : (resolve first o s).state.status = s.status := by
  rw [resolve_state]
@[simp] theorem resolve_mem (first : Bool) (o : Operand) (s : State) : (resolve first o s).state.mem = s.mem := by
  rw [resolve_state]
@[simp] theorem resolve_arrivals (first : Bool) (o : Operand) (s : State) : (resolve first o s).state.arrivals = s.arrivals := by
  rw [resolve_state]
@[simp] theorem resolve_draws (first : Bool) (o : Operand) (s : State) : (resolve first o s).state.draws = s.draws := by
  rw [resolve_state]
@[simp] theorem resolve_cycles (first : Bool) (o : Operand) (s : State) : (resolve first o s).state.cycles = s.cycles := by
  rw [resolve_state]
@[simp] theorem resolve_reg (first : Bool) (o : Operand) (s : State) (r : Reg) :
    (resolve first o s).state.reg r = s.reg r := by cases r <;> simp [State.reg]
@[simp] theorem resolve_freg (first : Bool) (o : Operand) (s : State) (f : FReg) :
    (resolve first o s).state.freg f = s.freg f := by cases f <;> simp [State.freg]
@[simp] theorem resolve_readWord (first : Bool) (o : Operand) (s : State) (g : Seg) (x : Word) :
    (resolve first o s).state.readWord g x = s.readWord g x := readWord_congr (by simp) g x

/-- A place in RAM is in the segment current at the resolution (rules R62, R122). -/
theorem resolve_mem_seg {first : Bool} {o : Operand} {s : State} {g : Seg} {x : Word}
    (h : (resolve first o s).place = .mem g x) : g = s.seg := by
  unfold resolve at h
  cases ho : o.value <;> cases first <;> simp [ho] at h <;> exact h.1.symm

@[simp] theorem resolve2_a (a b : Operand) (s : State) : (resolve2 a b s).state.a = s.a := by
  simp [resolve2]
@[simp] theorem resolve2_b (a b : Operand) (s : State) : (resolve2 a b s).state.b = s.b := by
  simp [resolve2]
@[simp] theorem resolve2_c (a b : Operand) (s : State) : (resolve2 a b s).state.c = s.c := by
  simp [resolve2]
@[simp] theorem resolve2_i (a b : Operand) (s : State) : (resolve2 a b s).state.i = s.i := by
  simp [resolve2]
@[simp] theorem resolve2_xh (a b : Operand) (s : State) : (resolve2 a b s).state.xh = s.xh := by
  simp [resolve2]
@[simp] theorem resolve2_xl (a b : Operand) (s : State) : (resolve2 a b s).state.xl = s.xl := by
  simp [resolve2]
@[simp] theorem resolve2_yh (a b : Operand) (s : State) : (resolve2 a b s).state.yh = s.yh := by
  simp [resolve2]
@[simp] theorem resolve2_yl (a b : Operand) (s : State) : (resolve2 a b s).state.yl = s.yl := by
  simp [resolve2]
@[simp] theorem resolve2_fa (a b : Operand) (s : State) : (resolve2 a b s).state.fa = s.fa := by
  simp [resolve2]
@[simp] theorem resolve2_fb (a b : Operand) (s : State) : (resolve2 a b s).state.fb = s.fb := by
  simp [resolve2]
@[simp] theorem resolve2_ex (a b : Operand) (s : State) : (resolve2 a b s).state.ex = s.ex := by
  simp [resolve2]
@[simp] theorem resolve2_pc (a b : Operand) (s : State) : (resolve2 a b s).state.pc = s.pc := by
  simp [resolve2]
@[simp] theorem resolve2_ia (a b : Operand) (s : State) : (resolve2 a b s).state.ia = s.ia := by
  simp [resolve2]
@[simp] theorem resolve2_seg (a b : Operand) (s : State) : (resolve2 a b s).state.seg = s.seg := by
  simp [resolve2]
@[simp] theorem resolve2_iaqOn (a b : Operand) (s : State) : (resolve2 a b s).state.iaqOn = s.iaqOn := by
  simp [resolve2]
@[simp] theorem resolve2_queue (a b : Operand) (s : State) : (resolve2 a b s).state.queue = s.queue := by
  simp [resolve2]
@[simp] theorem resolve2_status (a b : Operand) (s : State) : (resolve2 a b s).state.status = s.status := by
  simp [resolve2]
@[simp] theorem resolve2_mem (a b : Operand) (s : State) : (resolve2 a b s).state.mem = s.mem := by
  simp [resolve2]
@[simp] theorem resolve2_arrivals (a b : Operand) (s : State) : (resolve2 a b s).state.arrivals = s.arrivals := by
  simp [resolve2]
@[simp] theorem resolve2_draws (a b : Operand) (s : State) : (resolve2 a b s).state.draws = s.draws := by
  simp [resolve2]
@[simp] theorem resolve2_cycles (a b : Operand) (s : State) : (resolve2 a b s).state.cycles = s.cycles := by
  simp [resolve2]
@[simp] theorem resolve2_reg (a b : Operand) (s : State) (r : Reg) : (resolve2 a b s).state.reg r = s.reg r := by
  simp [resolve2]
@[simp] theorem resolve2_freg (a b : Operand) (s : State) (f : FReg) : (resolve2 a b s).state.freg f = s.freg f := by
  simp [resolve2]
@[simp] theorem resolve2_readWord (a b : Operand) (s : State) (g : Seg) (x : Word) :
    (resolve2 a b s).state.readWord g x = s.readWord g x := by simp [resolve2]

/-- A place of either parameter in RAM is in the current segment (rule R62). -/
theorem resolve2_mem_seg {a b : Operand} {s : State} {g : Seg} {x : Word}
    (h : (resolve2 a b s).first = .mem g x ∨ (resolve2 a b s).second = .mem g x) : g = s.seg := by
  rcases h with h | h
  · exact resolve_mem_seg h
  · have := resolve_mem_seg (s := (resolve true a s).state) h
    simpa using this

@[simp] theorem writeW_ia (p : Place) (w : Word) (sg : Signedness) (s : State) : (writeW p w sg s).ia = s.ia := by
  cases p <;> simp [writeW]
@[simp] theorem writeW_seg (p : Place) (w : Word) (sg : Signedness) (s : State) : (writeW p w sg s).seg = s.seg := by
  cases p <;> simp [writeW]
@[simp] theorem writeW_iaqOn (p : Place) (w : Word) (sg : Signedness) (s : State) : (writeW p w sg s).iaqOn = s.iaqOn := by
  cases p <;> simp [writeW]
@[simp] theorem writeW_queue (p : Place) (w : Word) (sg : Signedness) (s : State) : (writeW p w sg s).queue = s.queue := by
  cases p <;> simp [writeW]
@[simp] theorem writeW_status (p : Place) (w : Word) (sg : Signedness) (s : State) : (writeW p w sg s).status = s.status := by
  cases p <;> simp [writeW]
@[simp] theorem writeW_arrivals (p : Place) (w : Word) (sg : Signedness) (s : State) : (writeW p w sg s).arrivals = s.arrivals := by
  cases p <;> simp [writeW]
@[simp] theorem writeW_draws (p : Place) (w : Word) (sg : Signedness) (s : State) : (writeW p w sg s).draws = s.draws := by
  cases p <;> simp [writeW]
@[simp] theorem writeW_cycles (p : Place) (w : Word) (sg : Signedness) (s : State) : (writeW p w sg s).cycles = s.cycles := by
  cases p <;> simp [writeW]

@[simp] theorem writeD_ia (p : Place) (v : DwordSource) (s : State) : (writeD p v s).ia = s.ia := by
  cases p <;> simp [writeD] <;> split <;> simp
@[simp] theorem writeD_seg (p : Place) (v : DwordSource) (s : State) : (writeD p v s).seg = s.seg := by
  cases p <;> simp [writeD] <;> split <;> simp
@[simp] theorem writeD_iaqOn (p : Place) (v : DwordSource) (s : State) : (writeD p v s).iaqOn = s.iaqOn := by
  cases p <;> simp [writeD] <;> split <;> simp
@[simp] theorem writeD_queue (p : Place) (v : DwordSource) (s : State) : (writeD p v s).queue = s.queue := by
  cases p <;> simp [writeD] <;> split <;> simp
@[simp] theorem writeD_status (p : Place) (v : DwordSource) (s : State) : (writeD p v s).status = s.status := by
  cases p <;> simp [writeD] <;> split <;> simp
@[simp] theorem writeD_arrivals (p : Place) (v : DwordSource) (s : State) : (writeD p v s).arrivals = s.arrivals := by
  cases p <;> simp [writeD] <;> split <;> simp
@[simp] theorem writeD_draws (p : Place) (v : DwordSource) (s : State) : (writeD p v s).draws = s.draws := by
  cases p <;> simp [writeD] <;> split <;> simp
@[simp] theorem writeD_cycles (p : Place) (v : DwordSource) (s : State) : (writeD p v s).cycles = s.cycles := by
  cases p <;> simp [writeD] <;> split <;> simp

@[simp] theorem writeF_ia (p : Place) (v : Dword) (s : State) : (writeF p v s).ia = s.ia := by
  cases p <;> simp [writeF]
@[simp] theorem writeF_seg (p : Place) (v : Dword) (s : State) : (writeF p v s).seg = s.seg := by
  cases p <;> simp [writeF]
@[simp] theorem writeF_iaqOn (p : Place) (v : Dword) (s : State) : (writeF p v s).iaqOn = s.iaqOn := by
  cases p <;> simp [writeF]
@[simp] theorem writeF_queue (p : Place) (v : Dword) (s : State) : (writeF p v s).queue = s.queue := by
  cases p <;> simp [writeF]
@[simp] theorem writeF_status (p : Place) (v : Dword) (s : State) : (writeF p v s).status = s.status := by
  cases p <;> simp [writeF]
@[simp] theorem writeF_arrivals (p : Place) (v : Dword) (s : State) : (writeF p v s).arrivals = s.arrivals := by
  cases p <;> simp [writeF]
@[simp] theorem writeF_draws (p : Place) (v : Dword) (s : State) : (writeF p v s).draws = s.draws := by
  cases p <;> simp [writeF]
@[simp] theorem writeF_cycles (p : Place) (v : Dword) (s : State) : (writeF p v s).cycles = s.cycles := by
  cases p <;> simp [writeF]

@[simp] theorem writeFS_ia (p : Place) (v : Dword) (s : State) : (writeFS p v s).ia = s.ia := by
  cases p <;> simp [writeFS]
@[simp] theorem writeFS_seg (p : Place) (v : Dword) (s : State) : (writeFS p v s).seg = s.seg := by
  cases p <;> simp [writeFS]
@[simp] theorem writeFS_iaqOn (p : Place) (v : Dword) (s : State) : (writeFS p v s).iaqOn = s.iaqOn := by
  cases p <;> simp [writeFS]
@[simp] theorem writeFS_queue (p : Place) (v : Dword) (s : State) : (writeFS p v s).queue = s.queue := by
  cases p <;> simp [writeFS]
@[simp] theorem writeFS_status (p : Place) (v : Dword) (s : State) : (writeFS p v s).status = s.status := by
  cases p <;> simp [writeFS]
@[simp] theorem writeFS_arrivals (p : Place) (v : Dword) (s : State) : (writeFS p v s).arrivals = s.arrivals := by
  cases p <;> simp [writeFS]
@[simp] theorem writeFS_draws (p : Place) (v : Dword) (s : State) : (writeFS p v s).draws = s.draws := by
  cases p <;> simp [writeFS]
@[simp] theorem writeFS_cycles (p : Place) (v : Dword) (s : State) : (writeFS p v s).cycles = s.cycles := by
  cases p <;> simp [writeFS]

/-- A write of one general register is the frame of that place. -/
theorem frame_setReg {p : Place} {both two : Bool} {r : Reg} (h : p.storesReg both r = true) (w : Word) (s : State) :
    OnlyPlaceChanged both two p s (s.setReg r w) := by
  refine ⟨fun x hx => ?_, fun f _ => by simp, fun _ => by simp, fun _ => by simp, fun _ => by simp,
    by simp [SameControl], fun g x _ => by simp⟩
  have hne : x ≠ r := by
    rintro rfl
    simp [h] at hx
  simp [hne]

theorem frame_setDreg (d : DReg) (two : Bool) (v : Dword) (s : State) :
    OnlyPlaceChanged true two (.reg32 d) s (s.setDreg d v) := by
  refine ⟨fun x hx => ?_, fun f _ => by simp, fun _ => by simp, fun _ => by simp, fun _ => by simp,
    by simp [SameControl], fun g x _ => by simp⟩
  simp [Place.storesReg] at hx
  simp [reg_setDreg, hx]

theorem frame_setFreg (f : FReg) (both two : Bool) (v : Dword) (s : State) :
    OnlyPlaceChanged both two (.regF f) s (s.setFreg f v) := by
  refine ⟨fun x _ => by simp, fun f' hf => ?_, fun _ => by simp, fun _ => by simp, fun _ => by simp,
    by simp [SameControl], fun g x _ => by simp⟩
  have hne : f' ≠ f := fun e => hf (by rw [e])
  simp [hne]

theorem frame_writeWord {g : Seg} {y x : Word} {two : Bool} (h : (Place.mem g y).storesWord two g x = true)
    (both : Bool) (w : Word) (s : State) : OnlyPlaceChanged both two (.mem g y) s (s.writeWord g x w) := by
  refine ⟨fun x _ => by simp, fun f' _ => by simp, fun _ => by simp, fun _ => by simp, fun _ => by simp,
    by simp [SameControl], fun g' x' hx => ?_⟩
  rw [readWord_writeWord, if_neg]
  rintro ⟨rfl, rfl⟩
  simp [h] at hx

theorem frame_writeDword (g : Seg) (y : Word) (both : Bool) (d : Dword) (s : State) :
    OnlyPlaceChanged both true (.mem g y) s (s.writeDword g y d) := by
  refine ⟨fun x _ => by simp, fun f' _ => by simp, fun _ => by simp, fun _ => by simp, fun _ => by simp,
    by simp [SameControl], fun g' x' hx => ?_⟩
  simp [Place.storesWord] at hx
  rw [readWord_writeDword, if_neg (fun e => (hx e.1).2 e.2), if_neg (fun e => (hx e.1).1 e.2)]

theorem frame_ex (both two : Bool) (w : Word) (s : State) :
    OnlyPlaceChanged both two .ex s { s with ex := w } :=
  ⟨fun x _ => by cases x <;> rfl, fun f _ => by cases f <;> rfl, fun h => absurd rfl h, fun _ => rfl, fun _ => rfl,
    ⟨rfl, rfl, rfl, rfl, rfl, rfl⟩, fun _ _ _ => rfl⟩

theorem frame_pc (both two : Bool) (w : Word) (s : State) :
    OnlyPlaceChanged both two .pc s { s with pc := w } :=
  ⟨fun x _ => by cases x <;> rfl, fun f _ => by cases f <;> rfl, fun _ => rfl, fun h => absurd rfl h, fun _ => rfl,
    ⟨rfl, rfl, rfl, rfl, rfl, rfl⟩, fun _ _ _ => rfl⟩

theorem frame_sp (both two : Bool) (w : Word) (s : State) :
    OnlyPlaceChanged both two .sp s { s with sp := w } :=
  ⟨fun x _ => by cases x <;> rfl, fun f _ => by cases f <;> rfl, fun _ => rfl, fun _ => rfl, fun h => absurd rfl h,
    ⟨rfl, rfl, rfl, rfl, rfl, rfl⟩, fun _ _ _ => rfl⟩

theorem frame_refl (both two : Bool) (p : Place) (s : State) : OnlyPlaceChanged both two p s s :=
  ⟨fun _ _ => rfl, fun _ _ => rfl, fun _ => rfl, fun _ => rfl, fun _ => rfl, ⟨rfl, rfl, rfl, rfl, rfl, rfl⟩,
    fun _ _ _ => rfl⟩

/-- A write in domain W changes nothing but its place: one register, the low half of a dword register, one word
(rule R135). -/
theorem writeW_frame (p : Place) (w : Word) (sg : Signedness) (s : State) :
    OnlyPlaceChanged false false p s (writeW p w sg s) := by
  cases p with
  | reg16 r => exact frame_setReg (by simp [Place.storesReg]) w s
  | reg32 d => exact frame_setReg (by simp [Place.storesReg]) w s
  | regF f => exact frame_setFreg f _ _ _ s
  | mem g x => exact frame_writeWord (by simp [Place.storesWord]) _ w s
  | ex => exact frame_ex _ _ w s
  | pc => exact frame_pc _ _ w s
  | sp => exact frame_sp _ _ w s
  | lit _ => exact frame_refl _ _ _ s

/-- A write in domain D changes nothing but its place: one register, both halves of a dword register, two words of
RAM (rule R137). -/
theorem writeD_frame (p : Place) (v : DwordSource) (s : State) :
    OnlyPlaceChanged true true p s (writeD p v s) := by
  cases p with
  | reg16 r => exact frame_setReg (by simp [Place.storesReg]) _ s
  | reg32 d =>
    cases h : v.only16
    · simpa [writeD, h] using frame_setDreg d true v.value s
    · simpa [writeD, h] using frame_setReg (p := .reg32 d) (by simp [Place.storesReg]) (lo16 v.value) s
  | regF f => exact frame_setFreg f _ _ _ s
  | mem g x =>
    cases h : v.only16
    · simpa [writeD, h] using frame_writeDword g x true v.value s
    · simpa [writeD, h] using frame_writeWord (y := x) (two := true) (by simp [Place.storesWord]) true (lo16 v.value) s
  | ex => exact frame_ex _ _ _ s
  | pc => exact frame_pc _ _ _ s
  | sp => exact frame_sp _ _ _ s
  | lit _ => exact frame_refl _ _ _ s

/-- A write in domain F changes nothing but its place: one register, both halves of a dword register, one word of
RAM (rule R139). -/
theorem writeF_frame (p : Place) (v : Dword) (s : State) : OnlyPlaceChanged true false p s (writeF p v s) := by
  cases p with
  | reg16 r => exact frame_setReg (by simp [Place.storesReg]) _ s
  | reg32 d => exact frame_setDreg d _ _ s
  | regF f => exact frame_setFreg f _ _ _ s
  | mem g x => exact frame_writeWord (by simp [Place.storesWord]) _ _ s
  | ex => exact frame_ex _ _ _ s
  | pc => exact frame_pc _ _ _ s
  | sp => exact frame_sp _ _ _ s
  | lit _ => exact frame_refl _ _ _ s

/-- A write in domain FS changes nothing but its place: one register, both halves of a dword register, two words of
RAM (rule R141). -/
theorem writeFS_frame (p : Place) (v : Dword) (s : State) : OnlyPlaceChanged true true p s (writeFS p v s) := by
  cases p with
  | reg16 r => exact frame_setReg (by simp [Place.storesReg]) _ s
  | reg32 d => exact frame_setDreg d _ _ s
  | regF f => exact frame_setFreg f _ _ _ s
  | mem g x => exact frame_writeDword g x _ _ s
  | ex => exact frame_ex _ _ _ s
  | pc => exact frame_pc _ _ _ s
  | sp => exact frame_sp _ _ _ s
  | lit _ => exact frame_refl _ _ _ s

/-! ### The canonical form of RAM -/

theorem wf_writeW {s : State} (h : s.mem.wf) (p : Place) (w : Word) (sg : Signedness) : (writeW p w sg s).mem.wf := by
  cases p <;> simp only [writeW, setReg_mem, setFreg_mem] <;> first | exact h | exact wf_writeWord h _ _ _

theorem wf_writeD {s : State} (h : s.mem.wf) (p : Place) (v : DwordSource) : (writeD p v s).mem.wf := by
  cases hv : v.only16 <;> cases p <;> simp only [writeD, hv, setReg_mem, setDreg_mem, setFreg_mem, if_true, reduceIte,
    Bool.false_eq_true] <;> first | exact h | exact wf_writeWord h _ _ _ | exact wf_writeDword h _ _ _

theorem wf_writeF {s : State} (h : s.mem.wf) (p : Place) (v : Dword) : (writeF p v s).mem.wf := by
  cases p <;> simp only [writeF, setReg_mem, setDreg_mem, setFreg_mem] <;> first | exact h | exact wf_writeWord h _ _ _

theorem wf_writeFS {s : State} (h : s.mem.wf) (p : Place) (v : Dword) : (writeFS p v s).mem.wf := by
  cases p <;> simp only [writeFS, setReg_mem, setDreg_mem, setFreg_mem] <;>
    first | exact h | exact wf_writeDword h _ _ _

end Sys2Proof.Machine
end

