-- ==== Sys2Proof/Laws/Machine.lean ====
section
/-! SUPPORT. What each shared operation of the machine can do, said once: skips, the stack, the queue, devices, the
boundary, and one step. -/

namespace Sys2Proof.Machine

/-! ### Skips -/

/-- One turn of the skip loop (rule R171). -/
theorem skipLoop_succ (n : Nat) (s : State) :
    skipLoop (n + 1) s =
      match s.fetch with
      | .error e => .fault (s.faultOf e)
      | .ok i =>
        if i.isConditional then skipLoop n { s.passWords i with cycles := s.cycles + 1 }
        else .next { s.passWords i with cycles := s.cycles + 1 } := rfl

/-- A skip changes PC and spends cycles, and does nothing else (rules R171, R391). -/
theorem skipLoop_frame {n : Nat} {s t : State} (h : skipLoop n s = .next t) :
    t = { s with pc := t.pc, cycles := t.cycles } := by
  induction n generalizing s with
  | zero => cases h
  | succ n ih =>
    rw [skipLoop_succ] at h
    split at h
    · cases h
    · split at h
      · rw [ih h]
        rfl
      · cases h
        rfl

theorem skip_frame {s t : State} (h : s.skip = .next t) : t = { s with pc := t.pc, cycles := t.cycles } :=
  skipLoop_frame h

/-! ### The stack -/

/-- A push in full: SP, and one word of the current segment (rules R10, R29). -/
theorem push_eq (s : State) (w : Word) :
    s.push w = { s with sp := s.sp - 1, mem := s.mem.set (flatAddress s.seg (s.sp - 1)) w } := rfl

theorem wf_pushAll {s : State} (h : s.mem.wf) : s.pushAll.mem.wf := by
  unfold State.pushAll
  iterate 8 apply wf_push
  exact h

@[simp] theorem popReg_mem (s : State) (r : Reg) : (s.popReg r).mem = s.mem := by simp [State.popReg]
@[simp] theorem popReg_sp (s : State) (r : Reg) : (s.popReg r).sp = s.sp + 1 := by simp [State.popReg]
@[simp] theorem popReg_seg (s : State) (r : Reg) : (s.popReg r).seg = s.seg := by simp [State.popReg]
@[simp] theorem popReg_queue (s : State) (r : Reg) : (s.popReg r).queue = s.queue := by simp [State.popReg]
@[simp] theorem popReg_status (s : State) (r : Reg) : (s.popReg r).status = s.status := by simp [State.popReg]
@[simp] theorem popReg_pc (s : State) (r : Reg) : (s.popReg r).pc = s.pc := by simp [State.popReg]

/-- A register after a pop: the word at SP, or what it held. -/
@[simp] theorem reg_popReg (s : State) (r r' : Reg) :
    (s.popReg r).reg r' = if r' = r then s.readWord s.seg s.sp else s.reg r' := by
  simp [State.popReg, State.top]

@[simp] theorem readWord_popReg (s : State) (r : Reg) (g : Seg) (x : Word) :
    (s.popReg r).readWord g x = s.readWord g x := readWord_congr (by simp) g x

/-- A push changes SP and RAM, and nothing else. -/
theorem push_frame (s : State) (w : Word) : s.push w = { s with sp := s.sp - 1, mem := (s.push w).mem } := rfl

/-- A push after changes of SP and RAM alone is one more such change. -/
theorem push_frame_of {s u : State} (h : u = { s with sp := u.sp, mem := u.mem }) (w : Word) :
    u.push w = { s with sp := u.sp - 1, mem := (u.push w).mem } := by
  rw [push_frame]
  generalize (u.push w).mem = m
  generalize u.sp - 1 = x
  rw [h]

/-- The eight pushes change SP and RAM, and nothing else (rule R316). -/
theorem pushAll_frame (s : State) : s.pushAll = { s with sp := s.sp - 8, mem := s.pushAll.mem } := by
  have h : s.sp - 1 - 1 - 1 - 1 - 1 - 1 - 1 - 1 = s.sp - 8 := by simp only [BitVec.sub_sub]; rfl
  rw [← h]
  exact push_frame_of (push_frame_of (push_frame_of (push_frame_of (push_frame_of (push_frame_of (push_frame_of
    (push_frame s s.a) _) _) _) _) _) _) _

/-- The pop of each general register, in full. -/
theorem popReg_eqs (s : State) :
    s.popReg .a = { s with a := s.readWord s.seg s.sp, sp := s.sp + 1 } ∧
      s.popReg .b = { s with b := s.readWord s.seg s.sp, sp := s.sp + 1 } ∧
      s.popReg .c = { s with c := s.readWord s.seg s.sp, sp := s.sp + 1 } ∧
      s.popReg .i = { s with i := s.readWord s.seg s.sp, sp := s.sp + 1 } ∧
      s.popReg .xh = { s with xh := s.readWord s.seg s.sp, sp := s.sp + 1 } ∧
      s.popReg .xl = { s with xl := s.readWord s.seg s.sp, sp := s.sp + 1 } ∧
      s.popReg .yh = { s with yh := s.readWord s.seg s.sp, sp := s.sp + 1 } ∧
      s.popReg .yl = { s with yl := s.readWord s.seg s.sp, sp := s.sp + 1 } :=
  ⟨rfl, rfl, rfl, rfl, rfl, rfl, rfl, rfl⟩

/-- The eight pops change the eight registers and SP, and nothing else (rule R317). -/
theorem popAll_frame (s : State) :
    s.popAll = { s with
      a := s.popAll.a, b := s.popAll.b, c := s.popAll.c, i := s.popAll.i, xh := s.popAll.xh, xl := s.popAll.xl
      yh := s.popAll.yh, yl := s.popAll.yl, sp := s.sp + 8 } := by
  have h : s.sp + 1 + 1 + 1 + 1 + 1 + 1 + 1 + 1 = s.sp + 8 := by simp only [BitVec.add_assoc]; rfl
  simp only [State.popAll, popReg_eqs, h]

/-- The call of MOVH, MOVL and MOVT changes SEG, PC, SP and RAM, and nothing else (rules R273 to R276). -/
theorem moveCall_frame (s : State) (g : Seg) (v : Word) :
    s.moveCall g v = { s with seg := g, pc := v, sp := s.sp - 1 - 1, mem := (s.moveCall g v).mem } := rfl

/-! ### The queue and the devices -/

/-- Messages that enter the queue change the queue and the status, and nothing else (rules R333, R334). -/
theorem enqueueAll_frame (ms : List Word) (s : State) :
    s.enqueueAll ms = { s with queue := (s.enqueueAll ms).queue, status := (s.enqueueAll ms).status } := by
  induction ms generalizing s with
  | nil => rfl
  | cons m rest ih =>
    unfold State.enqueueAll
    split
    · rw [ih]
      simp only [enqueue_a, enqueue_b, enqueue_c, enqueue_i, enqueue_xh, enqueue_xl, enqueue_yh, enqueue_yl, enqueue_fa,
        enqueue_fb, enqueue_ex, enqueue_pc, enqueue_sp, enqueue_ia, enqueue_seg, enqueue_iaqOn, enqueue_mem,
        enqueue_arrivals, enqueue_draws, enqueue_cycles]
    · rfl

/-- Messages that fit join the end of the queue in order (rules R333, R335). -/
theorem enqueueAll_fits {ms : List Word} {s : State} (hs : s.status = .running)
    (h : s.queue.length + ms.length ≤ Config.queueMax) :
    s.enqueueAll ms = { s with queue := s.queue ++ ms } := by
  induction ms generalizing s with
  | nil => simp [State.enqueueAll]
  | cons m rest ih =>
    have hl : s.queue.length + 1 + rest.length ≤ Config.queueMax := by simpa [Nat.add_assoc, Nat.add_comm 1] using h
    have he : s.enqueue m = { s with queue := s.queue ++ [m] } := by
      simp only [State.enqueue, List.length_append, List.length_singleton]
      rw [if_neg (by omega)]
    have hr : (s.enqueue m).status = .running := by rw [he]; exact hs
    have hq : (s.enqueue m).queue.length + rest.length ≤ Config.queueMax := by simpa [he] using hl
    unfold State.enqueueAll
    rw [hs]
    dsimp only
    rw [ih hr hq, he]
    simp [hs]

/-- Whatever enters the queue, a machine that still runs holds at most 256 messages (rules R33, R334). -/
theorem enqueue_bound (s : State) (m : Word) (h : (s.enqueue m).status = .running) :
    (s.enqueue m).queue.length ≤ Config.queueMax := by
  unfold State.enqueue at *
  dsimp only at *
  split at h
  · cases h
  · rename_i hl
    rw [if_neg hl]
    simpa using hl

/-- Messages only join the end of the queue (rules R333, R353). -/
theorem enqueueAll_appends (ms : List Word) (s : State) : ∃ sent, (s.enqueueAll ms).queue = s.queue ++ sent := by
  induction ms generalizing s with
  | nil => exact ⟨[], by simp [State.enqueueAll]⟩
  | cons m rest ih =>
    unfold State.enqueueAll
    split
    · obtain ⟨sent, h⟩ := ih (s.enqueue m)
      have hq : (s.enqueue m).queue = s.queue ++ [m] := by
        unfold State.enqueue
        dsimp only
        split <;> rfl
      exact ⟨m :: sent, by rw [h, hq]; simp⟩
    · exact ⟨[], by simp⟩

theorem enqueueAll_bound {ms : List Word} {s : State} (hq : s.status = .running → s.queue.length ≤ Config.queueMax)
    (h : (s.enqueueAll ms).status = .running) : (s.enqueueAll ms).queue.length ≤ Config.queueMax := by
  induction ms generalizing s with
  | nil => exact hq h
  | cons m rest ih =>
    cases hr : s.status with
    | running =>
      have he : s.enqueueAll (m :: rest) = (s.enqueue m).enqueueAll rest := by simp [State.enqueueAll, hr]
      rw [he] at h ⊢
      exact ih (enqueue_bound s m) h
    | onFire r => simp [State.enqueueAll, hr] at h

/-- The stores of a device change RAM alone. -/
theorem storeAll_frame (l : List (Seg × Word × Word)) (s : State) :
    s.storeAll l = { s with mem := (s.storeAll l).mem } := by
  induction l generalizing s with
  | nil => rfl
  | cons x rest ih =>
    obtain ⟨g, addr, w⟩ := x
    simp only [State.storeAll]
    rw [ih]
    rfl

theorem wf_storeAll {l : List (Seg × Word × Word)} {s : State} (h : s.mem.wf) : (s.storeAll l).mem.wf := by
  induction l generalizing s with
  | nil => exact h
  | cons x rest ih => exact ih (wf_writeWord h _ _ _)

/-- A device's reaction leaves the segment, the queueing flag and the inputs, keeps the canonical form of RAM, and
changes the status only by an overflow (rule R296). -/
theorem react_frame (s : State) (r : DeviceReaction) :
    (s.react r).seg = s.seg ∧ (s.react r).iaqOn = s.iaqOn ∧ (s.react r).arrivals = s.arrivals ∧
      (s.mem.wf → (s.react r).mem.wf) := by
  unfold State.react
  rw [enqueueAll_frame, storeAll_frame]
  exact ⟨rfl, rfl, rfl, fun h => wf_storeAll h⟩

/-- HWQ's action changes DX, DY and C, and nothing else (rule R293). -/
theorem queryDevice_frame (s : State) (v : Word) :
    s.queryDevice v = { s with
      xh := (s.queryDevice v).xh, xl := (s.queryDevice v).xl, yh := (s.queryDevice v).yh, yl := (s.queryDevice v).yl
      c := (s.queryDevice v).c } := rfl

/-- HWI's action in its two cases (rule R296). -/
theorem interruptDevice_cases (s : State) (v : Word) :
    s.interruptDevice v = s ∨ ∃ r, s.interruptDevice v = s.react r := by
  unfold State.interruptDevice
  split
  · exact .inr ⟨_, rfl⟩
  · exact .inl rfl

/-! ### The boundary -/

/-- Nothing arrives past the end of the schedule. -/
@[simp] theorem arriving_idle {s : State} (h : s.arrivals = []) : s.arriving = [] := by
  simp [State.arriving, h]

/-- Nothing arrives where no device is connected (rule R352). -/
theorem arriving_no_device (s : State) (h : Config.deviceCount = 0) : s.arriving = [] := by
  unfold State.arriving
  split
  · rfl
  · exact if_pos h

/-- Where a device is connected, the scheduled messages arrive. -/
theorem arriving_device {s : State} {now : List Word} {later : List (List Word)} (h : s.arrivals = now :: later)
    (hd : Config.deviceCount ≠ 0) : s.arriving = now := by
  unfold State.arriving
  rw [h]
  exact if_neg hd

/-- The arrivals of a boundary change the schedule, the queue and the status, and nothing else (rule R352). -/
theorem arrive_frame (s : State) :
    s.arrive = { s with arrivals := s.arrivals.tail, queue := s.arrive.queue, status := s.arrive.status } := by
  unfold State.arrive
  rw [enqueueAll_frame]

/-- A boundary at which nothing arrives only moves the schedule on. -/
theorem arrive_nothing {s : State} (h : s.arriving = []) : s.arrive = { s with arrivals := s.arrivals.tail } := by
  simp [State.arrive, h, State.enqueueAll]

/-- With no schedule left, the arrivals of a boundary change nothing. -/
@[simp] theorem arrive_idle {s : State} (h : s.arrivals = []) : s.arrive = s := by
  rw [arrive_nothing (arriving_idle h), h, List.tail_nil, ← h]

/-- Arrivals that fit join the end of the queue in order (rules R333, R335, R352). -/
theorem arrive_fits {s : State} (hs : s.status = .running)
    (h : s.queue.length + s.arriving.length ≤ Config.queueMax) :
    s.arrive = { s with arrivals := s.arrivals.tail, queue := s.queue ++ s.arriving } :=
  enqueueAll_fits (s := { s with arrivals := s.arrivals.tail }) hs h

/-- The three things the delivery check of a boundary can do (rule R336). -/
theorem deliver_cases (s : State) :
    ((s.status ≠ .running ∨ s.iaqOn = true ∨ s.queue = []) ∧ s.deliver = s) ∨
      ∃ m rest, s.status = .running ∧ s.iaqOn = false ∧ s.queue = m :: rest ∧
        ((s.ia = 0 ∧ s.deliver = { s with queue := rest }) ∨
          (s.ia ≠ 0 ∧ s.deliver = { s with queue := rest }.enterInterrupt m)) := by
  unfold State.deliver
  cases hs : s.status with
  | onFire r => exact .inl ⟨.inl (by simp), rfl⟩
  | running =>
    cases hi : s.iaqOn with
    | true => exact .inl ⟨.inr (.inl rfl), rfl⟩
    | false =>
      cases hq : s.queue with
      | nil => exact .inl ⟨.inr (.inr rfl), rfl⟩
      | cons m rest =>
        refine .inr ⟨m, rest, rfl, rfl, rfl, ?_⟩
        by_cases ha : s.ia = 0
        · exact .inl ⟨ha, by simp [ha]⟩
        · exact .inr ⟨ha, by simp only [if_neg ha]⟩

/-- Taking an interrupt in full (rule R337). -/
theorem enterInterrupt_eq (s : State) (m : Word) :
    s.enterInterrupt m =
      { s with
        iaqOn := true, pc := s.ia, a := m, sp := s.sp - 1 - 1
        mem := (s.mem.set (flatAddress s.seg (s.sp - 1)) s.pc).set (flatAddress s.seg (s.sp - 1 - 1)) s.a
        cycles := s.cycles + Config.entryCycles } := rfl

/-- The return from an interrupt in full (rule R290). -/
theorem returnFromInterrupt_eq (s : State) :
    s.returnFromInterrupt =
      { s with
        iaqOn := false, a := s.readWord s.seg s.sp, pc := s.readWord s.seg (s.sp + 1), sp := s.sp + 1 + 1 } := rfl

/-! ### One step -/

/-- What a step that answers a next state did (rule R11): the machine ran, and either the arrivals of the boundary set
it on fire, or the instruction at PC after the boundary was performed. -/
theorem step_cases {s t : State} (h : step s = .next t) :
    s.status = .running ∧
      ((∃ r, s.boundary.status = .onFire r ∧ t = s.boundary) ∨
        (s.boundary.status = .running ∧
          ∃ i, s.boundary.fetch = .ok i ∧ exec i ((s.boundary.passWords i).spend (instrCycles i)) = .next t)) := by
  unfold step at h
  cases hs : s.status with
  | onFire r => simp [hs] at h
  | running =>
    refine ⟨rfl, ?_⟩
    simp only [hs] at h
    cases hb : s.boundary.status with
    | onFire r =>
      simp only [hb, Host.Outcome.next.injEq] at h
      exact .inl ⟨r, rfl, h.symm⟩
    | running =>
      simp only [hb] at h
      cases hf : s.boundary.fetch with
      | error e => simp [hf] at h
      | ok i =>
        simp only [hf] at h
        exact .inr ⟨rfl, i, rfl, h⟩

end Sys2Proof.Machine
end

