-- ==== Sys2Proof/Laws/PerInstr.lean ====
section
/-! SUPPORT. The family of statements made for every instruction as syntax: an instruction is encoded in as many
words as its length says, one to five (rule R99). -/

namespace Sys2Proof.Laws

/-- A value's next words are as many as rule R99 counts. -/
theorem value_words_length (v : Value) : v.words.length = v.nextWords := by cases v <;> rfl

/-- An operand's words are as many as its length says. -/
theorem operand_words_length (o : Operand) : o.words.length = o.length := by
  unfold Operand.words Operand.length
  split <;> simp [value_words_length, Nat.add_comm]

/-- An operand owns at most two words. -/
theorem operand_length_le (o : Operand) : o.length ≤ 2 := by
  have h : o.value.nextWords ≤ 1 := by cases o.value <;> simp [Value.nextWords]
  unfold Operand.length
  split <;> omega

/-- The encoding of an instruction has the length of the instruction, at least one word and at most five. -/
def EncodedLength.Statement (i : Instr) : Prop :=
  (encode i).length = i.length ∧ 1 ≤ i.length ∧ i.length ≤ 5

/-- The bound that the words of two operands give. -/
theorem two_operands {ws : List Word} {a b : Operand} {l : Nat} (hl : l = 1 + (a.length + b.length))
    (hw : ws.length = 1 + (a.words ++ b.words).length) : ws.length = l ∧ 1 ≤ l ∧ l ≤ 5 := by
  have ha := operand_length_le a
  have hb := operand_length_le b
  simp only [List.length_append, operand_words_length] at hw
  omega

/-- The bound that the words of one operand give. -/
theorem one_operand {ws : List Word} {c : Operand} {l : Nat} (hl : l = 1 + c.length)
    (hw : ws.length = 1 + c.words.length) : ws.length = l ∧ 1 ≤ l ∧ l ≤ 5 := by
  have hc := operand_length_le c
  rw [operand_words_length] at hw
  omega

theorem EncodedLength.ifb (a b : Operand) : EncodedLength.Statement (.ifb a b) :=
  two_operands (a := a) (b := b) (by simp [Instr.length, Instr.operands]) (by simp [encode, encodeBasic, Nat.add_comm])
theorem EncodedLength.ifc (a b : Operand) : EncodedLength.Statement (.ifc a b) :=
  two_operands (a := a) (b := b) (by simp [Instr.length, Instr.operands]) (by simp [encode, encodeBasic, Nat.add_comm])
theorem EncodedLength.ife (a b : Operand) : EncodedLength.Statement (.ife a b) :=
  two_operands (a := a) (b := b) (by simp [Instr.length, Instr.operands]) (by simp [encode, encodeBasic, Nat.add_comm])
theorem EncodedLength.ifn (a b : Operand) : EncodedLength.Statement (.ifn a b) :=
  two_operands (a := a) (b := b) (by simp [Instr.length, Instr.operands]) (by simp [encode, encodeBasic, Nat.add_comm])
theorem EncodedLength.ifg (a b : Operand) : EncodedLength.Statement (.ifg a b) :=
  two_operands (a := a) (b := b) (by simp [Instr.length, Instr.operands]) (by simp [encode, encodeBasic, Nat.add_comm])
theorem EncodedLength.ifa (a b : Operand) : EncodedLength.Statement (.ifa a b) :=
  two_operands (a := a) (b := b) (by simp [Instr.length, Instr.operands]) (by simp [encode, encodeBasic, Nat.add_comm])
theorem EncodedLength.ifl (a b : Operand) : EncodedLength.Statement (.ifl a b) :=
  two_operands (a := a) (b := b) (by simp [Instr.length, Instr.operands]) (by simp [encode, encodeBasic, Nat.add_comm])
theorem EncodedLength.ifu (a b : Operand) : EncodedLength.Statement (.ifu a b) :=
  two_operands (a := a) (b := b) (by simp [Instr.length, Instr.operands]) (by simp [encode, encodeBasic, Nat.add_comm])
theorem EncodedLength.sti (a b : Operand) : EncodedLength.Statement (.sti a b) :=
  two_operands (a := a) (b := b) (by simp [Instr.length, Instr.operands]) (by simp [encode, encodeBasic, Nat.add_comm])
theorem EncodedLength.std (a b : Operand) : EncodedLength.Statement (.std a b) :=
  two_operands (a := a) (b := b) (by simp [Instr.length, Instr.operands]) (by simp [encode, encodeBasic, Nat.add_comm])
theorem EncodedLength.add (a b : Operand) : EncodedLength.Statement (.add a b) :=
  two_operands (a := a) (b := b) (by simp [Instr.length, Instr.operands]) (by simp [encode, encodeBasic, Nat.add_comm])
theorem EncodedLength.sub (a b : Operand) : EncodedLength.Statement (.sub a b) :=
  two_operands (a := a) (b := b) (by simp [Instr.length, Instr.operands]) (by simp [encode, encodeBasic, Nat.add_comm])
theorem EncodedLength.mul (a b : Operand) : EncodedLength.Statement (.mul a b) :=
  two_operands (a := a) (b := b) (by simp [Instr.length, Instr.operands]) (by simp [encode, encodeBasic, Nat.add_comm])
theorem EncodedLength.mli (a b : Operand) : EncodedLength.Statement (.mli a b) :=
  two_operands (a := a) (b := b) (by simp [Instr.length, Instr.operands]) (by simp [encode, encodeBasic, Nat.add_comm])
theorem EncodedLength.div (a b : Operand) : EncodedLength.Statement (.div a b) :=
  two_operands (a := a) (b := b) (by simp [Instr.length, Instr.operands]) (by simp [encode, encodeBasic, Nat.add_comm])
theorem EncodedLength.dvi (a b : Operand) : EncodedLength.Statement (.dvi a b) :=
  two_operands (a := a) (b := b) (by simp [Instr.length, Instr.operands]) (by simp [encode, encodeBasic, Nat.add_comm])
theorem EncodedLength.mod (a b : Operand) : EncodedLength.Statement (.mod a b) :=
  two_operands (a := a) (b := b) (by simp [Instr.length, Instr.operands]) (by simp [encode, encodeBasic, Nat.add_comm])
theorem EncodedLength.mdi (a b : Operand) : EncodedLength.Statement (.mdi a b) :=
  two_operands (a := a) (b := b) (by simp [Instr.length, Instr.operands]) (by simp [encode, encodeBasic, Nat.add_comm])
theorem EncodedLength.and (a b : Operand) : EncodedLength.Statement (.and a b) :=
  two_operands (a := a) (b := b) (by simp [Instr.length, Instr.operands]) (by simp [encode, encodeBasic, Nat.add_comm])
theorem EncodedLength.bor (a b : Operand) : EncodedLength.Statement (.bor a b) :=
  two_operands (a := a) (b := b) (by simp [Instr.length, Instr.operands]) (by simp [encode, encodeBasic, Nat.add_comm])
theorem EncodedLength.xor (a b : Operand) : EncodedLength.Statement (.xor a b) :=
  two_operands (a := a) (b := b) (by simp [Instr.length, Instr.operands]) (by simp [encode, encodeBasic, Nat.add_comm])
theorem EncodedLength.shr (a b : Operand) : EncodedLength.Statement (.shr a b) :=
  two_operands (a := a) (b := b) (by simp [Instr.length, Instr.operands]) (by simp [encode, encodeBasic, Nat.add_comm])
theorem EncodedLength.asr (a b : Operand) : EncodedLength.Statement (.asr a b) :=
  two_operands (a := a) (b := b) (by simp [Instr.length, Instr.operands]) (by simp [encode, encodeBasic, Nat.add_comm])
theorem EncodedLength.shl (a b : Operand) : EncodedLength.Statement (.shl a b) :=
  two_operands (a := a) (b := b) (by simp [Instr.length, Instr.operands]) (by simp [encode, encodeBasic, Nat.add_comm])
theorem EncodedLength.adx (a b : Operand) : EncodedLength.Statement (.adx a b) :=
  two_operands (a := a) (b := b) (by simp [Instr.length, Instr.operands]) (by simp [encode, encodeBasic, Nat.add_comm])
theorem EncodedLength.sbx (a b : Operand) : EncodedLength.Statement (.sbx a b) :=
  two_operands (a := a) (b := b) (by simp [Instr.length, Instr.operands]) (by simp [encode, encodeBasic, Nat.add_comm])
theorem EncodedLength.fadd (a b : Operand) : EncodedLength.Statement (.fadd a b) :=
  two_operands (a := a) (b := b) (by simp [Instr.length, Instr.operands]) (by simp [encode, encodeFloat, Nat.add_comm])
theorem EncodedLength.fsub (a b : Operand) : EncodedLength.Statement (.fsub a b) :=
  two_operands (a := a) (b := b) (by simp [Instr.length, Instr.operands]) (by simp [encode, encodeFloat, Nat.add_comm])
theorem EncodedLength.fmul (a b : Operand) : EncodedLength.Statement (.fmul a b) :=
  two_operands (a := a) (b := b) (by simp [Instr.length, Instr.operands]) (by simp [encode, encodeFloat, Nat.add_comm])
theorem EncodedLength.fdiv (a b : Operand) : EncodedLength.Statement (.fdiv a b) :=
  two_operands (a := a) (b := b) (by simp [Instr.length, Instr.operands]) (by simp [encode, encodeFloat, Nat.add_comm])
theorem EncodedLength.fmod (a b : Operand) : EncodedLength.Statement (.fmod a b) :=
  two_operands (a := a) (b := b) (by simp [Instr.length, Instr.operands]) (by simp [encode, encodeFloat, Nat.add_comm])
theorem EncodedLength.fife (a b : Operand) : EncodedLength.Statement (.fife a b) :=
  two_operands (a := a) (b := b) (by simp [Instr.length, Instr.operands]) (by simp [encode, encodeFloat, Nat.add_comm])
theorem EncodedLength.fifn (a b : Operand) : EncodedLength.Statement (.fifn a b) :=
  two_operands (a := a) (b := b) (by simp [Instr.length, Instr.operands]) (by simp [encode, encodeFloat, Nat.add_comm])
theorem EncodedLength.fifg (a b : Operand) : EncodedLength.Statement (.fifg a b) :=
  two_operands (a := a) (b := b) (by simp [Instr.length, Instr.operands]) (by simp [encode, encodeFloat, Nat.add_comm])
theorem EncodedLength.fifl (a b : Operand) : EncodedLength.Statement (.fifl a b) :=
  two_operands (a := a) (b := b) (by simp [Instr.length, Instr.operands]) (by simp [encode, encodeFloat, Nat.add_comm])
theorem EncodedLength.fset (a b : Operand) : EncodedLength.Statement (.fset a b) :=
  two_operands (a := a) (b := b) (by simp [Instr.length, Instr.operands]) (by simp [encode, encodeFloat, Nat.add_comm])
theorem EncodedLength.set (b c : Operand) : EncodedLength.Statement (.set b c) :=
  two_operands (a := b) (b := c) (by simp [Instr.length, Instr.operands]) (by simp [encode, encodeLoad, Nat.add_comm])
theorem EncodedLength.dset (b c : Operand) : EncodedLength.Statement (.dset b c) :=
  two_operands (a := b) (b := c) (by simp [Instr.length, Instr.operands]) (by simp [encode, encodeLoad, Nat.add_comm])
theorem EncodedLength.jsr (c : Operand) : EncodedLength.Statement (.jsr c) :=
  one_operand (c := c) (by simp [Instr.length, Instr.operands]) (by simp [encode, encodeSpecial, Nat.add_comm])
theorem EncodedLength.call (c : Operand) : EncodedLength.Statement (.call c) :=
  one_operand (c := c) (by simp [Instr.length, Instr.operands]) (by simp [encode, encodeSpecial, Nat.add_comm])
theorem EncodedLength.movh (c : Operand) : EncodedLength.Statement (.movh c) :=
  one_operand (c := c) (by simp [Instr.length, Instr.operands]) (by simp [encode, encodeSpecial, Nat.add_comm])
theorem EncodedLength.movl (c : Operand) : EncodedLength.Statement (.movl c) :=
  one_operand (c := c) (by simp [Instr.length, Instr.operands]) (by simp [encode, encodeSpecial, Nat.add_comm])
theorem EncodedLength.movt (c : Operand) : EncodedLength.Statement (.movt c) :=
  one_operand (c := c) (by simp [Instr.length, Instr.operands]) (by simp [encode, encodeSpecial, Nat.add_comm])
theorem EncodedLength.pcs (c : Operand) : EncodedLength.Statement (.pcs c) :=
  one_operand (c := c) (by simp [Instr.length, Instr.operands]) (by simp [encode, encodeSpecial, Nat.add_comm])
theorem EncodedLength.mov (c : Operand) : EncodedLength.Statement (.mov c) :=
  one_operand (c := c) (by simp [Instr.length, Instr.operands]) (by simp [encode, encodeSpecial, Nat.add_comm])
theorem EncodedLength.sps (c : Operand) : EncodedLength.Statement (.sps c) :=
  one_operand (c := c) (by simp [Instr.length, Instr.operands]) (by simp [encode, encodeSpecial, Nat.add_comm])
theorem EncodedLength.ias (c : Operand) : EncodedLength.Statement (.ias c) :=
  one_operand (c := c) (by simp [Instr.length, Instr.operands]) (by simp [encode, encodeSpecial, Nat.add_comm])
theorem EncodedLength.iag (c : Operand) : EncodedLength.Statement (.iag c) :=
  one_operand (c := c) (by simp [Instr.length, Instr.operands]) (by simp [encode, encodeSpecial, Nat.add_comm])
theorem EncodedLength.int (c : Operand) : EncodedLength.Statement (.int c) :=
  one_operand (c := c) (by simp [Instr.length, Instr.operands]) (by simp [encode, encodeSpecial, Nat.add_comm])
theorem EncodedLength.rfi (c : Operand) : EncodedLength.Statement (.rfi c) :=
  one_operand (c := c) (by simp [Instr.length, Instr.operands]) (by simp [encode, encodeSpecial, Nat.add_comm])
theorem EncodedLength.iaq (c : Operand) : EncodedLength.Statement (.iaq c) :=
  one_operand (c := c) (by simp [Instr.length, Instr.operands]) (by simp [encode, encodeSpecial, Nat.add_comm])
theorem EncodedLength.hwn (c : Operand) : EncodedLength.Statement (.hwn c) :=
  one_operand (c := c) (by simp [Instr.length, Instr.operands]) (by simp [encode, encodeSpecial, Nat.add_comm])
theorem EncodedLength.hwq (c : Operand) : EncodedLength.Statement (.hwq c) :=
  one_operand (c := c) (by simp [Instr.length, Instr.operands]) (by simp [encode, encodeSpecial, Nat.add_comm])
theorem EncodedLength.hwi (c : Operand) : EncodedLength.Statement (.hwi c) :=
  one_operand (c := c) (by simp [Instr.length, Instr.operands]) (by simp [encode, encodeSpecial, Nat.add_comm])
theorem EncodedLength.ifex : EncodedLength.Statement .ifex := ⟨rfl, by decide, by decide⟩
theorem EncodedLength.popsg : EncodedLength.Statement .popsg := ⟨rfl, by decide, by decide⟩
theorem EncodedLength.hsg : EncodedLength.Statement .hsg := ⟨rfl, by decide, by decide⟩
theorem EncodedLength.lsg : EncodedLength.Statement .lsg := ⟨rfl, by decide, by decide⟩
theorem EncodedLength.hng : EncodedLength.Statement .hng := ⟨rfl, by decide, by decide⟩
theorem EncodedLength.pusha : EncodedLength.Statement .pusha := ⟨rfl, by decide, by decide⟩
theorem EncodedLength.popa : EncodedLength.Statement .popa := ⟨rfl, by decide, by decide⟩

end Sys2Proof.Laws
end

