-- ==== Sys2Proof/Tests/Slice0.lean ====
section
/-! SUPPORT. The model's own tests: ill-formed terms are refused, words written out from the spec's encodings decode
to their instructions, one-step tests whose expected results are the vectors V1 to V105 of
spec/95_test_vectors.md, and a witness for the hypotheses of every statement. -/

namespace Sys2Proof.Tests

open Sys2Proof.Machine

/-! ## Helpers -/

/-- An operand spelled directly. -/
def op (v : Value) : Operand := ⟨false, v⟩

/-- An operand spelled through an extension word. -/
def ext (v : Value) : Operand := ⟨true, v⟩

def opA : Operand := op (.reg .a)
def opB : Operand := op (.reg .b)
def opFa : Operand := op (.freg .fa)
def opFb : Operand := op (.freg .fb)

/-- The state `s` with the words at its PC, in its segment. -/
def load (ws : List Word) (s : State) : State := s.storeWords s.seg s.pc ws

/-- What `f` reads of the state after one step. -/
def after {α : Type} (f : State → α) (s : State) : Option α :=
  match step s with
  | .next t => some (f t)
  | .fault _ => none
  | .refused _ => none

/-- The fault of one step. -/
def faults (s : State) : Option Fault :=
  match step s with
  | .next _ => none
  | .fault r => some r
  | .refused _ => none

/-- What `f` reads of the state after one instruction. -/
def done {α : Type} (f : State → α) (r : Result) : Option α :=
  match r with
  | .next t => some (f t)
  | .fault _ => none
  | .refused _ => none

/-- A and EX after `OP A, B` from the vectors of the Basic opcodes. -/
def basic (w a b ex : Word) : Option (Word × Word) :=
  after (fun t => (t.a, t.ex)) (load [w] { State.reset with a := a, b := b, ex := ex })

/-- PC after one step of a conditional `OP A, B` before a one-word instruction: 1 if that is performed next, 2 if it
was skipped. -/
def tested (w a b : Word) : Option Word :=
  after (fun t => t.pc) (load [w, 0x20a7, 0x0808] { State.reset with a := a, b := b })

/-- FA after `OP FA, FB`. -/
def float (w : Word) (fa fb : Dword) : Option Dword :=
  after (fun t => t.fa) (load [w] { State.reset with fa := fa, fb := fb })

/-- PC after one step of a float conditional `OP FA, FB` before a one-word instruction. -/
def floatTested (w : Word) (fa fb : Dword) : Option Word :=
  after (fun t => t.pc) (load [w, 0x20a7, 0x0808] { State.reset with fa := fa, fb := fb })

/-- The registers 1 to 8 of the vectors V81 and V104: A, B, C, I, XH, XL, YH, YL. -/
def numbered : State := { State.reset with a := 1, b := 2, c := 3, i := 4, xh := 5, xl := 6, yh := 7, yl := 8 }

/-- The eight general registers in the order of the value table. -/
def registers (s : State) : List Word := [s.a, s.b, s.c, s.i, s.xh, s.xl, s.yh, s.yl]

/-! ## Well-formedness: the one check, a 4-bit field that cannot hold its operand (rule R121) -/

theorem test_wellFormed_refuses_wide_basic : (Instr.add (op (.ind .a)) opB).wellFormed = false := by decide
theorem test_wellFormed_refuses_wide_float : (Instr.fmul (op (.mem 0x3000)) opFa).wellFormed = false := by decide
theorem test_wellFormed_accepts_extended : (Instr.add (ext (.ind .a)) opB).wellFormed = true := by decide
theorem test_wellFormed_accepts_wide_load : (Instr.set (op (.ind .a)) opB).wellFormed = true := by decide

/-! ## Decoding: words written out from rules R92 to R96 and the opcode maps R101 to R105 -/

-- Basic, `1 ooooo aaaa bbbbbb`: opcode at bit 10, a = A (0), b = B (1)
theorem test_decode_ifb : decodeWords [0x8001] = .ok (.ifb opA opB) := by decide
theorem test_decode_ifc : decodeWords [0x8401] = .ok (.ifc opA opB) := by decide
theorem test_decode_ife : decodeWords [0x8801] = .ok (.ife opA opB) := by decide
theorem test_decode_ifn : decodeWords [0x8c01] = .ok (.ifn opA opB) := by decide
theorem test_decode_ifg : decodeWords [0x9001] = .ok (.ifg opA opB) := by decide
theorem test_decode_ifa : decodeWords [0x9401] = .ok (.ifa opA opB) := by decide
theorem test_decode_ifl : decodeWords [0x9801] = .ok (.ifl opA opB) := by decide
theorem test_decode_ifu : decodeWords [0x9c01] = .ok (.ifu opA opB) := by decide
theorem test_decode_sti : decodeWords [0xa401] = .ok (.sti opA opB) := by decide
theorem test_decode_std : decodeWords [0xa801] = .ok (.std opA opB) := by decide
theorem test_decode_add : decodeWords [0xac01] = .ok (.add opA opB) := by decide
theorem test_decode_sub : decodeWords [0xb001] = .ok (.sub opA opB) := by decide
theorem test_decode_mul : decodeWords [0xb401] = .ok (.mul opA opB) := by decide
theorem test_decode_mli : decodeWords [0xb801] = .ok (.mli opA opB) := by decide
theorem test_decode_div : decodeWords [0xbc01] = .ok (.div opA opB) := by decide
theorem test_decode_dvi : decodeWords [0xc001] = .ok (.dvi opA opB) := by decide
theorem test_decode_mod : decodeWords [0xc401] = .ok (.mod opA opB) := by decide
theorem test_decode_mdi : decodeWords [0xc801] = .ok (.mdi opA opB) := by decide
theorem test_decode_and : decodeWords [0xcc01] = .ok (.and opA opB) := by decide
theorem test_decode_bor : decodeWords [0xd001] = .ok (.bor opA opB) := by decide
theorem test_decode_xor : decodeWords [0xd401] = .ok (.xor opA opB) := by decide
theorem test_decode_shr : decodeWords [0xd801] = .ok (.shr opA opB) := by decide
theorem test_decode_asr : decodeWords [0xdc01] = .ok (.asr opA opB) := by decide
theorem test_decode_shl : decodeWords [0xe001] = .ok (.shl opA opB) := by decide
theorem test_decode_adx : decodeWords [0xe801] = .ok (.adx opA opB) := by decide
theorem test_decode_sbx : decodeWords [0xec01] = .ok (.sbx opA opB) := by decide
theorem test_decode_two_extensions : decodeWords [0xafcf, 0x0018, 0x0001, 0x0019, 0x0002] = .ok (.add (ext (.idx .a 1)) (ext (.idx .b 2))) := by decide
-- Float, `01 oooo aaaa bbbbbb`: opcode at bit 10, a = FA (0x0a), b = FB (0x0b)
theorem test_decode_fadd : decodeWords [0x428b] = .ok (.fadd opFa opFb) := by decide
theorem test_decode_fsub : decodeWords [0x468b] = .ok (.fsub opFa opFb) := by decide
theorem test_decode_fmul : decodeWords [0x4a8b] = .ok (.fmul opFa opFb) := by decide
theorem test_decode_fdiv : decodeWords [0x4e8b] = .ok (.fdiv opFa opFb) := by decide
theorem test_decode_fmod : decodeWords [0x528b] = .ok (.fmod opFa opFb) := by decide
theorem test_decode_fife : decodeWords [0x5a8b] = .ok (.fife opFa opFb) := by decide
theorem test_decode_fifn : decodeWords [0x5e8b] = .ok (.fifn opFa opFb) := by decide
theorem test_decode_fifg : decodeWords [0x628b] = .ok (.fifg opFa opFb) := by decide
theorem test_decode_fifl : decodeWords [0x668b] = .ok (.fifl opFa opFb) := by decide
theorem test_decode_fset : decodeWords [0x6e8b] = .ok (.fset opFa opFb) := by decide
-- Load, `001 o bbbbbb cccccc`: opcode at bit 12
theorem test_decode_set : decodeWords [0x2937, 0x1000] = .ok (.set (op (.mem 0x1000)) (op (.power 1))) := by decide
theorem test_decode_dset : decodeWords [0x3418, 0x0001] = .ok (.dset (op (.ind .a)) (op (.idx .a 1))) := by decide
-- Special, `0001 oooooo cccccc`: opcode at bit 6, c = A (0)
theorem test_decode_jsr : decodeWords [0x1000] = .ok (.jsr opA) := by decide
theorem test_decode_call : decodeWords [0x1040] = .ok (.call opA) := by decide
theorem test_decode_movh : decodeWords [0x1100] = .ok (.movh opA) := by decide
theorem test_decode_movl : decodeWords [0x1140] = .ok (.movl opA) := by decide
theorem test_decode_movt : decodeWords [0x1180] = .ok (.movt opA) := by decide
theorem test_decode_pcs : decodeWords [0x12c0] = .ok (.pcs opA) := by decide
theorem test_decode_sps : decodeWords [0x1300] = .ok (.sps opA) := by decide
theorem test_decode_ias : decodeWords [0x13c0] = .ok (.ias opA) := by decide
theorem test_decode_iag : decodeWords [0x1400] = .ok (.iag opA) := by decide
theorem test_decode_int : decodeWords [0x1480] = .ok (.int opA) := by decide
theorem test_decode_rfi : decodeWords [0x14c0] = .ok (.rfi opA) := by decide
theorem test_decode_iaq : decodeWords [0x1500] = .ok (.iaq opA) := by decide
theorem test_decode_hwn : decodeWords [0x1580] = .ok (.hwn opA) := by decide
theorem test_decode_hwq : decodeWords [0x15c0] = .ok (.hwq opA) := by decide
theorem test_decode_hwi : decodeWords [0x1600] = .ok (.hwi opA) := by decide
-- MOV is the other name of PCS: its word decodes to the core instruction (rule R112)
theorem test_decode_mov : encode (.mov opA) = [0x12c0] ∧ decodeWords [0x12c0] = .ok (.pcs opA) := by decide
-- Binary, `00001 ooooooooooo`
theorem test_decode_ifex : decodeWords [0x0801] = .ok (.ifex) := by decide
theorem test_decode_popsg : decodeWords [0x0804] = .ok (.popsg) := by decide
theorem test_decode_hsg : decodeWords [0x0805] = .ok (.hsg) := by decide
theorem test_decode_lsg : decodeWords [0x0806] = .ok (.lsg) := by decide
theorem test_decode_hng : decodeWords [0x0808] = .ok (.hng) := by decide
theorem test_decode_pusha : decodeWords [0x080b] = .ok (.pusha) := by decide
theorem test_decode_popa : decodeWords [0x080c] = .ok (.popa) := by decide
-- Value codes (rule R120): the second parameter of `SET A, x`
theorem test_decode_value_dx : decodeWords [0x2008] = .ok (.set opA (op (.dreg .dx))) := by decide
theorem test_decode_value_stack : decodeWords [0x200c] = .ok (.set opA (op (.stack))) := by decide
theorem test_decode_value_pick : decodeWords [0x200d, 0x0001] = .ok (.set opA (op (.pick 1))) := by decide
theorem test_decode_value_peek : decodeWords [0x200e] = .ok (.set opA (op (.peek))) := by decide
theorem test_decode_value_ind : decodeWords [0x2017] = .ok (.set opA (op (.ind .yl))) := by decide
theorem test_decode_value_idx : decodeWords [0x201b, 0x0003] = .ok (.set opA (op (.idx .i 3))) := by decide
theorem test_decode_value_next : decodeWords [0x2020, 0x1234] = .ok (.set opA (op (.next 0x1234))) := by decide
theorem test_decode_value_ex : decodeWords [0x2021] = .ok (.set opA (op (.ex))) := by decide
theorem test_decode_value_pc : decodeWords [0x2022] = .ok (.set opA (op (.pc))) := by decide
theorem test_decode_value_sp : decodeWords [0x2023] = .ok (.set opA (op (.sp))) := by decide
theorem test_decode_value_minus_one : decodeWords [0x2025] = .ok (.set opA (op (.minusOne))) := by decide
theorem test_decode_value_fifteen : decodeWords [0x2035] = .ok (.set opA (op (.small 15))) := by decide
theorem test_decode_value_power : decodeWords [0x203f] = .ok (.set opA (op (.power 9))) := by decide

/-! ## One step, against the vectors -/

-- V17 to V21
theorem test_step_add : basic 0xac01 0xffff 0x0001 0x0 = some (0x0000, 0x0001) := by decide
theorem test_step_sub : basic 0xb001 0x0003 0x0005 0x0 = some (0xfffe, 0xffff) := by decide
theorem test_step_sub_corner : basic 0xb001 0x0000 0xffff 0x0 = some (0x0001, 0xffff) := by decide
theorem test_step_mul : basic 0xb401 0xffff 0xffff 0x0 = some (0x0001, 0xfffe) := by decide
theorem test_step_mul_corner : basic 0xb401 0x1234 0x0100 0x0 = some (0x3400, 0x0012) := by decide
theorem test_step_mli : basic 0xb801 0xfffe 0x0003 0x0 = some (0xfffa, 0xffff) := by decide
theorem test_step_mli_corner : basic 0xb801 0x8000 0x8000 0x0 = some (0x0000, 0x4000) := by decide
theorem test_step_div : basic 0xbc01 0x0001 0x0003 0x0 = some (0x0000, 0x5555) := by decide
theorem test_step_div_corner : basic 0xbc01 0x0005 0x0000 0x1234 = some (0x0000, 0x0000) := by decide
theorem test_step_dvi : basic 0xc001 0xffff 0x0003 0x0 = some (0x0000, 0xaaab) := by decide
theorem test_step_dvi_corner : basic 0xc001 0x8000 0xffff 0x0 = some (0x8000, 0x0000) := by decide
theorem test_step_mod : basic 0xc401 0xfff9 0x0010 0x0055 = some (0x0009, 0x0055) := by decide
theorem test_step_mod_corner : basic 0xc401 0x0005 0x0000 0x0055 = some (0x0000, 0x0055) := by decide
theorem test_step_mdi : basic 0xc801 0xfff9 0x0010 0x0055 = some (0xfff9, 0x0055) := by decide
theorem test_step_mdi_corner : basic 0xc801 0x8000 0xffff 0x0 = some (0x0000, 0x0000) := by decide
theorem test_step_shr : basic 0xd801 0xffff 0x0004 0x0 = some (0x0fff, 0xf000) := by decide
theorem test_step_shr_corner : basic 0xd801 0x8000 0x0011 0x0 = some (0x0000, 0x4000) := by decide
theorem test_step_asr : basic 0xdc01 0x8000 0x0011 0x0 = some (0xffff, 0x4000) := by decide
theorem test_step_asr_corner : basic 0xdc01 0x7ffe 0x0001 0x0 = some (0x3fff, 0x0000) := by decide
theorem test_step_shl : basic 0xe001 0x1234 0x0011 0x0 = some (0x0000, 0x2468) := by decide
theorem test_step_shl_corner : basic 0xe001 0x8001 0x0001 0x0 = some (0x0002, 0x0001) := by decide
theorem test_step_adx : basic 0xe801 0xffff 0xffff 0xffff = some (0xfffd, 0x0002) := by decide
theorem test_step_adx_corner : basic 0xe801 0x0000 0x0000 0xffff = some (0xffff, 0x0000) := by decide
theorem test_step_sbx : basic 0xec01 0x0005 0x0003 0xffff = some (0x0001, 0x0001) := by decide
theorem test_step_sbx_corner : basic 0xec01 0x0003 0x0005 0x0001 = some (0xffff, 0xffff) := by decide
theorem test_step_and : basic 0xcc01 0xf0f0 0x3c3c 0x0077 = some (0x3030, 0x0077) := by decide
theorem test_step_bor : basic 0xd001 0xf0f0 0x3c3c 0x0077 = some (0xfcfc, 0x0077) := by decide
theorem test_step_xor : basic 0xd401 0xf0f0 0x3c3c 0x0077 = some (0xcccc, 0x0077) := by decide
-- V22: T is PC = 1, F is PC = 2
theorem test_step_ifb_performs : tested 0x8001 0x00f0 0x0010 = some 1 := by decide
theorem test_step_ifb_skips : tested 0x8001 0x00f0 0x000f = some 2 := by decide
theorem test_step_ifc_performs : tested 0x8401 0x00f0 0x000f = some 1 := by decide
theorem test_step_ifc_skips : tested 0x8401 0x0005 0x0005 = some 2 := by decide
theorem test_step_ife_performs : tested 0x8801 0x0005 0x0005 = some 1 := by decide
theorem test_step_ife_skips : tested 0x8801 0x00f0 0x0010 = some 2 := by decide
theorem test_step_ifn_performs : tested 0x8c01 0xffff 0x0001 = some 1 := by decide
theorem test_step_ifn_skips : tested 0x8c01 0x0005 0x0005 = some 2 := by decide
theorem test_step_ifg_performs : tested 0x9001 0xffff 0x0001 = some 1 := by decide
theorem test_step_ifg_skips : tested 0x9001 0x0001 0xffff = some 2 := by decide
theorem test_step_ifa_performs : tested 0x9401 0x0001 0xffff = some 1 := by decide
theorem test_step_ifa_skips : tested 0x9401 0x8000 0x7fff = some 2 := by decide
theorem test_step_ifl_performs : tested 0x9801 0x0001 0xffff = some 1 := by decide
theorem test_step_ifl_skips : tested 0x9801 0xffff 0x0001 = some 2 := by decide
theorem test_step_ifu_performs : tested 0x9c01 0x8000 0x7fff = some 1 := by decide
theorem test_step_ifu_skips : tested 0x9c01 0x0001 0xffff = some 2 := by decide
-- V23 to V26
theorem test_step_sti :
    after (fun t => (t.a, t.i)) (load [0xa401] { State.reset with b := 0x77, i := 0xffff }) = some (0x77, 0) := by
  decide
theorem test_step_sti_into_i :
    after (fun t => t.i) (load [0xa4c1] { State.reset with b := 0x77, i := 5 }) = some 0x78 := by
  decide
theorem test_step_std :
    after (fun t => (t.a, t.i)) (load [0xa801] { State.reset with b := 0x77, i := 0 }) = some (0x77, 0xffff) := by
  decide
theorem test_step_std_into_i :
    after (fun t => t.i) (load [0xa8c1] { State.reset with b := 0x77, i := 5 }) = some 0x76 := by
  decide
-- V29b
theorem test_step_skip_of_five_words :
    after (fun t => t.pc) (load [0x8827, 0xafcf, 0x0018, 0x0001, 0x0019, 0x0002, 0x0808] State.reset) = some 6 := by
  decide
-- V28
theorem test_step_skip_leaves_push :
    after (fun t => (t.pc, t.sp, t.readWord .low 0xffff)) (load [0x8827, 0x2330, 0x0808] State.reset) = some (2, 0, 0) := by
  decide
-- V27, from its step 2, moved to address 0
theorem test_step_skip_chain :
    after (fun t => t.pc) (load [0x9030, 0x882b, 0x2920, 0x1000, 0x1234, 0x9830, 0x2067, 0x0808] { State.reset with a := 5 }) = some 5 := by
  decide
-- V29a, V5, V7
theorem test_step_skip_faults : faults (load [0x8827, 0x0000] State.reset) = some (.illegalInstruction .low 1) := by decide
theorem test_step_bad_extension : faults (load [0xafc0, 0x0040] State.reset) = some (.badExtensionWord .low 0) := by
  decide
theorem test_step_zero_word : faults (load [0x0000] State.reset) = some (.illegalInstruction .low 0) := by decide
-- V29c
theorem test_step_add_to_float :
    after (fun t => t.fa) (load [0xaea7] { State.reset with fa := 0xc0400000 }) = some 0x477ffe00 := by
  decide
-- V1
theorem test_step_set :
    after (fun t => (t.a, t.pc)) (load [0x2020, 0x1234] State.reset) = some (0x1234, 2) := by
  decide
-- V31
theorem test_step_set_push :
    after (fun t => (t.sp, t.readWord .low 0xffff)) (load [0x2330] State.reset) = some (0xffff, 10) := by
  decide
-- V39
theorem test_step_dset_from_register :
    after (fun t => t.dreg .dx) (load [0x3200] { State.reset with a := 0x1111, xh := 0xcafe, xl := 0xf00d }) = some 0xcafe1111 := by
  decide
-- V38
theorem test_step_dset_to_ram :
    after (fun t => (t.readWord .low 0x1000, t.readWord .low 0x1001)) (load [0x3908, 0x1000] { State.reset with xh := 0xcafe, xl := 0xf00d }) = some (0xcafe, 0xf00d) := by
  decide
-- V44, V45
theorem test_step_fadd : float 0x428b 0x3dcccccd 0x3e4ccccd = some 0x3e99999a := by decide
theorem test_step_fadd_corner : float 0x428b 0x7f61b1e6 0x7f61b1e6 = some 0x7f800000 := by decide
theorem test_step_fsub : float 0x468b 0xc0f00000 0x41800000 = some 0xc1bc0000 := by decide
theorem test_step_fsub_corner : float 0x468b 0x3fc00000 0x3fc00000 = some 0x00000000 := by decide
theorem test_step_fmul : float 0x4a8b 0x3dcccccd 0x3e4ccccd = some 0x3ca3d70b := by decide
theorem test_step_fmul_corner : float 0x4a8b 0x40a00000 0x80000000 = some 0x80000000 := by decide
theorem test_step_fdiv : float 0x4e8b 0x3fc00000 0x40100000 = some 0x3f2aaaab := by decide
theorem test_step_fdiv_corner : float 0x4e8b 0x40a00000 0x80000000 = some 0x00000000 := by decide
theorem test_step_fmod : float 0x528b 0xc0f00000 0xc0000000 = some 0xbfc00000 := by decide
theorem test_step_fmod_corner : float 0x528b 0xc0f00000 0x41800000 = some 0xc0f00000 := by decide
-- V46
theorem test_step_fife_performs : floatTested 0x5a8b 0x00000000 0x80000000 = some 1 := by decide
theorem test_step_fife_skips : floatTested 0x5a8b 0x7fc00000 0x7fc00000 = some 2 := by decide
theorem test_step_fifn_performs : floatTested 0x5e8b 0x7fc00000 0x7fc00000 = some 1 := by decide
theorem test_step_fifn_skips : floatTested 0x5e8b 0x3fc00000 0x3fc00000 = some 2 := by decide
theorem test_step_fifg_performs : floatTested 0x628b 0x40000000 0x3fc00000 = some 1 := by decide
theorem test_step_fifg_skips : floatTested 0x628b 0xbf800000 0x3f800000 = some 2 := by decide
theorem test_step_fifl_performs : floatTested 0x668b 0xbf800000 0x3f800000 = some 1 := by decide
theorem test_step_fifl_skips : floatTested 0x668b 0x7fc00000 0x3f800000 = some 2 := by decide
-- V63
theorem test_step_fset_from_ram :
    after (fun t => t.fa) (load [0x6ea4, 0x3000] { State.reset with mem := [(0x3000, 0x7fc0), (0x3001, 1)] }) = some 0x7fc00001 := by
  decide
-- V64
theorem test_step_fset_truncates :
    after (fun t => t.a) (load [0x6c0a] { State.reset with fa := 0xc06ccccd }) = some 0xfffd := by
  decide
-- V80 to V88
theorem test_step_jsr :
    after (fun t => (t.readWord .low 0xffff, t.sp, t.pc)) (load [0x1020, 0x0100] { State.reset with pc := 0x10 }) = some (0x12, 0xffff, 0x100) := by
  decide
theorem test_step_call :
    after (fun t => (t.readWord .low 0xffff, t.readWord .low 0xfff7, t.sp, t.pc))
        (load [0x1060, 0x0200] { numbered with pc := 0x10 }) = some (0x12, 4, 0xfff7, 0x200) := by
  decide
theorem test_step_movh :
    after (fun t => (t.seg, t.readWord .high 0xffff, t.readWord .high 0xfffe, t.sp, t.pc)) (load [0x1120, 0x0300] { State.reset with pc := 0x10 }) = some (.high, 0x12, 0, 0xfffe, 0x300) := by
  decide
theorem test_step_movl :
    after (fun t => (t.seg, t.readWord .low 0xffff, t.readWord .low 0xfffe)) (load [0x1160, 0x0300] { State.reset with pc := 0x10, seg := .high }) = some (.low, 0x12, 1) := by
  decide
theorem test_step_movt :
    after (fun t => (t.seg, t.readWord .high 0xffff, t.sp, t.pc)) (load [0x11a0, 0x0300] { State.reset with pc := 0x10 }) = some (.high, 0x12, 0xfffe, 0x300) := by
  decide
theorem test_step_pcs :
    after (fun t => t.pc) (load [0x12c0] { State.reset with a := 0x1234 }) = some 0x1234 := by
  decide
theorem test_exec_mov : done (fun t => t.pc) (exec (.mov opA) { State.reset with a := 0x1234 }) = some 0x1234 := by
  decide
theorem test_step_sps :
    after (fun t => t.sp) (load [0x1300] { State.reset with a := 0x1234 }) = some 0x1234 := by
  decide
theorem test_step_ias :
    after (fun t => t.ia) (load [0x13c0] { State.reset with a := 0x1234 }) = some 0x1234 := by
  decide
theorem test_step_iag :
    after (fun t => (t.sp, t.readWord .low 0xffff)) (load [0x140c] { State.reset with ia := 0x456 }) = some (0xffff, 0x456) := by
  decide
theorem test_step_iaq_on :
    after (fun t => t.iaqOn) (load [0x1527] State.reset) = some true := by
  decide
theorem test_step_iaq_off :
    after (fun t => t.iaqOn) (load [0x1526] { State.reset with iaqOn := true }) = some false := by
  decide
theorem test_step_rfi :
    after (fun t => (t.a, t.pc, t.sp, t.iaqOn)) (load [0x14e6] { State.reset with iaqOn := true, sp := 0xfffe, mem := [(0xfffe, 0xaaaa), (0xffff, 1)] }) = some (0xaaaa, 1, 0, false) := by
  decide
-- V95, step 1
theorem test_step_int :
    after (fun t => (t.queue, t.pc)) (load [0x14ad] State.reset) = some ([7], 1) := by
  decide
-- V96, step 2, with the handler at the interrupted point
theorem test_step_delivery :
    after (fun t => (t.b, t.sp, t.readWord .low 0xfffe, t.iaqOn, t.pc)) (load [0x2040] { State.reset with ia := 0x100, a := 0xaaaa, pc := 0x100, queue := [7], arrivals := [], sp := 0 }) = some (7, 0xfffe, 0xaaaa, true, 0x101) := by
  decide
-- V95, step 2
theorem test_step_dropped_interrupt :
    after (fun t => (t.c, t.queue, t.sp)) (load [0x20a7] { State.reset with queue := [7] }) = some (1, [], 0) := by
  decide
-- V89 to V92, for any number of connected devices: HWN writes that number, device 0xffff never exists (rule R350)
theorem test_exec_hwn :
    done (fun t => t.a) (exec (.hwn opA) State.reset) = some Config.deviceCount := rfl
theorem test_exec_hwq :
    done registers (exec (.hwq opA) { numbered with a := 0xffff }) = some [0xffff, 2, 0, 4, 0, 0, 0, 0] := by
  have h : connected 0xffff = false := by
    simpa [connected] using Nat.le_of_lt_succ Config.deviceCount.isLt
  show some (registers (State.queryDevice _ 0xffff)) = _
  unfold State.queryDevice
  rw [h]
  decide
theorem test_exec_hwi :
    done registers (exec (.hwi opA) { numbered with a := 0xffff }) = some [0xffff, 2, 3, 4, 5, 6, 7, 8] := by
  have h : connected 0xffff = false := by
    simpa [connected] using Nat.le_of_lt_succ Config.deviceCount.isLt
  show some (registers (State.interruptDevice _ 0xffff)) = _
  unfold State.interruptDevice
  rw [h]
  decide
-- V100 to V105
theorem test_step_ifex_performs :
    after (fun t => t.pc) (load [0x0801, 0x2027, 0x2067] { State.reset with ex := 1 }) = some 1 := by
  decide
theorem test_step_ifex_skips :
    after (fun t => t.pc) (load [0x0801, 0x2027, 0x2067] State.reset) = some 2 := by
  decide
theorem test_step_popsg :
    after (fun t => (t.pc, t.seg, t.sp)) (load [0x0804] { State.reset with sp := 0xfffe, mem := [(0xfffe, 2), (0xffff, 0x400)] }) = some (0x400, .high, 0) := by
  decide
theorem test_step_hsg :
    after (fun t => (t.seg, t.pc)) (load [0x0805] State.reset) = some (.high, 1) := by
  decide
theorem test_step_lsg :
    after (fun t => (t.seg, t.pc)) (load [0x0806] { State.reset with seg := .high }) = some (.low, 1) := by
  decide
theorem test_step_hng :
    after (fun t => t.pc) (load [0x0808] { State.reset with pc := 9 }) = some 9 := by
  decide
theorem test_step_pusha :
    after (fun t => (t.sp, (List.range 8).map (fun k => t.readWord .low (0xffff - BitVec.ofNat 16 k))))
        (load [0x080b] numbered) = some (0xfff8, [1, 2, 3, 5, 6, 7, 8, 4]) := by
  decide
theorem test_step_popa :
    after (fun t => (registers t, t.sp)) (load [0x080c] { State.reset with sp := 0xfff8, mem := [(0xfff8, 0x14), (0xfff9, 0x18), (0xfffa, 0x17), (0xfffb, 0x16),
        (0xfffc, 0x15), (0xfffd, 0x13), (0xfffe, 0x12), (0xffff, 0x11)] }) = some ([0x11, 0x12, 0x13, 0x14, 0x15, 0x16, 0x17, 0x18], 0) := by
  decide

/-! ## Witnesses: for every statement with hypotheses, a state and operands that meet them together -/

/-- An ADD with both parameters in RAM, at address 0, with the vector V3 around it. -/
def sample : State :=
  load [0xafe4, 0x0018, 0x0004, 0x2000] { State.reset with a := 0x100, mem := [(0x104, 7), (0x2000, 5)] }

/-- A state at the handler's entry with 255 messages waiting. -/
def crowded : State := { State.reset with ia := 0x100, queue := List.replicate 255 9 }

/-- A state after which the queue is full. -/
def full : State := { State.reset with ia := 0x100, queue := List.replicate 256 9 }

/-- At most the scheduled messages arrive. -/
theorem arriving_length {s : State} {now : List Word} {later : List (List Word)} (h : s.arrivals = now :: later) :
    s.arriving.length ≤ now.length := by
  by_cases hd : Config.deviceCount = 0
  · rw [arriving_no_device s hd]
    exact Nat.zero_le _
  · rw [arriving_device h hd]

theorem test_witness_DecodeOfEncode :
    (Instr.add (ext (.idx .a 4)) (op (.mem 0x2000))).wellFormed = true ∧ (Instr.mov opA).wellFormed = true := by decide

theorem test_witness_EncodeOfDecode : decode 0xafcf 0x0018 1 0x0019 2 = .ok (.add (ext (.idx .a 1)) (ext (.idx .b 2))) := by
  decide

theorem test_witness_ExtensionWordRange :
    Operand.decode 0x0f 0x0040 0 = .error .badExtensionWord ∧ Operand.decode 0x0f 0x000f 0 = .error .badExtensionWord ∧
      Operand.decode 0x0f 0x003f 0 = .ok (ext (.power 9)) ∧ Operand.decode 0x0f 0x0010 0 = .ok (ext (.ind .a)) := by decide

theorem test_witness_StepRunsDecodedInstruction :
    sample.status = .running ∧ sample.boundary.status = .running ∧
      sample.boundary.fetch = .ok (.add (ext (.idx .a 4)) (op (.mem 0x2000))) ∧ sample.arrivals = [] ∧
      sample.queue = [] := by decide

theorem test_witness_StepRunsEncodedInstruction :
    let i := Instr.add (ext (.idx .a 4)) (op (.mem 0x2000))
    sample.status = .running ∧ sample.boundary.status = .running ∧ i.wellFormed = true ∧
      ∀ k, ∀ h : k < (encode i).length,
        sample.boundary.readWord sample.boundary.seg (sample.boundary.pc + BitVec.ofNat 16 k) = (encode i)[k] := by
  decide

theorem test_witness_StepStops :
    State.reset.status = .running ∧ State.reset.boundary.status = .running ∧
      State.reset.boundary.fetch = .error .illegalInstruction ∧
      (load [0xafc0, 0x0040] State.reset).boundary.fetch = .error .badExtensionWord ∧
      ({ State.reset with status := .onFire .queueOverflow } : State).status = .onFire .queueOverflow := by decide

theorem test_witness_StepKeepsInvariant : sample.Inv ∧ (after (fun t => t.pc) sample).isSome = true := by
  unfold State.Inv
  decide

theorem test_witness_TooManyDevicesIsFire : 65535 < 65536 ∧ 65535 ≤ 65535 := by decide

theorem test_witness_SegmentChangers :
    (done (fun t => t.seg) (exec .hsg State.reset) = some .high ∧ State.reset.seg ≠ .high) ∧
      (resolve false (op (.ind .a)) { State.reset with a := 0xffff }).place = .mem .low 0xffff ∧
      Instr.movh (op (.ind .a)) = .movh (op (.ind .a)) := by decide

theorem test_witness_OtherSegmentUntouched :
    (done (fun t => t.readWord .high 0xffff) (exec (.movh opA) { State.reset with pc := 1 }) = some 1 ∧
        ({ State.reset with pc := 1 } : State).readWord .high 0xffff ≠ 1) ∧
      (done (fun t => t.readWord .low 0xffff) (exec (.set (op .stack) (op (.small 1))) State.reset) = some 1 ∧
        State.reset.readWord .low 0xffff ≠ 1) := by decide

theorem test_witness_ExOwners :
    done (fun t => t.ex) (exec (.add opA opB) { State.reset with a := 0xffff, b := 1 }) = some 1 ∧
      done (fun t => t.ex) (exec (.set (op .ex) (op (.small 7))) State.reset) = some 7 ∧ State.reset.ex = 0 ∧
      (Instr.set (op .ex) opA).destination = some (op .ex) ∧ (Instr.ife (op .ex) opA).destination = none := by decide

set_option maxRecDepth 4000 in
theorem test_witness_ControlOwners :
    done (fun t => t.ia) (exec (.ias (op (.next 5))) State.reset) = some 5 ∧
      done (fun t => t.iaqOn) (exec (.iaq (op (.small 1))) State.reset) = some true ∧
      done (fun t => t.queue) (exec (.int opA) State.reset) = some [0] ∧
      done (fun t => t.status) (exec (.int opA) full) = some (.onFire .queueOverflow) := by decide

theorem test_witness_CyclesAreGhost :
    (done (fun t => t.cycles) (exec (.add opA opB) State.reset)) = some 0 ∧
      (Instr.add opA opB).isConditional = false ∧
      (resolve2 (op .stack) opA State.reset).first = .mem .low 0xffff ∧
      (resolve2 opA (op .peek) State.reset).second = .mem .low 0 ∧
      (resolve2 opA opFa State.reset).first = .reg16 .a ∧ (resolve2 opA opFa State.reset).second = .regF .fa := by decide

theorem test_witness_PickAndPeek :
    7 < [Reg.a, .b, .c, .i, .xh, .xl, .yh, .yl].length ∧ Value.decode 0x1f 1 = some (.idx .yl 1) ∧
      (resolve false (op (.idx .yl 1)) { State.reset with yl := 0xffff }).place = .mem .low 0 ∧
      (resolve false (op (.power 9)) State.reset).place = .lit 0x2000 := by decide

/-- Between them the two states meet each alternative of State.Finished, whatever the number of devices. -/
theorem test_witness_FinishedStays :
    let s := { load [0x0808] State.reset with arrivals := [[1, 2]] }
    let t := { load [0x0808] State.reset with ia := 1, iaqOn := true, queue := [1] }
    (s.Finished ∧ s.ArrivalsFit) ∧ (t.Finished ∧ t.ArrivalsFit) := by
  intro s t
  refine ⟨⟨⟨by decide, by decide, .inl (by decide)⟩, ?_⟩,
    ⟨⟨by decide, by decide, .inr ⟨.inl rfl, .inr rfl⟩⟩, (by decide : t.queue.length + t.arriving.length ≤ 256)⟩⟩
  exact le_trans (Nat.add_le_add_left (arriving_length (s := s) rfl) _) (by decide)

set_option maxRecDepth 4000 in
/-- A state whose schedule is at its end, and one whose queue is full at the boundary if a device is connected. -/
theorem test_witness_DeliveryCases :
    let s := { crowded with arrivals := [[1]] }
    (s.status = .running ∧ s.arrivals = [1] :: [] ∧ s.queue.length + s.arriving.length ≤ 256) ∧
      (crowded.status = .running ∧ crowded.arrivals = [] ∧ crowded.queue.length + crowded.arriving.length ≤ 256) ∧
      crowded.iaqOn = false ∧ crowded.queue ++ crowded.arriving = 9 :: List.replicate 254 9 ∧ crowded.ia ≠ 0 ∧
      { crowded with ia := 0 }.ia = 0 ∧ { crowded with iaqOn := true }.iaqOn = true ∧
      State.reset.queue ++ State.reset.arriving = [] := by
  refine ⟨⟨by decide, by decide, ?_⟩, by decide⟩
  exact le_trans (Nat.add_le_add_left (arriving_length (s := { crowded with arrivals := [[1]] }) rfl) _) (by decide)

set_option maxRecDepth 4000 in
theorem test_witness_ArrivalOverflowIsFire :
    let s := { full with arrivals := [[1]] }
    s.status = .running ∧ s.arrivals = [1] :: [] ∧ s.queue.length ≤ 256 ∧ 256 < s.queue.length + 1 := by decide

set_option maxRecDepth 4000 in
theorem test_witness_IntEnqueues : crowded.queue.length < 256 ∧ 256 ≤ full.queue.length := by decide

theorem test_witness_IntIsTakenAtTheNextBoundary :
    let s := { State.reset with ia := 0x100 }
    (s.status = .running ∧ s.iaqOn = false ∧ s.queue = [] ∧ s.arrivals = [] ∧ s.ia ≠ 0 ∧
        done (fun t => t.queue) (exec (.int (op (.small 7))) s) = some [7]) ∧
      (State.reset.ia = 0 ∧ done (fun t => t.queue) (exec (.int (op (.small 7))) State.reset) = some [7]) := by decide

theorem test_witness_EntryThenRfi :
    let s := { State.reset with ia := 0x100, a := 5, pc := 7, sp := 1 }
    let h := { s.enterInterrupt 9 with b := 1, pc := 0x105 }
    (Value.small 0 ≠ .stack) ∧ h.seg = s.seg ∧ h.sp = (s.enterInterrupt 9).sp ∧
      (h.readWord s.seg (s.sp - 1) = (s.enterInterrupt 9).readWord s.seg (s.sp - 1) ∧
        h.readWord s.seg (s.sp - 2) = (s.enterInterrupt 9).readWord s.seg (s.sp - 2)) := by decide

set_option maxRecDepth 4000 in
theorem test_witness_IaqSetsQueueing :
    (readW (resolve false (op .minusOne) State.reset).place State.reset ≠ 0) ∧
      (readW (resolve false (op (.small 0)) full).place full = 0) ∧
      (done (fun t => t.iaqOn) (exec (.iaq (op (.small 0))) full) = some false ∧ full.status = .running ∧
        full.arrivals = [] ∧ full.queue = 9 :: List.replicate 255 9 ∧ full.ia ≠ 0) := by decide

theorem test_witness_StackCodeIsPositional :
    opB.value ≠ .stack ∧ done (fun t => t.sp) (exec (.ife (op .stack) opB) State.reset) = some 0xffff := by decide

theorem test_witness_LiteralWritesAreDropped :
    (resolve2 (ext (.small 5)) opA State.reset).first = .lit 5 ∧
      (resolve2 (ext .minusOne) (op .stack) State.reset).first = .lit 0xffff := by decide

theorem test_witness_WordReadAfterWrite :
    (∀ x, Place.mem .high 0xffff ≠ .lit x) ∧ (∀ x, Place.regF .fb ≠ .lit x) ∧ HasValue (State.reset.freg .fb) 0 :=
  ⟨fun _ h => (nomatch h), fun _ h => (nomatch h), false, 0, by decide, by norm_num [signedUnits]⟩

theorem test_witness_WordWriterFrame :
    (done (fun t => t.a) (exec (.set opA (op (.small 7))) State.reset) = some 7) ∧
      (done (fun t => t.ex) (exec (.add opA (op .minusOne)) { State.reset with a := 1 }) = some 1) ∧
      (done (fun t => t.i) (exec (.sti opA opB) State.reset) = some 1) ∧ opA.value ≠ .stack ∧ opB.value ≠ .stack := by
  decide

theorem test_witness_WideWriterFrame :
    (done (fun t => t.fa) (exec (.fadd opFa (op (.small 1))) State.reset) = some 0x3f800000) ∧
      (done (fun t => t.dreg .dx) (exec (.dset (op (.dreg .dx)) (op .minusOne)) State.reset) = some 0xffff) := by decide

theorem test_witness_ConditionalsChangeNothing :
    (Instr.ife (op .stack) opB).isConditional = true ∧ (Instr.ife (op .stack) opB).operands = [op .stack, opB] ∧
      (Instr.isConditional .ifex = true ∧ Instr.operands .ifex = []) ∧
      done (fun t => t.sp) (exec (.ife (op .stack) opB) State.reset) = some 0xffff ∧
      (∀ o ∈ (Instr.ife opA opB).operands, o.value ≠ .stack) ∧
      done (fun t => t.sp) (exec (.ife opA opB) State.reset) = some 0 := by decide

/-- The hypothesis `a.fitsFourBits = true` of the statements of the Basic and Float opcodes. -/
theorem test_witness_fitsFourBits :
    opA.fitsFourBits = true ∧ (op .peek).fitsFourBits = true ∧ (ext (.power 9)).fitsFourBits = true := by decide

theorem test_witness_UnsignedDivisions :
    let s := { State.reset with a := 0xffff, b := 0xffff }
    readW (resolve2 opA opB s).second s ≠ 0 ∧ readW (resolve2 opA opB State.reset).second State.reset = 0 := by decide

theorem test_witness_SignedDivisions :
    let s := { State.reset with a := 0x8000, b := 0xffff }
    readW (resolve2 opA opB s).second s ≠ 0 ∧ readW (resolve2 opA opB State.reset).second State.reset = 0 := by decide

theorem test_witness_StoreAndStepI :
    (ext (.ind .i)).value = .ind .i ∧ (resolve2 (op (.reg .i)) opB State.reset).first = .reg16 .i := by decide

theorem test_witness_SkipPassesOverConditionals :
    (load [0x2067] State.reset).fetch = .ok (.set opB (op (.small 1))) ∧
      (Instr.set opB (op (.small 1))).isConditional = false ∧
      (load [0x0801] { State.reset with pc := 0xffff }).fetch = .ok .ifex ∧ Instr.isConditional .ifex = true ∧
      State.reset.fetch = .error .illegalInstruction := by decide

/-- The value of a pattern from its decoded form. -/
theorem hasValue_of {p : Dword} {neg : Bool} {n : Nat} (h : floatValue p = .finite neg n) :
    HasValue p ((signedUnits neg n : ℚ) / 2 ^ 149) := ⟨neg, n, h, rfl⟩

/-- The patterns of 1.5, the smallest subnormal and the largest finite number, a zero divisor of either sign, and a
divisor that is not zero. -/
theorem test_witness_FloatArithmeticIsCorrectlyRounded :
    let s := { State.reset with fa := 0x00000001, fb := 0x7f7fffff }
    (∃ u, HasValue (readF (resolve2 opFa opFb s).first s) u) ∧ (∃ v, v ≠ 0 ∧ HasValue (readF (resolve2 opFa opFb s).second s) v) ∧
      HasValue 0x00000000 0 ∧ HasValue 0x80000000 0 := by
  refine ⟨⟨_, hasValue_of (neg := false) (n := 1) (by decide)⟩,
    ⟨_, ?_, hasValue_of (neg := false) (n := (2 ^ 24 - 1) <<< 253) (by decide)⟩, ⟨false, 0, by decide, ?_⟩, ⟨true, 0, by decide, ?_⟩⟩ <;>
    norm_num [signedUnits, Nat.shiftLeft_eq]

theorem test_witness_FloatSpecialValues :
    floatValue 0x7fc00000 = .nan ∧ (¬ HasValue 0x3fc00000 0) ∧ floatValue 0x7f800000 = .infinite false ∧
      floatValue 0xff800000 = .infinite true ∧ HasValue 0x00000001 (1 / 2 ^ 149) ∧ HasValue 0x80000000 0 ∧
      (HasValue (floatMul 0x7fc00000 0x80000001 0x00000001) 0 ∧ HasValue (floatDiv 0x7fc00000 0x80000001 0x41000000) 0 ∧
        HasValue (floatMod 0x7fc00000 0x80000001 0x00000001) 0) := by
  refine ⟨by decide, ?_, by decide, by decide, ⟨false, 1, by decide, ?_⟩, ⟨true, 0, by decide, ?_⟩,
    ⟨true, 0, by decide, ?_⟩, ⟨true, 0, by decide, ?_⟩, ⟨true, 0, by decide, ?_⟩⟩
  · rintro ⟨neg, n, h, hq⟩
    have hv : floatValue 0x3fc00000 = .finite false ((2 ^ 23 + 2 ^ 22) <<< 126) := by decide
    rw [hv] at h
    cases h
    norm_num [signedUnits, Nat.shiftLeft_eq] at hq
  all_goals norm_num [signedUnits]

theorem test_witness_FloatComparisonsCompareNumbers :
    (∃ u v, HasValue 0x3fc00000 u ∧ HasValue 0xbf800000 v) ∧ floatValue 0x7f800001 = .nan ∧
      floatValue 0x7f800000 = .infinite false ∧ floatValue 0xff800000 = .infinite true :=
  ⟨⟨_, _, hasValue_of (neg := false) (n := (2 ^ 23 + 2 ^ 22) <<< 126) (by decide),
    hasValue_of (neg := true) (n := 2 ^ 23 <<< 126) (by decide)⟩, by decide, by decide, by decide⟩

theorem test_witness_FloatConditionals :
    HasValue 0x00000000 0 ∧ HasValue 0x80000000 0 ∧ floatEq 0x00000000 0x80000000 = true ∧
      floatValue 0x7fc00000 = .nan := by
  refine ⟨⟨false, 0, by decide, ?_⟩, ⟨true, 0, by decide, ?_⟩, by decide, by decide⟩ <;> norm_num [signedUnits]

theorem test_witness_IntegersAndFloats :
    |(16777216 : Int)| ≤ 2 ^ 24 ∧ |(-16777216 : Int)| ≤ 2 ^ 24 ∧ HasValue 0x80000000 0 ∧
      ((1 : BitVec 8) ≠ 0 ∧ (254 : BitVec 8) ≠ 255 ∧ (1 : BitVec 23) ≠ 0) ∧ ∀ q, ¬ HasValue 0x7f800000 q := by
  refine ⟨by norm_num, by norm_num, ⟨true, 0, by decide, by norm_num [signedUnits]⟩, by decide, ?_⟩
  rintro q ⟨neg, n, h, _⟩
  have hv : floatValue 0x7f800000 = .infinite false := by decide
  rw [hv] at h
  cases h

theorem test_witness_FsetMovesPatterns :
    (resolve2 opFa (op (.mem 0xffff)) State.reset).first = .regF .fa ∧
      (resolve2 opFa (op (.mem 0xffff)) State.reset).second = .mem .low 0xffff ∧
      (resolve2 (ext (.mem 0xffff)) opA State.reset).first = .mem .low 0xffff ∧
      (resolve2 opA opFa State.reset).first = .reg16 .a ∧ (resolve2 opFa opA State.reset).second = .reg16 .a := by decide

theorem test_witness_Loads :
    let first := fun b c : Value => (resolve2 (op b) (op c) State.reset).first
    let second := fun b c : Value => (resolve2 (op b) (op c) State.reset).second
    (first (.reg .a) (.mem 0xffff) = .reg16 .a ∧ second (.reg .a) (.mem 0xffff) = .mem .low 0xffff ∧
        first .ex (.dreg .dx) = .ex ∧ second .ex (.dreg .dx) = .reg32 .dx ∧ first .pc (.freg .fa) = .pc ∧
        second .pc (.freg .fa) = .regF .fa ∧ first .sp .minusOne = .sp ∧ second .sp .minusOne = .lit 0xffff ∧
        first (.dreg .dy) (.reg .yl) = .reg32 .dy ∧ first (.mem 0xffff) .ex = .mem .low 0xffff ∧
        first (.freg .fb) (.dreg .dx) = .regF .fb) ∧
      HasValue (State.reset.freg .fa) 0 :=
  ⟨by decide, false, 0, by decide, by norm_num [signedUnits]⟩

theorem test_witness_SegmentCalls :
    State.reset.seg = .low ∧ ({ State.reset with seg := .high } : State).seg = .high := by decide

theorem test_witness_DeviceOpcodes : ¬ (0xffff : Word).toNat < Config.deviceCount.toNat :=
  Nat.not_lt.mpr (Nat.le_of_lt_succ Config.deviceCount.isLt)

theorem test_witness_PopsgAndHng :
    let s := load [0x0808] State.reset
    s.status = .running ∧ s.arrivals = [] ∧ s.queue = [] ∧ s.readWord s.seg s.pc = 0x0808 := by decide

theorem test_witness_ReturnsUndoCalls_moves :
    let s := { numbered with pc := 0x12 }
    let t := s.moveCall .high 0x300
    let u := { t with b := 7, pc := 0x350 }
    exec (.movh (op (.next 0x300))) s = .next t ∧ u.seg = t.seg ∧ u.sp = t.sp ∧
      ∀ x, x = t.sp ∨ x = t.sp + 1 → u.readWord t.seg x = t.readWord t.seg x :=
  ⟨rfl, rfl, rfl, fun _ _ => rfl⟩

/-- A routine that CALL entered and that has stored a word in RAM. -/
theorem test_witness_ReturnsUndoCalls_call :
    let t := { (numbered.push numbered.pc).pushAll with pc := 0x200 }
    let u := { t with a := 9, pc := 0x250 }.writeWord t.seg 0x1000 5
    exec (.call (op (.next 0x200))) numbered = .next t ∧ u.seg = t.seg ∧ u.sp = t.sp ∧
      ∀ k < 9, u.readWord t.seg (t.sp + BitVec.ofNat 16 k) = t.readWord t.seg (t.sp + BitVec.ofNat 16 k) := by
  intro t u
  have h : ∀ k < 9, t.sp + BitVec.ofNat 16 k ≠ 0x1000 := by decide
  refine ⟨rfl, writeWord_seg _ _ _ _, writeWord_sp _ _ _ _, fun k hk => ?_⟩
  exact (readWord_writeWord _ _ _ _ _ _).trans (if_neg fun e => h k hk e.2)

end Sys2Proof.Tests
end

/-! The dword registers of rule R21: each is a name for two 16-bit registers and has no storage of its own. -/

namespace Sys2Proof.Proofs

open Sys2Proof.Machine

/-- A dword register after a write to its high half (rule R21). -/
@[simp] theorem dreg_setReg_highHalf (s : State) (d : DReg) (w : Word) :
    (s.setReg (highHalf d) w).dreg d = w ++ s.reg (lowHalf d) := by
  have hne : lowHalf d ≠ highHalf d := by cases d <;> decide
  simp [State.dreg, dword, hne]

/-- A dword register after a write to its low half (rule R21). -/
@[simp] theorem dreg_setReg_lowHalf (s : State) (d : DReg) (w : Word) :
    (s.setReg (lowHalf d) w).dreg d = s.reg (highHalf d) ++ w := by
  have hne : highHalf d ≠ lowHalf d := by cases d <;> decide
  simp [State.dreg, dword, hne]

/-- A write to DX changes XH and XL alone. -/
theorem setDreg_dx (s : State) (v : Dword) :
    s.setDreg .dx v = { s with xh := v.extractLsb' 16 16, xl := v.extractLsb' 0 16 } := rfl

/-- A write to DY changes YH and YL alone. -/
theorem setDreg_dy (s : State) (v : Dword) :
    s.setDreg .dy v = { s with yh := v.extractLsb' 16 16, yl := v.extractLsb' 0 16 } := rfl

theorem decode_value_dx (n : Word) : Value.decode 0x08 n = some (.dreg .dx) := rfl

theorem decode_value_dy (n : Word) : Value.decode 0x09 n = some (.dreg .dy) := rfl

/-- Settles O30: the halves of each dword register differ, so a write to one leaves the other, and a dword written is
the two words it is stored as. -/
theorem dwordRegistersAreTheirHalves : Obligations.DwordRegistersAreTheirHalves := by
  intro s v w
  refine ⟨?readDx, ?readDy, ?writeXh, ?writeXl, ?writeYh, ?writeYl, setDreg_dx s v, setDreg_dy s v,
    dreg_setDreg s .dx v, dreg_setDreg s .dy v, fun n => ⟨decode_value_dx n, decode_value_dy n⟩⟩
  case readDx | readDy => rfl
  case writeXh => exact dreg_setReg_highHalf s .dx w
  case writeXl => exact dreg_setReg_lowHalf s .dx w
  case writeYh => exact dreg_setReg_highHalf s .dy w
  case writeYl => exact dreg_setReg_lowHalf s .dy w

end Sys2Proof.Proofs

/-! The value code 0x0c of rule R125: PUSH as first parameter, POP as second. -/

namespace Sys2Proof.Proofs

open Sys2Proof.Machine

/-- As first parameter code 0x0c is PUSH (rule R125). -/
theorem resolve_first_stack (e : Bool) (s : State) :
    resolve true ⟨e, .stack⟩ s = ⟨.mem s.seg (s.sp - 1), { s with sp := s.sp - 1 }⟩ := rfl

/-- As second parameter code 0x0c is POP (rule R125). -/
theorem resolve_second_stack (e : Bool) (s : State) :
    resolve false ⟨e, .stack⟩ s = ⟨.mem s.seg s.sp, { s with sp := s.sp + 1 }⟩ := rfl

/-- Every other code resolves without a change of the state (rules R123, R127). -/
theorem resolve_state_of_ne_stack {o : Operand} (h : o.value ≠ .stack) (first : Bool) (s : State) :
    (resolve first o s).state = s := by
  rw [resolve_state, if_neg h]

/-- PUSH and then POP name one word, and SP is back where it was. -/
theorem resolve2_stack_stack (e : Bool) (s : State) :
    resolve2 ⟨e, .stack⟩ ⟨e, .stack⟩ s = ⟨.mem s.seg (s.sp - 1), .mem s.seg (s.sp - 1), s⟩ := by
  have hsp : s.sp - 1 + 1 = s.sp := BitVec.sub_add_cancel s.sp 1
  simp only [resolve2, resolve_first_stack, resolve_second_stack, hsp]

/-- With PUSH alone, SP is one lower after both resolutions, and the second parameter is resolved with that SP. -/
theorem resolve2_stack_first {b : Operand} (h : b.value ≠ .stack) (e : Bool) (s : State) :
    resolve2 ⟨e, .stack⟩ b s =
      ⟨.mem s.seg (s.sp - 1), (resolve false b { s with sp := s.sp - 1 }).place, { s with sp := s.sp - 1 }⟩ := by
  simp only [resolve2, resolve_first_stack, resolve_state_of_ne_stack h]

theorem exec_add (a b : Operand) (s : State) : exec (.add a b) s = execAdd a b s := rfl

theorem exec_ife (a b : Operand) (s : State) : exec (.ife a b) s = execIfe a b s := rfl

/-- A Basic conditional changes SP by the resolution of its parameters alone, whether its test holds or it skips. -/
theorem basicTest_sp {test : Word → Word → Bool} {a b : Operand} {s t : State}
    (h : basicTest test a b s = .next t) : t.sp = (resolve2 a b s).state.sp := by
  simp only [basicTest] at h
  split at h
  case isTrue => cases h; rfl
  case isFalse => rw [skip_frame h]

/-- Settles O27: each occurrence of code 0x0c moves SP at the resolution, so ADD works on the one word PUSH names, and
IFE, which writes nothing, leaves SP where PUSH put it. -/
theorem stackCodeIsPositional : Obligations.StackCodeIsPositional := by
  intro e s
  refine ⟨resolve_first_stack e s, resolve_second_stack e s, resolve2_stack_stack e s, ?add, ?ife⟩
  case add =>
    intro b hb
    rw [exec_add, execAdd, basicWriteEx, resolve2_stack_first hb]
    rfl
  case ife =>
    intro b t hb h
    rw [exec_ife, execIfe] at h
    rw [basicTest_sp h, resolve2_stack_first hb]

end Sys2Proof.Proofs

/-! The Basic opcodes of 41_basic.md: their words, the two outcomes of a conditional, and the exact results narrowed to
words. -/

namespace Sys2Proof.Proofs

open Sys2Proof.Machine

/-! ### Encoding -/

/-- The codes that fit the 4-bit field are those below 16 (rule R121). -/
theorem field_toNat_lt_of_fitsFourBits {a : Operand} (h : a.fitsFourBits = true) : a.field.toNat < 16 := by
  obtain ⟨extended, v⟩ := a
  cases extended with
  | true => exact (by decide : 0x0f < 16)
  | false =>
    change v.fitsFourBits = true at h
    change v.code.toNat < 16
    cases v with
    | reg r => cases r <;> decide
    | dreg d => cases d <;> decide
    | freg f => cases f <;> decide
    | stack | peek => decide
    | pick n => exact (by decide : 0x0d < 16)
    | _ => cases h

/-- A first parameter's field below 16 has its bits inside the four of the format, so the fields side by side are the
fields shifted to their places (rules R90, R92). -/
theorem append_fields_eq_or (o : BitVec 5) {f : BitVec 6} (hf : f.toNat < 16) (g : BitVec 6) :
    (1#1 ++ o ++ f.setWidth 4 ++ g : Word) = (1#1 ++ o ++ 0#10) ||| (f.setWidth 16 <<< 6) ||| g.setWidth 16 := by
  have hhigh : ∀ j, 4 ≤ j → f.getLsbD j = false := fun j hj =>
    Nat.testBit_lt_two_pow (hf.trans_le (Nat.pow_le_pow_right (n := 2) (by decide) hj))
  apply BitVec.eq_of_getLsbD_eq
  intro k hk
  simp only [BitVec.getLsbD_append, BitVec.getLsbD_or, BitVec.getLsbD_shiftLeft, BitVec.getLsbD_setWidth]
  by_cases h6 : k < 6
  · simp [h6, hk, show k < 10 by omega]
  · have hg : g.getLsbD k = false := BitVec.getLsbD_of_ge g k (by omega)
    by_cases h10 : k < 10
    · simp [h6, hk, h10, hg, show k - 6 < 4 by omega, show k - 6 < 16 by omega]
    · simp [h6, h10, hg, show ¬ k - 6 < 4 by omega, show k - 6 - 4 = k - 10 by omega, hhigh (k - 6) (by omega)]

/-- The first word of a Basic instruction, `1oooooaaaabbbbbb`, and the words of its parameters (rules R92, R98). -/
theorem encodesTo_basic (o : BitVec 5) {i : Instr} {a b : Operand} (hi : encode i = encodeBasic o a b)
    (hops : i.operands = [a, b]) (ha : a.fitsFourBits = true) :
    EncodesTo i (firstWordTwo (1#1 ++ o ++ 0#10) a b) := by
  rw [EncodesTo, hi, hops, encodeBasic, append_fields_eq_or o (field_toNat_lt_of_fitsFourBits ha)]
  simp [firstWordTwo]

/-! ### What the shared shapes of the Basic opcodes do -/

/-- A Basic conditional whose test decides `P` performs the next instruction only if `P` (rule R172). -/
theorem basicTest_performsNextOnlyIf {test : Word → Word → Bool} {P : Prop} {a b : Operand} {s : State} :
    let r := resolve2 a b s
    (test (readW r.first r.state) (readW r.second r.state) = true ↔ P) →
      PerformsNextOnlyIf P r.state (basicTest test a b s) :=
  fun h => ⟨fun hp => if_pos (h.mpr hp), fun hp => if_neg (mt h.mp hp)⟩

/-- The next state of a Basic opcode whose result is `v` (rule R170). -/
theorem basicWrite_eq_next {f : Word → Word → Word} {sg : Signedness} {a b : Operand} {s : State} {v : Word} :
    let r := resolve2 a b s
    f (readW r.first r.state) (readW r.second r.state) = v →
      basicWrite f sg a b s = .next (writeW r.first v sg r.state) := by
  intro r h
  rw [← h, basicWrite]

/-- The next state of a Basic opcode whose result is `v` and whose EX is `e` (rule R170). -/
theorem basicWriteEx_eq_next {f : Word → Word → Word → WithEx} {sg : Signedness} {a b : Operand} {s : State}
    {v e : Word} :
    let r := resolve2 a b s
    f (readW r.first r.state) (readW r.second r.state) r.state.ex = ⟨v, e⟩ →
      basicWriteEx f sg a b s = .next { writeW r.first v sg r.state with ex := e } := by
  intro r h
  simp only [basicWriteEx, r, h]

/-- A write in domain W reaches I only as the 16-bit place I: I is no half of a dword register (rules R20, R21). -/
theorem writeW_i (p : Place) (w : Word) (sg : Signedness) (s : State) :
    (writeW p w sg s).i = if p = .reg16 .i then w else s.i := by
  split
  case isTrue h => rw [h]; rfl
  case isFalse h =>
    obtain ⟨hreg, -⟩ := writeW_frame p w sg s
    refine hreg .i ?_
    cases p with
    | reg16 r =>
      cases r with
      | i => exact absurd rfl h
      | _ => rfl
    | reg32 d => cases d <;> rfl
    | _ => rfl

/-- `[I]` names the word at I in the current segment (rule R120). -/
theorem resolve2_first_ind_i {a : Operand} (h : a.value = .ind .i) (b : Operand) (s : State) :
    (resolve2 a b s).first = .mem s.seg s.i := by
  simp only [resolve2, resolve, h, State.reg]

/-- STI and STD step the word written where I is the destination, and the old I anywhere else (rules R181, R182). -/
theorem storeAndStep_eq_next (step : Word → Word) (a b : Operand) (s : State) :
    let r := resolve2 a b s
    let y := readW r.second r.state
    storeAndStep step a b s = .next { writeW r.first y .unsigned r.state with
      i := if r.first = .reg16 .i then step y else step s.i } := by
  simp only [storeAndStep, writeW_i, resolve2_i, apply_ite step]

/-! ### Exact results narrowed to words -/

theorem u16_uInt (x : Word) : u16 (uInt x) = x := by
  simp [u16, uInt]

theorem u16_s16 (x : Word) : u16 (s16 x) = x := BitVec.ofInt_toInt

theorem u32_uInt (x : Word) : u32 (uInt x) = x.zeroExtend 32 := by
  simp [u32, uInt]

theorem u32_s16 (x : Word) : u32 (s16 x) = x.signExtend 32 := rfl

theorem u16_add (t v : Int) : u16 (t + v) = u16 t + u16 v := BitVec.ofInt_add t v

theorem u16_sub (t v : Int) : u16 (t - v) = u16 t - u16 v := by
  rw [Int.sub_eq_add_neg, u16_add, BitVec.sub_eq_add_neg]
  exact congrArg (u16 t + ·) BitVec.ofInt_neg

theorem u16_mul (t v : Int) : u16 (t * v) = u16 t * u16 v := BitVec.ofInt_mul t v

theorem u32_mul (t v : Int) : u32 (t * v) = u32 t * u32 v := BitVec.ofInt_mul t v

/-- The low half of a result is that of its 32-bit form. -/
theorem u16_eq_extractLsb'_u32 (t : Int) : u16 t = (u32 t).extractLsb' 0 16 := by
  apply BitVec.eq_of_toNat_eq
  simp only [u16, u32, BitVec.extractLsb'_toNat, BitVec.toNat_ofInt]
  omega

/-- The overflow half of a result is the high half of its 32-bit form (rule R9). -/
theorem overflowHalf_eq_extractLsb'_u32 (t : Int) : overflowHalf t = (u32 t).extractLsb' 16 16 := by
  apply BitVec.eq_of_toNat_eq
  simp only [overflowHalf, u16, u32, BitVec.extractLsb'_toNat, BitVec.toNat_ofInt, Nat.shiftRight_eq_div_pow,
    Int.shiftRight_eq_div_pow]
  omega

/-- An exact result is split as its 32-bit form is. -/
theorem splitExact_eq_halves (t : Int) :
    splitExact t = ⟨(u32 t).extractLsb' 0 16, (u32 t).extractLsb' 16 16⟩ := by
  rw [splitExact, u16_eq_extractLsb'_u32, overflowHalf_eq_extractLsb'_u32]

/-- The overflow half of a sum of two words is its carry (rule R183). -/
theorem overflowHalf_add (x y : Word) :
    overflowHalf (uInt x + uInt y) = if 0x10000 ≤ x.toNat + y.toNat then 1 else 0 := by
  have hhalf : (uInt x + uInt y) >>> (16 : Nat) = if 0x10000 ≤ x.toNat + y.toNat then 1 else 0 := by
    simp only [uInt, Int.shiftRight_eq_div_pow, Int.ofNat_eq_natCast]
    split <;> omega
  rw [overflowHalf, hhalf]
  split <;> rfl

/-- The overflow half of a difference of two words is -1 on a borrow: the shift is arithmetic (rules R9, R184). -/
theorem overflowHalf_sub (x y : Word) :
    overflowHalf (uInt x - uInt y) = if x.toNat < y.toNat then 0xffff else 0 := by
  have hhalf : (uInt x - uInt y) >>> (16 : Nat) = if x.toNat < y.toNat then -1 else 0 := by
    simp only [uInt, Int.shiftRight_eq_div_pow, Int.ofNat_eq_natCast]
    split <;> omega
  rw [overflowHalf, hhalf]
  split <;> rfl

theorem addEx_eq (x y : Word) : addEx x y = ⟨x + y, if 0x10000 ≤ x.toNat + y.toNat then 1 else 0⟩ := by
  rw [addEx, splitExact, u16_add, u16_uInt, u16_uInt, overflowHalf_add]

theorem subEx_eq (x y : Word) : subEx x y = ⟨x - y, if x.toNat < y.toNat then 0xffff else 0⟩ := by
  rw [subEx, splitExact, u16_sub, u16_uInt, u16_uInt, overflowHalf_sub]

theorem mulEx_eq (x y : Word) :
    mulEx x y = ⟨(x.zeroExtend 32 * y.zeroExtend 32).extractLsb' 0 16,
      (x.zeroExtend 32 * y.zeroExtend 32).extractLsb' 16 16⟩ := by
  rw [mulEx, splitExact_eq_halves, u32_mul, u32_uInt, u32_uInt]

theorem mliEx_eq (x y : Word) :
    mliEx x y = ⟨(x.signExtend 32 * y.signExtend 32).extractLsb' 0 16,
      (x.signExtend 32 * y.signExtend 32).extractLsb' 16 16⟩ := by
  rw [mliEx, splitExact_eq_halves, u32_mul, u32_s16, u32_s16]

/-- Both products have the low word of the product of the words: they differ in EX alone (rule R186). -/
theorem low_zeroExtend_mul_eq_signExtend_mul (x y : Word) :
    (x.zeroExtend 32 * y.zeroExtend 32).extractLsb' 0 16 = (x.signExtend 32 * y.signExtend 32).extractLsb' 0 16 := by
  calc
    _ = u16 (uInt x * uInt y) := by rw [u16_eq_extractLsb'_u32, u32_mul, u32_uInt, u32_uInt]
    _ = u16 (s16 x * s16 y) := by simp only [u16_mul, u16_uInt, u16_s16]
    _ = _ := by rw [u16_eq_extractLsb'_u32, u32_mul, u32_s16, u32_s16]

/-! ### Unsigned division -/

/-- A word in the high half of a dword, above a zero low half, is the word times 65536. -/
theorem toNat_append_zero (x : Word) : (x ++ 0#16).toNat = x.toNat * 65536 := by
  rw [BitVec.toNat_append, Nat.shiftLeft_eq]
  exact Nat.or_zero _

/-- The fraction bits of DIV are the low word of a 32-bit division (rule R187). -/
theorem ofNat_fraction (x y : Word) :
    BitVec.ofNat 16 (x.toNat * 65536 / y.toNat) = ((x ++ 0#16) / y.zeroExtend 32).extractLsb' 0 16 := by
  have hy : (y.zeroExtend 32).toNat = y.toNat := BitVec.toNat_setWidth_of_le (by decide)
  apply BitVec.eq_of_toNat_eq
  rw [BitVec.extractLsb'_toNat, BitVec.toNat_udiv, toNat_append_zero, hy, BitVec.toNat_ofNat, Nat.shiftRight_zero]

theorem divEx_of_ne_zero {x y : Word} (h : y ≠ 0) :
    divEx x y = ⟨x / y, ((x ++ 0#16) / y.zeroExtend 32).extractLsb' 0 16⟩ := by
  rw [divEx, if_neg h, ← BitVec.udiv_def, ofNat_fraction]

theorem divEx_of_eq_zero {y : Word} (h : y = 0) (x : Word) : divEx x y = ⟨0, 0⟩ := if_pos h

theorem modResult_of_ne_zero {x y : Word} (h : y ≠ 0) : modResult x y = x % y := by
  rw [modResult, if_neg h, ← BitVec.umod_def]

theorem modResult_of_eq_zero {y : Word} (h : y = 0) (x : Word) : modResult x y = 0 := if_pos h

end Sys2Proof.Proofs

/-! The statements of the Basic opcodes: the conditionals, the unsigned arithmetic, both products, the bitwise opcodes,
and the stores that step I. -/

namespace Sys2Proof.Proofs

open Sys2Proof.Machine

theorem exec_ifb (a b : Operand) (s : State) : exec (.ifb a b) s = execIfb a b s := rfl

theorem exec_ifc (a b : Operand) (s : State) : exec (.ifc a b) s = execIfc a b s := rfl

theorem exec_ifn (a b : Operand) (s : State) : exec (.ifn a b) s = execIfn a b s := rfl

theorem exec_ifg (a b : Operand) (s : State) : exec (.ifg a b) s = execIfg a b s := rfl

theorem exec_ifa (a b : Operand) (s : State) : exec (.ifa a b) s = execIfa a b s := rfl

theorem exec_ifl (a b : Operand) (s : State) : exec (.ifl a b) s = execIfl a b s := rfl

theorem exec_ifu (a b : Operand) (s : State) : exec (.ifu a b) s = execIfu a b s := rfl

theorem exec_sti (a b : Operand) (s : State) : exec (.sti a b) s = execSti a b s := rfl

theorem exec_std (a b : Operand) (s : State) : exec (.std a b) s = execStd a b s := rfl

theorem exec_sub (a b : Operand) (s : State) : exec (.sub a b) s = execSub a b s := rfl

theorem exec_mul (a b : Operand) (s : State) : exec (.mul a b) s = execMul a b s := rfl

theorem exec_mli (a b : Operand) (s : State) : exec (.mli a b) s = execMli a b s := rfl

theorem exec_div (a b : Operand) (s : State) : exec (.div a b) s = execDiv a b s := rfl

theorem exec_mod (a b : Operand) (s : State) : exec (.mod a b) s = execMod a b s := rfl

theorem exec_and (a b : Operand) (s : State) : exec (.and a b) s = execAnd a b s := rfl

theorem exec_bor (a b : Operand) (s : State) : exec (.bor a b) s = execBor a b s := rfl

theorem exec_xor (a b : Operand) (s : State) : exec (.xor a b) s = execXor a b s := rfl

/-- Settles O36: each test decides its relation of the two words, and the shape of a conditional does the rest. -/
theorem basicConditionals : Obligations.BasicConditionals := by
  intro a b s r x y
  refine ⟨⟨?ifb, ?ifc, ?ife, ?ifn, ?ifg, ?ifa, ?ifl, ?ifu⟩, fun ha => ?words⟩
  case ifb => rw [exec_ifb]; exact basicTest_performsNextOnlyIf bne_iff_ne
  case ifc => rw [exec_ifc]; exact basicTest_performsNextOnlyIf beq_iff_eq
  case ife => rw [exec_ife]; exact basicTest_performsNextOnlyIf beq_iff_eq
  case ifn => rw [exec_ifn]; exact basicTest_performsNextOnlyIf bne_iff_ne
  case ifg => rw [exec_ifg]; exact basicTest_performsNextOnlyIf decide_eq_true_iff
  case ifa => rw [exec_ifa]; exact basicTest_performsNextOnlyIf decide_eq_true_iff
  case ifl => rw [exec_ifl]; exact basicTest_performsNextOnlyIf decide_eq_true_iff
  case ifu => rw [exec_ifu]; exact basicTest_performsNextOnlyIf decide_eq_true_iff
  case words =>
    exact ⟨encodesTo_basic 0x00 rfl rfl ha, encodesTo_basic 0x01 rfl rfl ha, encodesTo_basic 0x02 rfl rfl ha,
      encodesTo_basic 0x03 rfl rfl ha, encodesTo_basic 0x04 rfl rfl ha, encodesTo_basic 0x05 rfl rfl ha,
      encodesTo_basic 0x06 rfl rfl ha, encodesTo_basic 0x07 rfl rfl ha⟩

/-- Settles O37: the exact sum and difference have the carry and the borrow as their overflow half. -/
theorem addAndSub : Obligations.AddAndSub := by
  intro a b s r x y
  refine ⟨?add, ?sub, fun ha => ⟨encodesTo_basic 0x0b rfl rfl ha, encodesTo_basic 0x0c rfl rfl ha⟩⟩
  case add => rw [exec_add]; exact basicWriteEx_eq_next (addEx_eq x y)
  case sub => rw [exec_sub]; exact basicWriteEx_eq_next (subEx_eq x y)

/-- Settles O38: the 32-bit form of the exact product is the product of the extended words. -/
theorem multiplications : Obligations.Multiplications := by
  intro a b s r x y u v
  refine ⟨?mul, ?mli, low_zeroExtend_mul_eq_signExtend_mul x y,
    fun ha => ⟨encodesTo_basic 0x0d rfl rfl ha, encodesTo_basic 0x0e rfl rfl ha⟩⟩
  case mul => rw [exec_mul]; exact basicWriteEx_eq_next (mulEx_eq x y)
  case mli => rw [exec_mli]; exact basicWriteEx_eq_next (mliEx_eq x y)

/-- Settles O39: by cases on whether the divisor is zero. -/
theorem unsignedDivisions : Obligations.UnsignedDivisions := by
  intro a b s r x y
  rw [exec_div, exec_mod]
  refine ⟨fun hy => ⟨?div, ?mod⟩, fun hy => ⟨?divZero, ?modZero⟩,
    fun ha => ⟨encodesTo_basic 0x0f rfl rfl ha, encodesTo_basic 0x11 rfl rfl ha⟩⟩
  case div => exact basicWriteEx_eq_next (divEx_of_ne_zero hy)
  case mod => exact basicWrite_eq_next (modResult_of_ne_zero hy)
  case divZero => exact basicWriteEx_eq_next (divEx_of_eq_zero hy x)
  case modZero => exact basicWrite_eq_next (modResult_of_eq_zero hy x)

/-- Settles O41: the three opcodes write the operation of the two words and touch EX only as a destination. -/
theorem bitwiseOpcodes : Obligations.BitwiseOpcodes := by
  intro a b s r x y
  refine ⟨?and, ?bor, ?xor, fun ha => ⟨encodesTo_basic 0x13 rfl rfl ha, encodesTo_basic 0x14 rfl rfl ha,
    encodesTo_basic 0x15 rfl rfl ha⟩⟩
  case and => rw [exec_and]; exact basicWrite_eq_next rfl
  case bor => rw [exec_bor]; exact basicWrite_eq_next rfl
  case xor => rw [exec_xor]; exact basicWrite_eq_next rfl

/-- Settles O44: the step is taken from the I that the write leaves, and the address of `[I]` from the I before it. -/
theorem storeAndStepI : Obligations.StoreAndStepI := by
  intro a b s r y t
  refine ⟨?sti, ?std, fun hi => resolve2_first_ind_i hi b s,
    fun ha => ⟨encodesTo_basic 0x09 rfl rfl ha, encodesTo_basic 0x0a rfl rfl ha⟩⟩
  case sti => rw [exec_sti]; exact storeAndStep_eq_next (· + 1) a b s
  case std => rw [exec_std]; exact storeAndStep_eq_next (· - 1) a b s

end Sys2Proof.Proofs

/-! The Binary opcodes of 45_binary.md: their words, IFEX, the moves to a segment, and the stacks of the eight
registers. -/

namespace Sys2Proof.Proofs

open Sys2Proof.Machine

theorem exec_ifex (s : State) : exec .ifex s = execIfex s := rfl

theorem exec_hsg (s : State) : exec .hsg s = .next { s with seg := .high } := rfl

theorem exec_lsg (s : State) : exec .lsg s = .next { s with seg := .low } := rfl

theorem exec_pusha (s : State) : exec .pusha s = .next s.pushAll := rfl

theorem exec_popa (s : State) : exec .popa s = .next s.popAll := rfl

/-- A Binary opcode is the one word of its number (rule R96). -/
theorem encodesTo_binary (o : BitVec 11) {i : Instr} (hi : encode i = encodeBinary o) (hops : i.operands = []) :
    EncodesTo i (1#5 ++ o) := by
  rw [EncodesTo, hi, hops, encodeBinary, List.flatMap_nil]

/-- IFEX has the shape of a conditional with no parameters to resolve. -/
theorem execIfex_performsNextOnlyIf (s : State) : PerformsNextOnlyIf (s.ex ≠ 0) s (execIfex s) :=
  ⟨fun hne => if_neg hne, fun h => if_pos (not_not.mp h)⟩

/-- Settles O46: IFEX runs on or skips as EX decides, and the rest is read off the tables. -/
theorem ifexTestsEx : Obligations.IfexTestsEx := by
  intro s
  rw [exec_ifex]
  exact ⟨execIfex_performsNextOnlyIf s, encodesTo_binary 0x001 rfl rfl, rfl, rfl⟩

/-! ### Pushes in a row -/

/-- The addresses that `n` pushes store to: those from the one below SP down, in the current segment. -/
def Pushed (s : State) (n : Nat) (g : Seg) (x : Word) : Prop :=
  g = s.seg ∧ ∃ k < n, x = s.sp - 1 - BitVec.ofNat 16 k

/-- Of pushes in a row, the one before the others lies one word above them. -/
theorem sub_one_sub_ofNat (x : Word) (k : Nat) : x - 1 - 1 - BitVec.ofNat 16 k = x - 1 - BitVec.ofNat 16 (k + 1) := by
  rw [BitVec.sub_sub (x - 1), BitVec.add_comm, BitVec.ofNat_add]
  rfl

/-- What later pushes store to, a push and they together store to. -/
theorem pushed_succ_of_pushed {s : State} {w : Word} {n : Nat} {g : Seg} {x : Word} (h : Pushed (s.push w) n g x) :
    Pushed s (n + 1) g x := by
  obtain ⟨hg, k, hk, hx⟩ := h
  rw [push_sp, sub_one_sub_ofNat] at hx
  exact ⟨hg, k + 1, Nat.succ_lt_succ hk, hx⟩

/-- Fewer than 65536 later pushes do not come round to the word that a push stored. -/
theorem not_pushed_top {s : State} {w : Word} {n : Nat} (hn : n < 65536) (g : Seg) :
    ¬ Pushed (s.push w) n g (s.sp - 1) := by
  rintro ⟨-, k, hk, hx⟩
  rw [push_sp, sub_one_sub_ofNat] at hx
  have hzero : BitVec.ofNat 16 (k + 1) = 0 := sub_eq_self.mp hx.symm
  have hmod : (k + 1) % 65536 = 0 := congrArg BitVec.toNat hzero
  omega

/-- Pushes leave every word outside their addresses. -/
theorem readWord_pushes_of_not_pushed {ws : List Word} {s : State} {g : Seg} {x : Word}
    (h : ¬ Pushed s ws.length g x) : (ws.foldl State.push s).readWord g x = s.readWord g x := by
  induction ws generalizing s with
  | nil => rfl
  | cons w rest ih =>
    have hx : ¬ (g = s.seg ∧ x = s.sp - 1) := fun ⟨hg, hx⟩ => h ⟨hg, 0, Nat.succ_pos _, by simpa using hx⟩
    calc
      _ = (s.push w).readWord g x := ih (mt pushed_succ_of_pushed h)
      _ = s.readWord g x := by rw [readWord_push, if_neg hx]

/-- The word pushed `k`-th stands `k` words below the first, as long as the pushes fit in the segment. -/
theorem readWord_pushes {ws : List Word} {s : State} (hlen : ws.length ≤ 65536) {k : Nat} (hk : k < ws.length) :
    (ws.foldl State.push s).readWord s.seg (s.sp - 1 - BitVec.ofNat 16 k) = ws[k] := by
  induction ws generalizing s k with
  | nil => cases hk
  | cons w rest ih =>
    cases k with
    | zero =>
      calc
        _ = (s.push w).readWord s.seg (s.sp - 1) := by
          rw [BitVec.ofNat_eq_ofNat, BitVec.sub_zero]
          exact readWord_pushes_of_not_pushed (not_pushed_top hlen s.seg)
        _ = w := by rw [readWord_push, if_pos ⟨rfl, rfl⟩]
    | succ k =>
      rw [← sub_one_sub_ofNat]
      exact ih (s := s.push w) (Nat.le_of_succ_le hlen) (Nat.lt_of_succ_lt_succ hk)

/-! ### The stacks of the eight registers -/

/-- The words that PUSHA pushes, in the order of the pushes (rule R316). -/
def pushaFrame (s : State) : List Word := [s.a, s.b, s.c, s.xh, s.xl, s.yh, s.yl, s.i]

theorem pushAll_eq_foldl (s : State) : s.pushAll = (pushaFrame s).foldl State.push s := rfl

theorem pushAll_sameData (s : State) : SameData s s.pushAll := by
  rw [pushAll_frame]
  exact ⟨fun r => by cases r <;> rfl, fun f => by cases f <;> rfl, rfl⟩

theorem pushAll_sameControl (s : State) : SameControl s s.pushAll := by
  rw [pushAll_frame]
  exact ⟨rfl, rfl, rfl, rfl, rfl, rfl⟩

/-- The eight pops in full: the words from SP up, into the registers in the reverse order of PUSHA (rule R317). -/
theorem popAll_eq (s : State) :
    let w := fun k : Nat => s.readWord s.seg (s.sp + BitVec.ofNat 16 k)
    s.popAll = { s with
      i := w 0, yl := w 1, yh := w 2, xl := w 3, xh := w 4, c := w 5, b := w 6, a := w 7, sp := s.sp + 8 } := by
  intro w
  have h0 : w 0 = s.readWord s.seg s.sp := by simp only [w, BitVec.add_zero]
  rw [h0]
  simp only [State.popAll, popReg_eqs, BitVec.add_assoc]
  rfl

/-- Settles O58: PUSHA is eight pushes in a row, which leave all but SP and their eight words; POPA is read off its
eight pops. -/
theorem segmentMovesAndRegisterStacks : Obligations.SegmentMovesAndRegisterStacks := by
  intro s frame w
  refine ⟨?words, ⟨rfl, rfl, rfl, rfl⟩, exec_hsg s, exec_lsg s, ⟨s.pushAll, exec_pusha s, ?sp, ?pc,
    pushAll_sameData s, pushAll_sameControl s, ?pushed, ?others⟩, ?popa⟩
  case words =>
    exact ⟨encodesTo_binary 0x005 rfl rfl, encodesTo_binary 0x006 rfl rfl, encodesTo_binary 0x00b rfl rfl,
      encodesTo_binary 0x00c rfl rfl⟩
  case sp | pc => rw [pushAll_frame]
  case pushed =>
    intro k hk
    rw [pushAll_eq_foldl]
    exact readWord_pushes (ws := pushaFrame s) (by decide : 8 ≤ 65536) hk
  case others =>
    intro g x h
    rw [pushAll_eq_foldl]
    exact readWord_pushes_of_not_pushed h
  case popa => rw [exec_popa, popAll_eq]

end Sys2Proof.Proofs

/-! Taking an interrupt (rule R337), and the number of devices at power-on (rule R351). -/

namespace Sys2Proof.Proofs

open Sys2Proof.Machine

/-! ### Taking an interrupt -/

theorem sub_one_sub_one (x : Word) : x - 1 - 1 = x - 2 := BitVec.sub_sub x 1 1

/-- RAM after the entry: of the two words pushed, A lies below PC (rules R10, R337). -/
theorem readWord_enterInterrupt (s : State) (m : Word) (g : Seg) (x : Word) :
    (s.enterInterrupt m).readWord g x =
      if g = s.seg ∧ x = s.sp - 2 then s.a
      else if g = s.seg ∧ x = s.sp - 1 then s.pc else s.readWord g x := by
  calc
    _ = (({ s with iaqOn := true }.push s.pc).push s.a).readWord g x := readWord_congr rfl g x
    _ = _ := by rw [readWord_push, readWord_push, push_seg, push_sp, sub_one_sub_one]; rfl

/-- The entry changes no general register but A. -/
theorem reg_enterInterrupt_of_ne {r : Reg} (h : r ≠ .a) (s : State) (m : Word) :
    (s.enterInterrupt m).reg r = s.reg r := by
  rw [enterInterrupt_eq]
  cases r with
  | a => exact absurd rfl h
  | _ => rfl

@[simp] theorem freg_enterInterrupt (s : State) (m : Word) (f : FReg) :
    (s.enterInterrupt m).freg f = s.freg f := by
  rw [enterInterrupt_eq]
  cases f <;> rfl

@[simp] theorem enterInterrupt_sp (s : State) (m : Word) : (s.enterInterrupt m).sp = s.sp - 2 := by
  rw [enterInterrupt_eq]
  exact sub_one_sub_one s.sp

/-- Settles O19: the registers are read off the entry in full, the words of RAM off its two pushes, whose addresses
differ. -/
theorem interruptEntry : Obligations.InterruptEntry := by
  intro s m t
  refine ⟨rfl, enterInterrupt_sp s m, ?pc, ?a, rfl, rfl, fun r h => reg_enterInterrupt_of_ne h s m,
    freg_enterInterrupt s m, rfl, rfl, rfl, rfl, rfl, rfl, ?others⟩
  case pc =>
    have hne : s.sp - 1 ≠ s.sp - 2 := by bv_omega
    rw [readWord_enterInterrupt, if_neg (fun h => hne h.2), if_pos ⟨rfl, rfl⟩]
  case a => rw [readWord_enterInterrupt, if_pos ⟨rfl, rfl⟩]
  case others =>
    intro g x h
    rw [readWord_enterInterrupt, if_neg (fun ⟨hg, hx⟩ => h ⟨hg, .inr hx⟩), if_neg (fun ⟨hg, hx⟩ => h ⟨hg, .inl hx⟩)]

/-! ### The devices at power-on -/

/-- A machine on fire performs no step (rule R38). -/
theorem step_of_onFire {s : State} {r : FireReason} (h : s.status = .onFire r) : step s = .fault (.onFire r) := by
  rw [step, h]

theorem powerOn_of_le {n : Nat} (h : n ≤ Config.maxDevices) : State.powerOn n = State.reset := if_pos h

theorem powerOn_of_gt {n : Nat} (h : Config.maxDevices < n) :
    State.powerOn n = { State.reset with status := .onFire .tooManyDevices } := if_neg (Nat.not_le.mpr h)

/-- Settles O12: by cases on whether the devices are more than their number's word can count. -/
theorem tooManyDevicesIsFire : Obligations.TooManyDevicesIsFire := by
  intro n
  refine ⟨fun hmany => ?fire, fun hfew => ⟨powerOn_of_le hfew, ?fits⟩⟩
  case fire =>
    have hfire : (State.powerOn n).status = .onFire .tooManyDevices := by rw [powerOn_of_gt hmany]
    exact ⟨hfire, step_of_onFire hfire⟩
  case fits => exact (BitVec.toNat_ofNat n 16).trans (Nat.mod_eq_of_lt (Nat.lt_succ_of_le hfew))

end Sys2Proof.Proofs

/-! Value codes and operands (rules R98 to R100, R120): what the decoder reads from a field and the words after it. -/

namespace Sys2Proof.Proofs

open Sys2Proof.Machine

/-! ### Value codes -/

theorem number_lt_eight (r : Reg) : r.number < 8 := by cases r <;> decide

@[simp] theorem ofNumber_number (r : Reg) : Reg.ofNumber r.number = r := by cases r <;> rfl

theorem decode_value_reg {k : Nat} (h : k < 8) (n : Word) : Value.decode k n = some (.reg (Reg.ofNumber k)) :=
  if_pos h

theorem decode_value_ind {k : Nat} (h : k < 8) (n : Word) :
    Value.decode (0x10 + k) n = some (.ind (Reg.ofNumber k)) := by
  interval_cases k <;> rfl

theorem decode_value_idx {k : Nat} (h : k < 8) (n : Word) :
    Value.decode (0x18 + k) n = some (.idx (Reg.ofNumber k) n) := by
  interval_cases k <;> rfl

theorem decode_value_small {k : Nat} (h : k < 16) (n : Word) :
    Value.decode (0x26 + k) n = some (.small (BitVec.ofNat 4 k)) := by
  interval_cases k <;> rfl

theorem decode_value_power {k : Nat} (h : k < 10) (n : Word) :
    Value.decode (0x36 + k) n = some (.power ⟨k, h⟩) := by
  interval_cases k <;> rfl

/-- The codes without a value are 0x0f and those above 0x3f (rule R100). -/
theorem decode_value_eq_none_iff (c : Nat) (n : Word) : Value.decode c n = none ↔ c = 0x0f ∨ 0x3f < c := by
  by_cases hc : c < 0x40
  · interval_cases c <;> simp [Value.decode]
  · have hnone : Value.decode c n = none := by
      unfold Value.decode
      iterate 18 rw [if_neg (by omega)]
      exact dif_neg hc
    exact iff_of_true hnone (.inr (by omega))

/-- The code of a value names it, when the word after it is its next word (rule R120). -/
theorem decode_value_code (v : Value) (n : Word) : Value.decode v.code.toNat (v.words.getD 0 n) = some v := by
  cases v with
  | reg r | ind r => cases r <;> rfl
  | idx r m =>
    have hcode : (Value.idx r m).code.toNat = 0x18 + r.number := by cases r <;> rfl
    rw [hcode, decode_value_idx (number_lt_eight r), ofNumber_number]
    rfl
  | dreg d => cases d <;> rfl
  | freg f => cases f <;> rfl
  | small k =>
    have hcode : (Value.small k).code.toNat = 0x26 + k.toNat := by
      simp only [Value.code, BitVec.toNat_ofNat]
      omega
    rw [hcode, decode_value_small k.isLt, BitVec.ofNat_toNat, BitVec.setWidth_eq]
  | power k =>
    have hcode : (Value.power k).code.toNat = 0x36 + k.val := by
      simp only [Value.code, BitVec.toNat_ofNat]
      omega
    rw [hcode, decode_value_power k.isLt]
  | _ => rfl

/-- A code that names a value is the value's code, and the word after it is its next word where it takes one. -/
theorem code_words_of_decode_value {c : Nat} {n : Word} {v : Value} (h : Value.decode c n = some v) :
    v.code.toNat = c ∧ v.words = [n].take v.nextWords := by
  have hc : c < 0x40 := by
    by_contra hge
    rw [(decode_value_eq_none_iff c n).mpr (.inr (by omega))] at h
    cases h
  interval_cases c <;> cases h <;> exact ⟨rfl, rfl⟩

/-! ### Operands -/

/-- The first word of a list in front of another. -/
theorem getD_zero_append (ws rest : List Word) : (ws ++ rest).getD 0 0 = ws.getD 0 (rest.getD 0 0) := by
  cases ws <;> rfl

/-- An operand is read back from its field and its words, whatever follows them (rules R98, R100). -/
theorem decode_operand_words (o : Operand) (rest : List Word) :
    Operand.decode o.field ((o.words ++ rest).getD 0 0) ((o.words ++ rest).getD 1 0) = .ok o := by
  obtain ⟨extended, v⟩ := o
  have hnext := decode_value_code v (rest.getD 0 0)
  cases extended with
  | false =>
    change Operand.decode v.code ((v.words ++ rest).getD 0 0) _ = _
    rw [getD_zero_append, Operand.decode, hnext]
  | true =>
    change Operand.decode 0x0f (v.code.setWidth 16) ((v.words ++ rest).getD 0 0) = _
    have hnone : Value.decode (0x0f : BitVec 6).toNat (v.code.setWidth 16) = none := rfl
    have hcode : (v.code.setWidth 16).toNat = v.code.toNat := BitVec.toNat_setWidth_of_le (by decide)
    rw [getD_zero_append, Operand.decode, hnone, hcode]
    simp only [hnext]

/-- The words that decode to an operand are its field and its words (rules R99, R100). -/
theorem field_words_of_decode_operand {f : BitVec 6} {w1 w2 : Word} {o : Operand}
    (h : Operand.decode f w1 w2 = .ok o) : o.field = f ∧ o.words = [w1, w2].take o.length := by
  unfold Operand.decode at h
  split at h
  case h_1 v hv =>
    cases h
    obtain ⟨hcode, hwords⟩ := code_words_of_decode_value hv
    refine ⟨BitVec.eq_of_toNat_eq hcode, ?_⟩
    change v.words = [w1, w2].take (0 + v.nextWords)
    rw [hwords, Nat.zero_add]
    cases v <;> rfl
  case h_2 hnone =>
    split at h
    case h_2 => cases h
    case h_1 v hv =>
      cases h
      obtain ⟨hcode, hwords⟩ := code_words_of_decode_value hv
      have hf : f = 0x0f := by
        rcases (decode_value_eq_none_iff _ _).mp hnone with h15 | h63
        · exact BitVec.eq_of_toNat_eq h15
        · exact absurd h63 (Nat.not_lt.mpr (Nat.le_of_lt_succ f.isLt))
      have hw : v.code.setWidth 16 = w1 := by
        apply BitVec.eq_of_toNat_eq
        rw [BitVec.toNat_setWidth_of_le (by decide), hcode]
      refine ⟨hf.symm, ?_⟩
      change v.code.setWidth 16 :: v.words = [w1, w2].take (1 + v.nextWords)
      rw [hw, hwords, Nat.add_comm]
      rfl

/-- Settles O5: the field is 0x0f, the one code of six bits without a value, and its extension word has none. -/
theorem extensionWordRange : Obligations.ExtensionWordRange := by
  intro field w1 w2
  have hfield : Value.decode field.toNat w1 = none ↔ field = 0x0f := by
    rw [decode_value_eq_none_iff]
    exact ⟨fun h => BitVec.eq_of_toNat_eq (h.resolve_right (Nat.not_lt.mpr (Nat.le_of_lt_succ field.isLt))),
      fun h => .inl (congrArg BitVec.toNat h)⟩
  have hword : Value.decode w1.toNat w2 = none ↔ 0x3f < w1.toNat ∨ w1 = 0x0f := by
    rw [decode_value_eq_none_iff, or_comm]
    exact or_congr_right ⟨fun h => BitVec.eq_of_toNat_eq h, fun h => congrArg BitVec.toNat h⟩
  rw [← hfield, ← hword, Operand.decode]
  cases Value.decode field.toNat w1 with
  | some v => simp
  | none => cases Value.decode w1.toNat w2 <;> simp

end Sys2Proof.Proofs

/-! The five formats of the first word (rules R91 to R96): a word as a number, its fields, and what the decoder makes of
each format. -/

namespace Sys2Proof.Proofs

open Sys2Proof.Machine

/-- Bits side by side, as a number. -/
theorem toNat_append_eq_add {m n : Nat} (x : BitVec m) (y : BitVec n) :
    (x ++ y).toNat = x.toNat * 2 ^ n + y.toNat := by
  rw [BitVec.toNat_append, ← Nat.shiftLeft_add_eq_or_of_lt y.isLt, Nat.shiftLeft_eq]

/-- A bit of a word, from its number. -/
theorem getLsbD_iff (w : Word) (k : Nat) : w.getLsbD k = true ↔ w.toNat / 2 ^ k % 2 = 1 := by
  rw [← BitVec.testBit_toNat, Nat.testBit_eq_decide_div_mod_eq, decide_eq_true_iff]

/-- A field of a word, as a number. -/
theorem toNat_field (w : Word) (start len : Nat) : (w.extractLsb' start len).toNat = w.toNat / 2 ^ start % 2 ^ len := by
  rw [BitVec.extractLsb'_toNat, Nat.shiftRight_eq_div_pow]

theorem toNat_basic_word (o : BitVec 5) (f : BitVec 4) (g : BitVec 6) :
    (1#1 ++ o ++ f ++ g : Word).toNat = 0x8000 + o.toNat * 0x400 + f.toNat * 0x40 + g.toNat := by
  simp only [toNat_append_eq_add, BitVec.toNat_ofNat]
  omega

theorem toNat_float_word (o : BitVec 4) (f : BitVec 4) (g : BitVec 6) :
    (1#2 ++ o ++ f ++ g : Word).toNat = 0x4000 + o.toNat * 0x400 + f.toNat * 0x40 + g.toNat := by
  simp only [toNat_append_eq_add, BitVec.toNat_ofNat]
  omega

theorem toNat_load_word (o : BitVec 1) (f g : BitVec 6) :
    (1#3 ++ o ++ f ++ g : Word).toNat = 0x2000 + o.toNat * 0x1000 + f.toNat * 0x40 + g.toNat := by
  simp only [toNat_append_eq_add, BitVec.toNat_ofNat]
  omega

theorem toNat_special_word (o c : BitVec 6) :
    (1#4 ++ o ++ c : Word).toNat = 0x1000 + o.toNat * 0x40 + c.toNat := by
  simp only [toNat_append_eq_add, BitVec.toNat_ofNat]
  omega

theorem toNat_binary_word (o : BitVec 11) : (1#5 ++ o : Word).toNat = 0x0800 + o.toNat := by
  simp only [toNat_append_eq_add, BitVec.toNat_ofNat]
  omega

/-- Every word has one of the five formats, or none and is below 0x0800 (rules R91 to R97). -/
theorem word_format (w : Word) :
    (∃ (o : BitVec 5) (f : BitVec 4) (g : BitVec 6), w = 1#1 ++ o ++ f ++ g) ∨
      (∃ (o : BitVec 4) (f : BitVec 4) (g : BitVec 6), w = 1#2 ++ o ++ f ++ g) ∨
      (∃ (o : BitVec 1) (f g : BitVec 6), w = 1#3 ++ o ++ f ++ g) ∨
      (∃ o c : BitVec 6, w = 1#4 ++ o ++ c) ∨ (∃ o : BitVec 11, w = 1#5 ++ o) ∨ w.toNat < 0x0800 := by
  have hw := w.isLt
  by_cases h15 : 0x8000 ≤ w.toNat
  · refine .inl ⟨w.extractLsb' 10 5, w.extractLsb' 6 4, w.extractLsb' 0 6, BitVec.eq_of_toNat_eq ?_⟩
    rw [toNat_basic_word]
    simp only [toNat_field]
    omega
  by_cases h14 : 0x4000 ≤ w.toNat
  · refine .inr (.inl ⟨w.extractLsb' 10 4, w.extractLsb' 6 4, w.extractLsb' 0 6, BitVec.eq_of_toNat_eq ?_⟩)
    rw [toNat_float_word]
    simp only [toNat_field]
    omega
  by_cases h13 : 0x2000 ≤ w.toNat
  · refine .inr (.inr (.inl ⟨w.extractLsb' 12 1, w.extractLsb' 6 6, w.extractLsb' 0 6, BitVec.eq_of_toNat_eq ?_⟩))
    rw [toNat_load_word]
    simp only [toNat_field]
    omega
  by_cases h12 : 0x1000 ≤ w.toNat
  · refine .inr (.inr (.inr (.inl ⟨w.extractLsb' 6 6, w.extractLsb' 0 6, BitVec.eq_of_toNat_eq ?_⟩)))
    rw [toNat_special_word]
    simp only [toNat_field]
    omega
  by_cases h11 : 0x0800 ≤ w.toNat
  · refine .inr (.inr (.inr (.inr (.inl ⟨w.extractLsb' 0 11, BitVec.eq_of_toNat_eq ?_⟩))))
    rw [toNat_binary_word]
    simp only [toNat_field]
    omega
  · exact .inr (.inr (.inr (.inr (.inr (by omega)))))

theorem decode_basic_word (o : BitVec 5) (f : BitVec 4) (g : BitVec 6) (w1 w2 w3 w4 : Word) :
    decode (1#1 ++ o ++ f ++ g) w1 w2 w3 w4 =
      (basicOpcode o.toNat).elim (.error .illegalInstruction)
        (fun build => decodeTwo build (f.setWidth 6) g w1 w2 w3 w4) := by
  have hn := toNat_basic_word o f g
  have ho : (1#1 ++ o ++ f ++ g : Word).extractLsb' 10 5 = o := BitVec.eq_of_toNat_eq (by rw [toNat_field, hn]; omega)
  have hf : (1#1 ++ o ++ f ++ g : Word).extractLsb' 6 4 = f := BitVec.eq_of_toNat_eq (by rw [toNat_field, hn]; omega)
  have hg : (1#1 ++ o ++ f ++ g : Word).extractLsb' 0 6 = g := BitVec.eq_of_toNat_eq (by rw [toNat_field, hn]; omega)
  have h15 : (1#1 ++ o ++ f ++ g : Word).getLsbD 15 = true := by rw [getLsbD_iff, hn]; omega
  rw [decode, if_pos h15, ho, hf, hg]
  cases basicOpcode o.toNat <;> rfl

theorem decode_float_word (o : BitVec 4) (f : BitVec 4) (g : BitVec 6) (w1 w2 w3 w4 : Word) :
    decode (1#2 ++ o ++ f ++ g) w1 w2 w3 w4 =
      (floatOpcode o.toNat).elim (.error .illegalInstruction)
        (fun build => decodeTwo build (f.setWidth 6) g w1 w2 w3 w4) := by
  have hn := toNat_float_word o f g
  have ho : (1#2 ++ o ++ f ++ g : Word).extractLsb' 10 4 = o := BitVec.eq_of_toNat_eq (by rw [toNat_field, hn]; omega)
  have hf : (1#2 ++ o ++ f ++ g : Word).extractLsb' 6 4 = f := BitVec.eq_of_toNat_eq (by rw [toNat_field, hn]; omega)
  have hg : (1#2 ++ o ++ f ++ g : Word).extractLsb' 0 6 = g := BitVec.eq_of_toNat_eq (by rw [toNat_field, hn]; omega)
  have h15 : ¬ (1#2 ++ o ++ f ++ g : Word).getLsbD 15 = true := by rw [getLsbD_iff, hn]; omega
  have h14 : (1#2 ++ o ++ f ++ g : Word).getLsbD 14 = true := by rw [getLsbD_iff, hn]; omega
  rw [decode, if_neg h15, if_pos h14, ho, hf, hg]
  cases floatOpcode o.toNat <;> rfl

theorem decode_load_word (o : BitVec 1) (f g : BitVec 6) (w1 w2 w3 w4 : Word) :
    decode (1#3 ++ o ++ f ++ g) w1 w2 w3 w4 = decodeTwo (loadOpcode o) f g w1 w2 w3 w4 := by
  have hn := toNat_load_word o f g
  have ho : (1#3 ++ o ++ f ++ g : Word).extractLsb' 12 1 = o := BitVec.eq_of_toNat_eq (by rw [toNat_field, hn]; omega)
  have hf : (1#3 ++ o ++ f ++ g : Word).extractLsb' 6 6 = f := BitVec.eq_of_toNat_eq (by rw [toNat_field, hn]; omega)
  have hg : (1#3 ++ o ++ f ++ g : Word).extractLsb' 0 6 = g := BitVec.eq_of_toNat_eq (by rw [toNat_field, hn]; omega)
  have h15 : ¬ (1#3 ++ o ++ f ++ g : Word).getLsbD 15 = true := by rw [getLsbD_iff, hn]; omega
  have h14 : ¬ (1#3 ++ o ++ f ++ g : Word).getLsbD 14 = true := by rw [getLsbD_iff, hn]; omega
  have h13 : (1#3 ++ o ++ f ++ g : Word).getLsbD 13 = true := by rw [getLsbD_iff, hn]; omega
  rw [decode, if_neg h15, if_neg h14, if_pos h13, ho, hf, hg]

theorem decode_special_word (o c : BitVec 6) (w1 w2 w3 w4 : Word) :
    decode (1#4 ++ o ++ c) w1 w2 w3 w4 =
      (specialOpcode o.toNat).elim (.error .illegalInstruction) (fun build => decodeOne build c w1 w2) := by
  have hn := toNat_special_word o c
  have ho : (1#4 ++ o ++ c : Word).extractLsb' 6 6 = o := BitVec.eq_of_toNat_eq (by rw [toNat_field, hn]; omega)
  have hc : (1#4 ++ o ++ c : Word).extractLsb' 0 6 = c := BitVec.eq_of_toNat_eq (by rw [toNat_field, hn]; omega)
  have h15 : ¬ (1#4 ++ o ++ c : Word).getLsbD 15 = true := by rw [getLsbD_iff, hn]; omega
  have h14 : ¬ (1#4 ++ o ++ c : Word).getLsbD 14 = true := by rw [getLsbD_iff, hn]; omega
  have h13 : ¬ (1#4 ++ o ++ c : Word).getLsbD 13 = true := by rw [getLsbD_iff, hn]; omega
  have h12 : (1#4 ++ o ++ c : Word).getLsbD 12 = true := by rw [getLsbD_iff, hn]; omega
  rw [decode, if_neg h15, if_neg h14, if_neg h13, if_pos h12, ho, hc]
  cases specialOpcode o.toNat <;> rfl

theorem decode_binary_word (o : BitVec 11) (w1 w2 w3 w4 : Word) :
    decode (1#5 ++ o) w1 w2 w3 w4 = (binaryOpcode o.toNat).elim (.error .illegalInstruction) .ok := by
  have hn := toNat_binary_word o
  have ho : (1#5 ++ o : Word).extractLsb' 0 11 = o := BitVec.eq_of_toNat_eq (by rw [toNat_field, hn]; omega)
  have h15 : ¬ (1#5 ++ o : Word).getLsbD 15 = true := by rw [getLsbD_iff, hn]; omega
  have h14 : ¬ (1#5 ++ o : Word).getLsbD 14 = true := by rw [getLsbD_iff, hn]; omega
  have h13 : ¬ (1#5 ++ o : Word).getLsbD 13 = true := by rw [getLsbD_iff, hn]; omega
  have h12 : ¬ (1#5 ++ o : Word).getLsbD 12 = true := by rw [getLsbD_iff, hn]; omega
  have h11 : (1#5 ++ o : Word).getLsbD 11 = true := by rw [getLsbD_iff, hn]; omega
  rw [decode, if_neg h15, if_neg h14, if_neg h13, if_neg h12, if_pos h11, ho]
  cases binaryOpcode o.toNat <;> rfl

theorem decode_no_format {w : Word} (h : w.toNat < 0x0800) (w1 w2 w3 w4 : Word) :
    decode w w1 w2 w3 w4 = .error .illegalInstruction := by
  have h15 : ¬ w.getLsbD 15 = true := by rw [getLsbD_iff]; omega
  have h14 : ¬ w.getLsbD 14 = true := by rw [getLsbD_iff]; omega
  have h13 : ¬ w.getLsbD 13 = true := by rw [getLsbD_iff]; omega
  have h12 : ¬ w.getLsbD 12 = true := by rw [getLsbD_iff]; omega
  have h11 : ¬ w.getLsbD 11 = true := by rw [getLsbD_iff]; omega
  rw [decode, if_neg h15, if_neg h14, if_neg h13, if_neg h12, if_neg h11]

end Sys2Proof.Proofs

/-! The decoder and the encoder undo each other (rules R90 to R112), and the first words without a meaning
(rule R97). -/

namespace Sys2Proof.Proofs

open Sys2Proof.Machine

/-! ### Decoding what was encoded -/

/-- Two parameters are read back from their fields and their words, the first one's before the second's (rule R98). -/
theorem decodeTwo_words (build : Operand → Operand → Instr) (a b : Operand) (after : List Word) :
    let ws := a.words ++ (b.words ++ after)
    decodeTwo build a.field b.field (ws.getD 0 0) (ws.getD 1 0) (ws.getD 2 0) (ws.getD 3 0) = .ok (build a b) := by
  intro ws
  have hfirst : Operand.decode a.field (ws.getD 0 0) (ws.getD 1 0) = .ok a := decode_operand_words a _
  have hsecond := decode_operand_words b after
  have hlen := Laws.operand_words_length a
  have hle := Laws.operand_length_le a
  rw [decodeTwo, hfirst]
  dsimp only
  rcases hw : a.words with _ | ⟨x, _ | ⟨y, _ | ⟨z, rest⟩⟩⟩ <;> rw [hw] at hlen
  · rw [← hlen]
    simp only [ws, hw, List.length_nil, List.nil_append, hsecond]
  · rw [← hlen]
    simp only [ws, hw, List.length_cons, List.length_nil, List.cons_append, List.nil_append, List.getD_cons_succ,
      hsecond]
  · rw [← hlen]
    simp only [ws, hw, List.length_cons, List.length_nil, List.cons_append, List.nil_append, List.getD_cons_succ,
      hsecond]
  · simp only [List.length_cons] at hlen
    omega

/-- A field below 16 comes through the four bits of the format. -/
theorem setWidth_four_six {f : BitVec 6} (h : f.toNat < 16) : (f.setWidth 4).setWidth 6 = f := by
  apply BitVec.eq_of_toNat_eq
  simp only [BitVec.toNat_setWidth]
  omega

theorem decodeWords_cons (w : Word) (ws : List Word) :
    decodeWords (w :: ws) = decode w (ws.getD 0 0) (ws.getD 1 0) (ws.getD 2 0) (ws.getD 3 0) := rfl

theorem decodeWords_encodeBasic {o : BitVec 5} {build : Operand → Operand → Instr} {a b : Operand}
    (ho : basicOpcode o.toNat = some build) (ha : a.fitsFourBits = true) (after : List Word) :
    decodeWords (encodeBasic o a b ++ after) = .ok (build a b) := by
  rw [encodeBasic, List.cons_append, decodeWords_cons, decode_basic_word, ho,
    setWidth_four_six (field_toNat_lt_of_fitsFourBits ha), List.append_assoc]
  exact decodeTwo_words build a b after

theorem decodeWords_encodeFloat {o : BitVec 4} {build : Operand → Operand → Instr} {a b : Operand}
    (ho : floatOpcode o.toNat = some build) (ha : a.fitsFourBits = true) (after : List Word) :
    decodeWords (encodeFloat o a b ++ after) = .ok (build a b) := by
  rw [encodeFloat, List.cons_append, decodeWords_cons, decode_float_word, ho,
    setWidth_four_six (field_toNat_lt_of_fitsFourBits ha), List.append_assoc]
  exact decodeTwo_words build a b after

theorem decodeWords_encodeLoad (o : BitVec 1) (b c : Operand) (after : List Word) :
    decodeWords (encodeLoad o b c ++ after) = .ok (loadOpcode o b c) := by
  rw [encodeLoad, List.cons_append, decodeWords_cons, decode_load_word, List.append_assoc]
  exact decodeTwo_words (loadOpcode o) b c after

theorem decodeWords_encodeSpecial {o : BitVec 6} {build : Operand → Instr} (ho : specialOpcode o.toNat = some build)
    (c : Operand) (after : List Word) : decodeWords (encodeSpecial o c ++ after) = .ok (build c) := by
  rw [encodeSpecial, List.cons_append, decodeWords_cons, decode_special_word, ho]
  change decodeOne build c.field _ _ = _
  rw [decodeOne, decode_operand_words c after]

theorem decodeWords_encodeBinary {o : BitVec 11} {i : Instr} (ho : binaryOpcode o.toNat = some i)
    (after : List Word) : decodeWords (encodeBinary o ++ after) = .ok i := by
  rw [encodeBinary, List.cons_append, decodeWords_cons, decode_binary_word, ho]
  rfl

/-- Every well-formed instruction is decoded from its words (rules R90 to R96, R112). -/
theorem decodeWords_encode {i : Instr} (h : i.wellFormed = true) (after : List Word) :
    decodeWords (encode i ++ after) = .ok i.canonical := by
  cases i with
  | ifb | ifc | ife | ifn | ifg | ifa | ifl | ifu | sti | std | add | sub | mul | mli | div | dvi | mod | mdi | and
  | bor | xor | shr | asr | shl | adx | sbx => exact decodeWords_encodeBasic rfl h after
  | fadd | fsub | fmul | fdiv | fmod | fife | fifn | fifg | fifl | fset => exact decodeWords_encodeFloat rfl h after
  | set b c => exact decodeWords_encodeLoad 0 b c after
  | dset b c => exact decodeWords_encodeLoad 1 b c after
  | jsr c | call c | movh c | movl c | movt c | pcs c | mov c | sps c | ias c | iag c | int c | rfi c | iaq c | hwn c
  | hwq c | hwi c => exact decodeWords_encodeSpecial rfl c after
  | ifex | popsg | hsg | lsg | hng | pusha | popa => exact decodeWords_encodeBinary rfl after

/-- Settles O1: by format, each first word is taken apart into its fields and each operand read back from its own
words. -/
theorem decodeOfEncode : Obligations.DecodeOfEncode := by
  intro i after h
  refine ⟨decodeWords_encode h after, fun hmov => ?_⟩
  cases i with
  | mov c => exact absurd rfl (hmov c)
  | _ => rfl

/-! ### Encoding what was decoded -/

/-- An operand whose field is below 16 stands in the 4-bit field (rule R121). -/
theorem fitsFourBits_of_field_toNat_lt {a : Operand} (h : a.field.toNat < 16) : a.fitsFourBits = true := by
  obtain ⟨extended, v⟩ := a
  cases extended with
  | true => rfl
  | false =>
    change v.code.toNat < 16 at h
    change v.fitsFourBits = true
    cases v with
    | ind r | idx r n => cases r <;> simp [Value.code, Reg.number] at h
    | small k | power k =>
      simp only [Value.code, BitVec.toNat_ofNat] at h
      omega
    | next | ex | pc | sp | mem | minusOne => simp [Value.code] at h
    | _ => rfl

theorem take_of_le_two {n : Nat} (h : n ≤ 2) (x y : Word) (rest : List Word) :
    [x, y].take n = (x :: y :: rest).take n := by
  interval_cases n <;> rfl

/-- Of at most four words, those of two operands in a row. -/
theorem take_append_take {m : Nat} (hm : m ≤ 2) (n : Nat) (w1 w2 w3 w4 : Word) :
    [w1, w2].take m ++ ([w1, w2, w3, w4].drop m).take n = [w1, w2, w3, w4].take (m + n) := by
  rw [List.take_add]
  interval_cases m <;> rfl

/-- Two parameters that were decoded own the words they were decoded from. -/
theorem words_of_decodeTwo {build : Operand → Operand → Instr} {f g : BitVec 6} {w1 w2 w3 w4 : Word} {i : Instr}
    (h : decodeTwo build f g w1 w2 w3 w4 = .ok i) :
    ∃ a b, i = build a b ∧ a.field = f ∧ b.field = g ∧
      a.words ++ b.words = [w1, w2, w3, w4].take (a.length + b.length) := by
  unfold decodeTwo at h
  cases ha : Operand.decode f w1 w2 with
  | error e =>
    rw [ha] at h
    cases h
  | ok a =>
    obtain ⟨hfield, hwords⟩ := field_words_of_decode_operand ha
    have hle := Laws.operand_length_le a
    rw [ha] at h
    dsimp only at h
    split at h
    case h_1 e _ => cases h
    case h_2 b hb =>
      cases h
      have hle' := Laws.operand_length_le b
      have hsecond : b.field = g ∧ b.words = ([w1, w2, w3, w4].drop a.length).take b.length := by
        generalize a.length = m at hb hle
        interval_cases m <;> exact (field_words_of_decode_operand hb).imp_right (·.trans (take_of_le_two hle' _ _ _))
      obtain ⟨hfield', hwords'⟩ := hsecond
      exact ⟨a, b, rfl, hfield, hfield', by rw [hwords, hwords', take_append_take hle]⟩

/-- One parameter that was decoded owns the words it was decoded from. -/
theorem words_of_decodeOne {build : Operand → Instr} {f : BitVec 6} {w1 w2 : Word} {i : Instr}
    (h : decodeOne build f w1 w2 = .ok i) (rest : List Word) :
    ∃ c, i = build c ∧ c.field = f ∧ c.words = (w1 :: w2 :: rest).take c.length := by
  unfold decodeOne at h
  cases hc : Operand.decode f w1 w2 with
  | error e =>
    rw [hc] at h
    cases h
  | ok c =>
    rw [hc] at h
    cases h
    obtain ⟨hfield, hwords⟩ := field_words_of_decode_operand hc
    exact ⟨c, rfl, hfield, hwords.trans (take_of_le_two (Laws.operand_length_le c) w1 w2 rest)⟩

/-- A Basic opcode builds an instruction of its format (rules R92, R101). -/
theorem encode_of_basicOpcode {o : BitVec 5} {build : Operand → Operand → Instr} (h : basicOpcode o.toNat = some build)
    (a b : Operand) :
    encode (build a b) = encodeBasic o a b ∧ (build a b).operands = [a, b] ∧
      (build a b).wellFormed = a.fitsFourBits := by
  have ho : o = BitVec.ofNat 5 o.toNat := by simp
  generalize o.toNat = n at h ho
  subst ho
  unfold basicOpcode at h
  split at h <;> cases h <;> exact ⟨rfl, rfl, rfl⟩

/-- A Float opcode builds an instruction of its format (rules R93, R102). -/
theorem encode_of_floatOpcode {o : BitVec 4} {build : Operand → Operand → Instr} (h : floatOpcode o.toNat = some build)
    (a b : Operand) :
    encode (build a b) = encodeFloat o a b ∧ (build a b).operands = [a, b] ∧
      (build a b).wellFormed = a.fitsFourBits := by
  have ho : o = BitVec.ofNat 4 o.toNat := by simp
  generalize o.toNat = n at h ho
  subst ho
  unfold floatOpcode at h
  split at h <;> cases h <;> exact ⟨rfl, rfl, rfl⟩

/-- Both Load opcodes build an instruction of their format (rules R94, R103). -/
theorem encode_loadOpcode (o : BitVec 1) (b c : Operand) :
    encode (loadOpcode o b c) = encodeLoad o b c ∧ (loadOpcode o b c).operands = [b, c] ∧
      (loadOpcode o b c).wellFormed = true := by
  have ho : o = 0 ∨ o = 1 := by revert o; decide
  rcases ho with rfl | rfl <;> exact ⟨rfl, rfl, rfl⟩

/-- A Special opcode builds an instruction of its format (rules R95, R104). -/
theorem encode_of_specialOpcode {o : BitVec 6} {build : Operand → Instr} (h : specialOpcode o.toNat = some build)
    (c : Operand) :
    encode (build c) = encodeSpecial o c ∧ (build c).operands = [c] ∧ (build c).wellFormed = true := by
  have ho : o = BitVec.ofNat 6 o.toNat := by simp
  generalize o.toNat = n at h ho
  subst ho
  unfold specialOpcode at h
  split at h <;> cases h <;> exact ⟨rfl, rfl, rfl⟩

/-- A Binary opcode is an instruction of its format (rules R96, R105). -/
theorem encode_of_binaryOpcode {o : BitVec 11} {i : Instr} (h : binaryOpcode o.toNat = some i) :
    encode i = encodeBinary o ∧ i.operands = [] ∧ i.wellFormed = true := by
  have ho : o = BitVec.ofNat 11 o.toNat := by simp
  generalize o.toNat = n at h ho
  subst ho
  unfold binaryOpcode at h
  split at h <;> cases h <;> exact ⟨rfl, rfl, rfl⟩

/-- The length of an instruction of two parameters. -/
theorem length_of_operands_pair {i : Instr} {a b : Operand} (h : i.operands = [a, b]) :
    i.length = a.length + b.length + 1 := by
  simp [Instr.length, h, Nat.add_comm]

/-- The length of an instruction of one parameter. -/
theorem length_of_operands_singleton {i : Instr} {c : Operand} (h : i.operands = [c]) : i.length = c.length + 1 := by
  simp [Instr.length, h, Nat.add_comm]

/-- A field of four bits that was read into six is below 16, and four bits of it are the field. -/
theorem setWidth_six_four (f : BitVec 4) : (f.setWidth 6).toNat < 16 ∧ (f.setWidth 6).setWidth 4 = f := by
  revert f
  decide

/-- Settles O2: by format, the opcode and the fields are those of the first word, and each operand owns the words it was
read from. -/
theorem encodeOfDecode : Obligations.EncodeOfDecode := by
  intro w w1 w2 w3 w4 i h
  rcases word_format w with ⟨o, f, g, rfl⟩ | ⟨o, f, g, rfl⟩ | ⟨o, f, g, rfl⟩ | ⟨o, c, rfl⟩ | ⟨o, rfl⟩ | hlow
  · rw [decode_basic_word] at h
    cases hop : basicOpcode o.toNat with
    | none => rw [hop] at h; cases h
    | some build =>
      rw [hop] at h
      obtain ⟨a, b, rfl, hf, rfl, hwords⟩ := words_of_decodeTwo h
      obtain ⟨henc, hops, hwf⟩ := encode_of_basicOpcode hop a b
      obtain ⟨hlt, hfour⟩ := setWidth_six_four f
      rw [hwf, henc, encodeBasic, length_of_operands_pair hops, hwords, hf, hfour]
      exact ⟨fitsFourBits_of_field_toNat_lt (hf ▸ hlt), rfl⟩
  · rw [decode_float_word] at h
    cases hop : floatOpcode o.toNat with
    | none => rw [hop] at h; cases h
    | some build =>
      rw [hop] at h
      obtain ⟨a, b, rfl, hf, rfl, hwords⟩ := words_of_decodeTwo h
      obtain ⟨henc, hops, hwf⟩ := encode_of_floatOpcode hop a b
      obtain ⟨hlt, hfour⟩ := setWidth_six_four f
      rw [hwf, henc, encodeFloat, length_of_operands_pair hops, hwords, hf, hfour]
      exact ⟨fitsFourBits_of_field_toNat_lt (hf ▸ hlt), rfl⟩
  · rw [decode_load_word] at h
    obtain ⟨b, c, rfl, rfl, rfl, hwords⟩ := words_of_decodeTwo h
    obtain ⟨henc, hops, hwf⟩ := encode_loadOpcode o b c
    rw [henc, encodeLoad, length_of_operands_pair hops, hwords]
    exact ⟨hwf, rfl⟩
  · rw [decode_special_word] at h
    cases hop : specialOpcode o.toNat with
    | none => rw [hop] at h; cases h
    | some build =>
      rw [hop] at h
      obtain ⟨a, rfl, rfl, hwords⟩ := words_of_decodeOne h [w3, w4]
      obtain ⟨henc, hops, hwf⟩ := encode_of_specialOpcode hop a
      rw [henc, encodeSpecial, length_of_operands_singleton hops, hwords]
      exact ⟨hwf, rfl⟩
  · rw [decode_binary_word] at h
    cases hop : binaryOpcode o.toNat with
    | none => rw [hop] at h; cases h
    | some j =>
      rw [hop] at h
      cases h
      obtain ⟨henc, hops, hwf⟩ := encode_of_binaryOpcode hop
      rw [henc, Instr.length, hops]
      exact ⟨hwf, rfl⟩
  · rw [decode_no_format hlow] at h
    cases h

/-- Settles O3: the decoder is run on the words. -/
theorem sampleWordsDecode : Obligations.SampleWordsDecode := by
  refine ⟨?basic, ?extended, ?float, ?set, ?dset, ?special, ?binary⟩ <;> rfl

/-! ### Words without a meaning -/

theorem basicOpcode_eq_none_iff {n : Nat} (h : n < 32) :
    basicOpcode n = none ↔ n = 0x08 ∨ n = 0x19 ∨ 0x1c ≤ n := by
  interval_cases n <;> simp [basicOpcode]

theorem floatOpcode_eq_none_iff {n : Nat} (h : n < 16) :
    floatOpcode n = none ↔ n = 0x05 ∨ n = 0x0a ∨ 0x0c ≤ n := by
  interval_cases n <;> simp [floatOpcode]

theorem specialOpcode_eq_none_iff {n : Nat} (h : n < 64) :
    specialOpcode n = none ↔
      n = 0x02 ∨ n = 0x03 ∨ (0x07 ≤ n ∧ n ≤ 0x0a) ∨ n = 0x0d ∨ n = 0x0e ∨ n = 0x11 ∨ n = 0x15 ∨ 0x19 ≤ n := by
  interval_cases n <;> simp [specialOpcode]

theorem binaryOpcode_eq_none_iff (n : Nat) :
    binaryOpcode n = none ↔ n = 0 ∨ n = 2 ∨ n = 3 ∨ n = 7 ∨ n = 9 ∨ n = 0x0a ∨ 0x0d ≤ n := by
  by_cases h : n < 0x0d
  · interval_cases n <;> simp [binaryOpcode]
  · have hnone : binaryOpcode n = none := by
      unfold binaryOpcode
      split
      case h_8 => rfl
      all_goals omega
    exact iff_of_true hnone (by omega)

/-- An operand without a meaning is no unused opcode (rules R100, R108). -/
theorem decode_operand_ne_illegal (f : BitVec 6) (w1 w2 : Word) :
    Operand.decode f w1 w2 ≠ .error .illegalInstruction := (extensionWordRange f w1 w2).2

theorem decodeOne_ne_illegal (build : Operand → Instr) (f : BitVec 6) (w1 w2 : Word) :
    decodeOne build f w1 w2 ≠ .error .illegalInstruction := by
  have h := decode_operand_ne_illegal f w1 w2
  unfold decodeOne
  cases hd : Operand.decode f w1 w2 <;> simp_all

theorem decodeTwo_ne_illegal (build : Operand → Operand → Instr) (f g : BitVec 6) (w1 w2 w3 w4 : Word) :
    decodeTwo build f g w1 w2 w3 w4 ≠ .error .illegalInstruction := by
  have h := decode_operand_ne_illegal f w1 w2
  intro h'
  unfold decodeTwo at h'
  split at h'
  case h_1 hd => cases h'; exact h hd
  case h_2 =>
    dsimp only at h'
    split at h'
    case h_2 => cases h'
    case h_1 hd =>
      cases h'
      split at hd <;> exact decode_operand_ne_illegal _ _ _ hd

/-- A first word of a format with an opcode map is without a meaning exactly where the map is. -/
theorem elim_eq_illegal_iff {α : Type} {o : Option α} {f : α → Except DecodeError Instr}
    (h : ∀ x, f x ≠ .error .illegalInstruction) :
    o.elim (.error .illegalInstruction) f = .error .illegalInstruction ↔ o = none := by
  cases o with
  | none => exact iff_of_true rfl rfl
  | some x => exact iff_of_false (h x) (by simp)

/-- Settles O4: by format, the unused numbers of each opcode map, placed in the word. -/
theorem undefinedFirstWords : Obligations.UndefinedFirstWords := by
  intro w w1 w2 w3 w4
  rcases word_format w with ⟨o, f, g, rfl⟩ | ⟨o, f, g, rfl⟩ | ⟨o, f, g, rfl⟩ | ⟨o, c, rfl⟩ | ⟨o, rfl⟩ | hlow
  · rw [decode_basic_word, elim_eq_illegal_iff (fun _ => decodeTwo_ne_illegal _ _ _ _ _ _ _),
      basicOpcode_eq_none_iff o.isLt, toNat_basic_word]
    dsimp only
    omega
  · rw [decode_float_word, elim_eq_illegal_iff (fun _ => decodeTwo_ne_illegal _ _ _ _ _ _ _),
      floatOpcode_eq_none_iff o.isLt, toNat_float_word]
    dsimp only
    omega
  · have hne := decodeTwo_ne_illegal (loadOpcode o) f g w1 w2 w3 w4
    rw [decode_load_word, toNat_load_word]
    dsimp only
    refine iff_of_false hne ?_
    omega
  · rw [decode_special_word, elim_eq_illegal_iff (fun _ => decodeOne_ne_illegal _ _ _ _),
      specialOpcode_eq_none_iff o.isLt, toNat_special_word]
    dsimp only
    omega
  · rw [decode_binary_word, elim_eq_illegal_iff (fun _ => by simp), binaryOpcode_eq_none_iff, toNat_binary_word]
    dsimp only
    omega
  · refine iff_of_true (decode_no_format hlow w1 w2 w3 w4) ?_
    dsimp only
    omega

end Sys2Proof.Proofs

/-! Frames of the shared shapes: what a writer of a parameter and a conditional leave as it was (rules R170 to R172,
R220). -/

namespace Sys2Proof.Proofs

open Sys2Proof.Machine

/-! ### Resolution -/

/-- Both resolutions change SP alone, and without a stack code nothing (rules R123, R125). -/
theorem resolve2_state (a b : Operand) (s : State) :
    (resolve2 a b s).state = { s with sp := (resolve2 a b s).state.sp } := by
  simp only [resolve2, resolve_state]

theorem resolve2_state_of_ne_stack {a b : Operand} (ha : a.value ≠ .stack) (hb : b.value ≠ .stack) (s : State) :
    (resolve2 a b s).state = s := by
  simp only [resolve2, resolve_state_of_ne_stack ha, resolve_state_of_ne_stack hb]

/-! ### The frame of a place, when EX or I is put back -/

theorem frame_with_ex {both two : Bool} {p : Place} {s t : State} (h : OnlyPlaceChanged both two p s t) :
    OnlyPlaceChanged both two p s { t with ex := s.ex } := by
  obtain ⟨hreg, hfreg, -, hpc, hsp, hcontrol, hram⟩ := h
  exact ⟨fun x hx => (by cases x <;> rfl : State.reg _ x = t.reg x).trans (hreg x hx),
    fun f hf => (by cases f <;> rfl : State.freg _ f = t.freg f).trans (hfreg f hf), fun _ => rfl, hpc, hsp, hcontrol,
    hram⟩

theorem frame_with_i {both two : Bool} {p : Place} {s t : State} (h : OnlyPlaceChanged both two p s t) :
    OnlyPlaceChanged both two p s { t with i := s.i } := by
  obtain ⟨hreg, hfreg, hex, hpc, hsp, hcontrol, hram⟩ := h
  refine ⟨fun x hx => ?_, fun f hf => (by cases f <;> rfl : State.freg _ f = t.freg f).trans (hfreg f hf),
    hex, hpc, hsp, hcontrol, hram⟩
  have hx' := hreg x hx
  cases x with
  | i => rfl
  | _ => exact hx'

/-! ### The writers -/

section
variable {a b : Operand} {s t : State}

theorem basicWrite_frame {f : Word → Word → Word} {sg : Signedness} (h : basicWrite f sg a b s = .next t) :
    OnlyPlaceChanged false false (resolve2 a b s).first (resolve2 a b s).state t := by
  cases h
  exact writeW_frame _ _ _ _

/-- A Basic opcode that sets EX changes its destination and EX (rules R25, R170). -/
theorem basicWriteEx_frame {f : Word → Word → Word → WithEx} {sg : Signedness} (h : basicWriteEx f sg a b s = .next t) :
    OnlyPlaceChanged false false (resolve2 a b s).first (resolve2 a b s).state
      { t with ex := (resolve2 a b s).state.ex } := by
  cases h
  exact frame_with_ex (t := writeW _ _ _ _) (writeW_frame _ _ _ _)

/-- STI and STD change their destination and I (rules R181, R182). -/
theorem storeAndStep_frame {step : Word → Word} (h : storeAndStep step a b s = .next t) :
    OnlyPlaceChanged false false (resolve2 a b s).first (resolve2 a b s).state
      { t with i := (resolve2 a b s).state.i } := by
  cases h
  exact frame_with_i (t := writeW _ _ _ _) (writeW_frame _ _ _ _)

/-- The counter of draws is no part of the frame of a place. -/
theorem frame_from_draws {both two : Bool} {p : Place} {n : Nat}
    (h : OnlyPlaceChanged both two p { s with draws := n } t) : OnlyPlaceChanged both two p s t := by
  obtain ⟨hreg, hfreg, hrest⟩ := h
  exact ⟨fun x hx => (hreg x hx).trans (by cases x <;> rfl), fun f hf => (hfreg f hf).trans (by cases f <;> rfl), hrest⟩

theorem floatWrite_frame {f : Dword → Dword → Dword → Dword} (h : floatWrite f a b s = .next t) :
    OnlyPlaceChanged true false (resolve2 a b s).first (resolve2 a b s).state t := by
  cases h
  exact frame_from_draws (writeF_frame _ _ _)

theorem exec_set (b c : Operand) (s : State) : exec (.set b c) s = basicWrite (fun _ y => y) .unsigned b c s := rfl

theorem execDset_frame (h : execDset a b s = .next t) :
    OnlyPlaceChanged true true (resolve2 a b s).first (resolve2 a b s).state t := by
  cases h
  exact writeD_frame _ _ _

theorem execFset_frame (h : execFset a b s = .next t) :
    OnlyPlaceChanged true true (resolve2 a b s).first (resolve2 a b s).state t := by
  cases h
  exact writeFS_frame _ _ _

end

/-- Settles O33: each opcode is one of three shapes, whose frame is that of the word written. -/
theorem wordWriterFrame : Obligations.WordWriterFrame := by
  intro a b i s t h r
  refine ⟨⟨resolve2_state a b s, fun ha hb => ?sp⟩, fun hi => ?write, fun hi => ?writeEx, fun hi => ?step⟩
  case sp => rw [show r.state = s from resolve2_state_of_ne_stack ha hb s]
  case write =>
    rcases hi with rfl | rfl | rfl | rfl | rfl | rfl
    exacts [basicWrite_frame (f := fun _ y => y) h, basicWrite_frame (f := (· &&& ·)) h,
      basicWrite_frame (f := (· ||| ·)) h, basicWrite_frame (f := (· ^^^ ·)) h, basicWrite_frame (f := modResult) h,
      basicWrite_frame (f := mdiResult) h]
  case writeEx =>
    rcases hi with rfl | rfl | rfl | rfl | rfl | rfl | rfl | rfl | rfl | rfl | rfl
    exacts [basicWriteEx_frame (f := fun x y _ => addEx x y) h, basicWriteEx_frame (f := fun x y _ => subEx x y) h,
      basicWriteEx_frame (f := fun x y _ => mulEx x y) h, basicWriteEx_frame (f := fun x y _ => mliEx x y) h,
      basicWriteEx_frame (f := fun x y _ => divEx x y) h, basicWriteEx_frame (f := fun x y _ => dviEx x y) h,
      basicWriteEx_frame (f := fun x y _ => shrEx x y) h, basicWriteEx_frame (f := fun x y _ => asrEx x y) h,
      basicWriteEx_frame (f := fun x y _ => shlEx x y) h, basicWriteEx_frame (f := adxEx) h,
      basicWriteEx_frame (f := sbxEx) h]
  case step =>
    rcases hi with rfl | rfl
    exacts [storeAndStep_frame (step := (· + 1)) h, storeAndStep_frame (step := (· - 1)) h]

/-- Settles O34: the float opcodes are one shape, and FSET and DSET write in their own domains. -/
theorem wideWriterFrame : Obligations.WideWriterFrame := by
  intro a b i s t h r
  refine ⟨fun hi => ?float, fun hi => ?wide⟩
  case float =>
    rcases hi with rfl | rfl | rfl | rfl | rfl
    exacts [floatWrite_frame (f := floatAdd) h, floatWrite_frame (f := floatSub) h, floatWrite_frame (f := floatMul) h,
      floatWrite_frame (f := floatDiv) h, floatWrite_frame (f := floatMod) h]
  case wide =>
    rcases hi with rfl | rfl
    · exact execFset_frame h
    · exact execDset_frame h

/-! ### The conditionals -/

/-- What "performs next only if" leaves of the machine: it is as resolved, but for the PC and the cycles of a skip. -/
theorem frame_of_performsNextOnlyIf {P : Prop} {r t : State} {result : Result} (hp : PerformsNextOnlyIf P r result)
    (h : result = .next t) : t = { r with pc := t.pc, cycles := t.cycles } := by
  by_cases hP : P
  · rw [hp.1 hP] at h
    cases h
    rfl
  · rw [hp.2 hP] at h
    exact skip_frame h

/-- A Float conditional whose test decides `P` performs the next instruction only if `P` (rule R172). -/
theorem floatTest_performsNextOnlyIf {test : Dword → Dword → Bool} {P : Prop} {a b : Operand} {s : State} :
    let r := resolve2 a b s
    (test (readF r.first r.state) (readF r.second r.state) = true ↔ P) →
      PerformsNextOnlyIf P r.state (floatTest test a b s) :=
  fun h => ⟨fun hp => if_pos (h.mpr hp), fun hp => if_neg (mt h.mp hp)⟩

theorem basicTest_frame {test : Word → Word → Bool} {a b : Operand} {s t : State} (h : basicTest test a b s = .next t) :
    t = { (resolve2 a b s).state with pc := t.pc, cycles := t.cycles } :=
  frame_of_performsNextOnlyIf (basicTest_performsNextOnlyIf Iff.rfl) h

theorem floatTest_frame {test : Dword → Dword → Bool} {a b : Operand} {s t : State}
    (h : floatTest test a b s = .next t) : t = { (resolve2 a b s).state with pc := t.pc, cycles := t.cycles } :=
  frame_of_performsNextOnlyIf (floatTest_performsNextOnlyIf Iff.rfl) h

/-- A conditional is a test of two words, a test of two floats, or IFEX (rules R170, R220, R311). -/
theorem conditional_cases {i : Instr} (hc : i.isConditional = true) :
    (∃ test a b, i.operands = [a, b] ∧ exec i = basicTest test a b) ∨
      (∃ test a b, i.operands = [a, b] ∧ exec i = floatTest test a b) ∨ i = .ifex := by
  cases i with
  | ifb a b => exact .inl ⟨fun x y => x &&& y != 0, a, b, rfl, rfl⟩
  | ifc a b => exact .inl ⟨fun x y => x &&& y == 0, a, b, rfl, rfl⟩
  | ife a b => exact .inl ⟨fun x y => x == y, a, b, rfl, rfl⟩
  | ifn a b => exact .inl ⟨fun x y => x != y, a, b, rfl, rfl⟩
  | ifg a b => exact .inl ⟨fun x y => decide (y.toNat < x.toNat), a, b, rfl, rfl⟩
  | ifa a b => exact .inl ⟨fun x y => decide (s16 y < s16 x), a, b, rfl, rfl⟩
  | ifl a b => exact .inl ⟨fun x y => decide (x.toNat < y.toNat), a, b, rfl, rfl⟩
  | ifu a b => exact .inl ⟨fun x y => decide (s16 x < s16 y), a, b, rfl, rfl⟩
  | fife a b => exact .inr (.inl ⟨floatEq, a, b, rfl, rfl⟩)
  | fifn a b => exact .inr (.inl ⟨fun x y => !floatEq x y, a, b, rfl, rfl⟩)
  | fifg a b => exact .inr (.inl ⟨fun x y => floatLt y x, a, b, rfl, rfl⟩)
  | fifl a b => exact .inr (.inl ⟨floatLt, a, b, rfl, rfl⟩)
  | ifex => exact .inr (.inr rfl)
  | _ => cases hc

/-- A conditional leaves all as the resolution of its parameters does, but for the PC and the cycles of a skip. -/
theorem conditional_frame {i : Instr} {s t : State} (hc : i.isConditional = true) (h : exec i s = .next t) :
    (∃ a b, i.operands = [a, b] ∧ t = { (resolve2 a b s).state with pc := t.pc, cycles := t.cycles }) ∨
      (i.operands = [] ∧ t = { s with pc := t.pc, cycles := t.cycles }) := by
  rcases conditional_cases hc with ⟨test, a, b, hops, he⟩ | ⟨test, a, b, hops, he⟩ | rfl
  · rw [he] at h
    exact .inl ⟨a, b, hops, basicTest_frame h⟩
  · rw [he] at h
    exact .inl ⟨a, b, hops, floatTest_frame h⟩
  · exact .inr ⟨rfl, frame_of_performsNextOnlyIf (execIfex_performsNextOnlyIf s) h⟩

/-- Settles O35: a conditional keeps all but PC and cycles of what its resolution leaves, and a resolution moves SP by
the stack codes alone. -/
theorem conditionalsChangeNothing : Obligations.ConditionalsChangeNothing := by
  intro i s t hc h
  rcases conditional_frame hc h with ⟨a, b, hops, hframe⟩ | ⟨hops, hframe⟩
  · have hsp : t.sp = (resolve2 a b s).state.sp := by rw [hframe]
    rw [hops]
    refine ⟨?_, fun a' b' hab => ?_, fun hnil => (nomatch hnil), fun hne => ?_⟩
    · rw [hsp]
      rw [resolve2_state] at hframe
      exact hframe
    · cases hab
      exact hsp
    · rw [hsp, resolve2_state_of_ne_stack (hne a (by simp)) (hne b (by simp))]
  · have hsp : t.sp = s.sp := by rw [hframe]
    rw [hops]
    exact ⟨by rw [hsp]; exact hframe, fun a b hab => (nomatch hab), fun _ => hsp, fun _ => hsp⟩

end Sys2Proof.Proofs

/-! What an instruction can do to the machine, said once for all of them, and the rules of the whole machine that
follow: who changes the segment, RAM, EX and the control state, and the invariant. -/

namespace Sys2Proof.Proofs

open Sys2Proof.Machine

/-! ### Ordinary changes -/

/-- The control state is left, RAM keeps its canonical form, and changes only in the current segment. -/
structure Ordinary (s t : State) : Prop where
  control : SameControl s t
  wf : s.mem.wf → t.mem.wf
  otherSegment : ∀ g x, g ≠ s.seg → t.readWord g x = s.readWord g x

theorem sameControl_seg {s t : State} (h : SameControl s t) : t.seg = s.seg := by
  obtain ⟨-, hseg, -⟩ := h
  exact hseg

theorem sameControl_trans {s t u : State} (h : SameControl s t) (h' : SameControl t u) : SameControl s u := by
  obtain ⟨hia, hseg, hiaq, hqueue, hstatus, harrivals⟩ := h
  obtain ⟨hia', hseg', hiaq', hqueue', hstatus', harrivals'⟩ := h'
  exact ⟨hia'.trans hia, hseg'.trans hseg, hiaq'.trans hiaq, hqueue'.trans hqueue, hstatus'.trans hstatus,
    harrivals'.trans harrivals⟩

theorem Ordinary.trans {s t u : State} (h : Ordinary s t) (h' : Ordinary t u) : Ordinary s u where
  control := sameControl_trans h.control h'.control
  wf hs := h'.wf (h.wf hs)
  otherSegment g x hg :=
    (h'.otherSegment g x (by rwa [sameControl_seg h.control])).trans (h.otherSegment g x hg)

/-- What leaves RAM and the control state is ordinary. -/
theorem ordinary_of_mem_eq {s t : State} (hc : SameControl s t) (hm : t.mem = s.mem) : Ordinary s t where
  control := hc
  wf hs := by rwa [hm]
  otherSegment g x _ := readWord_congr hm g x

theorem resolve_ordinary (first : Bool) (o : Operand) (s : State) : Ordinary s (resolve first o s).state :=
  ordinary_of_mem_eq ⟨by simp, by simp, by simp, by simp, by simp, by simp⟩ (by simp)

theorem resolve2_ordinary (a b : Operand) (s : State) : Ordinary s (resolve2 a b s).state :=
  ordinary_of_mem_eq ⟨by simp, by simp, by simp, by simp, by simp, by simp⟩ (by simp)

/-- A write to a place is ordinary where a place in RAM is in the current segment (rule R62). -/
theorem ordinary_of_frame {both two : Bool} {p : Place} {s t : State} (hp : ∀ g x, p = .mem g x → g = s.seg)
    (h : OnlyPlaceChanged both two p s t) (hwf : s.mem.wf → t.mem.wf) : Ordinary s t := by
  obtain ⟨-, -, -, -, -, hcontrol, hram⟩ := h
  refine ⟨hcontrol, hwf, fun g x hg => hram g x ?_⟩
  cases p with
  | mem g' y =>
    have hne : g ≠ g' := fun e => hg (e.trans (hp g' y rfl))
    simp [Place.storesWord, hne]
  | _ => rfl

/-- A place of the first parameter is in the current segment. -/
theorem resolve2_first_seg (a b : Operand) (s : State) :
    ∀ g x, (resolve2 a b s).first = .mem g x → g = (resolve2 a b s).state.seg := by
  intro g x h
  rw [resolve2_seg]
  exact resolve2_mem_seg (.inl h)

theorem push_ordinary (s : State) (w : Word) : Ordinary s (s.push w) where
  control := ⟨rfl, rfl, rfl, rfl, rfl, rfl⟩
  wf hs := wf_push hs w
  otherSegment g x hg := by rw [readWord_push, if_neg (fun h => hg h.1)]

theorem pushes_ordinary (ws : List Word) (s : State) : Ordinary s (ws.foldl State.push s) := by
  induction ws generalizing s with
  | nil => exact ordinary_of_mem_eq ⟨rfl, rfl, rfl, rfl, rfl, rfl⟩ rfl
  | cons w rest ih => exact (push_ordinary s w).trans (ih (s.push w))

theorem pushAll_ordinary (s : State) : Ordinary s s.pushAll := pushes_ordinary (pushaFrame s) s

/-- A change of the state that is ordinary, and that neither EX nor the ghost counter has part in. -/
structure Quiet (act : State → State) : Prop where
  ordinary : ∀ s, Ordinary s (act s)
  ex : ∀ s, (act s).ex = s.ex
  spend : ∀ s k, act (s.spend k) = (act s).spend k
  cycles : ∀ s, (act s).cycles = s.cycles

/-! ### The shapes of the meanings -/

/-- The eleven opcodes that set EX (rule R25). -/
def SetsEx (i : Instr) : Prop :=
  ∃ a b, i = .add a b ∨ i = .sub a b ∨ i = .mul a b ∨ i = .mli a b ∨ i = .div a b ∨ i = .dvi a b ∨
    i = .shr a b ∨ i = .asr a b ∨ i = .shl a b ∨ i = .adx a b ∨ i = .sbx a b

/-- The three opcodes that call into a segment (rules R273 to R275). -/
def CallsSegment (i : Instr) (c : Operand) : Prop := i = .movh c ∨ i = .movl c ∨ i = .movt c

/-- The shapes in which the meanings of the instructions are written, but for the conditionals. -/
inductive Shape : Instr → (State → Result) → Prop
  | basicWrite {i : Instr} (f : Word → Word → Word) (sg : Signedness) (a b : Operand) (hd : i.destination = some a) :
      Shape i (basicWrite f sg a b)
  | basicWriteEx {i : Instr} (f : Word → Word → Word → WithEx) (sg : Signedness) (a b : Operand) (hi : SetsEx i) :
      Shape i (basicWriteEx f sg a b)
  | storeAndStep {i : Instr} (step : Word → Word) (a b : Operand) (hd : i.destination = some a) :
      Shape i (storeAndStep step a b)
  | floatWrite {i : Instr} (f : Dword → Dword → Dword → Dword) (a b : Operand) (hd : i.destination = some a) :
      Shape i (floatWrite f a b)
  | fset (a b : Operand) : Shape (.fset a b) (execFset a b)
  | dset (b c : Operand) : Shape (.dset b c) (execDset b c)
  | read {i : Instr} (act : Word → State → State) (c : Operand) (hq : ∀ v, Quiet (act v)) : Shape i (specialRead act c)
  | write {i : Instr} (value : State → Word) (c : Operand) (hd : i.destination = some c)
      (hv : ∀ s k, value (s.spend k) = value s) : Shape i (specialWrite value c)
  | plain {i : Instr} (act : State → State) (hq : Quiet act) : Shape i (fun s => .next (act s))
  | segmentCall {i : Instr} (target : Seg → Seg) (c : Operand) (hi : CallsSegment i c) :
      Shape i (specialRead (fun v s => s.moveCall (target s.seg) v) c)
  | popsg : Shape .popsg execPopsg
  | hsg : Shape .hsg execHsg
  | lsg : Shape .lsg execLsg
  | ias (c : Operand) : Shape (.ias c) (execIas c)
  | int (c : Operand) : Shape (.int c) (execInt c)
  | rfi (c : Operand) : Shape (.rfi c) (execRfi c)
  | iaq (c : Operand) : Shape (.iaq c) (execIaq c)
  | hwi (c : Operand) : Shape (.hwi c) (execHwi c)

/-- A change of registers alone that is no change of EX or of the ghost counter is quiet. -/
theorem quiet_of_registers {act : State → State} (hm : ∀ s, (act s).mem = s.mem) (hc : ∀ s, SameControl s (act s))
    (hex : ∀ s, (act s).ex = s.ex) (hs : ∀ s k, act (s.spend k) = (act s).spend k)
    (hy : ∀ s, (act s).cycles = s.cycles) : Quiet act :=
  ⟨fun s => ordinary_of_mem_eq (hc s) (hm s), hex, hs, hy⟩

theorem jsr_quiet (v : Word) : Quiet (fun s => { s.push s.pc with pc := v }) where
  ordinary s := (push_ordinary s s.pc).trans (ordinary_of_mem_eq ⟨rfl, rfl, rfl, rfl, rfl, rfl⟩ rfl)
  ex _ := rfl
  spend _ _ := rfl
  cycles _ := rfl

theorem pushes_spend (ws : List Word) (s : State) (k : Nat) :
    ws.foldl State.push (s.spend k) = (ws.foldl State.push s).spend k := by
  induction ws generalizing s with
  | nil => rfl
  | cons w rest ih => exact ih (s.push w)

theorem pushAll_spend (s : State) (k : Nat) : (s.spend k).pushAll = s.pushAll.spend k :=
  pushes_spend (pushaFrame s) s k

theorem pusha_quiet : Quiet State.pushAll where
  ordinary := pushAll_ordinary
  ex s := by rw [pushAll_frame]
  spend := pushAll_spend
  cycles s := by rw [pushAll_frame]

theorem call_quiet (v : Word) : Quiet (fun s => { (s.push s.pc).pushAll with pc := v }) where
  ordinary s := ((push_ordinary s s.pc).trans (pushAll_ordinary _)).trans
    (ordinary_of_mem_eq ⟨rfl, rfl, rfl, rfl, rfl, rfl⟩ rfl)
  ex s := pusha_quiet.ex (s.push s.pc)
  spend s k := congrArg (fun t : State => { t with pc := v }) (pushAll_spend (s.push s.pc) k)
  cycles s := pusha_quiet.cycles (s.push s.pc)

theorem popReg_spend (s : State) (r : Reg) (k : Nat) : (s.spend k).popReg r = (s.popReg r).spend k := by
  cases r <;> rfl

theorem popa_quiet : Quiet State.popAll where
  ordinary s := ordinary_of_mem_eq (by rw [popAll_frame]; exact ⟨rfl, rfl, rfl, rfl, rfl, rfl⟩) (by rw [popAll_frame])
  ex s := by rw [popAll_frame]
  spend s k := by simp only [State.popAll, popReg_spend]
  cycles s := by rw [popAll_frame]

/-- Every instruction that is no conditional has one of the shapes. -/
theorem exec_shape {i : Instr} (hc : i.isConditional = false) : Shape i (exec i) := by
  have same : ∀ s : State, SameControl s s := fun _ => ⟨rfl, rfl, rfl, rfl, rfl, rfl⟩
  cases i with
  | set b c => exact .basicWrite (fun _ y => y) .unsigned b c rfl
  | and a b => exact .basicWrite (· &&& ·) .unsigned a b rfl
  | bor a b => exact .basicWrite (· ||| ·) .unsigned a b rfl
  | xor a b => exact .basicWrite (· ^^^ ·) .unsigned a b rfl
  | mod a b => exact .basicWrite modResult .unsigned a b rfl
  | mdi a b => exact .basicWrite mdiResult .signed a b rfl
  | add a b => exact .basicWriteEx (fun x y _ => addEx x y) .unsigned a b ⟨a, b, by simp⟩
  | sub a b => exact .basicWriteEx (fun x y _ => subEx x y) .unsigned a b ⟨a, b, by simp⟩
  | mul a b => exact .basicWriteEx (fun x y _ => mulEx x y) .unsigned a b ⟨a, b, by simp⟩
  | mli a b => exact .basicWriteEx (fun x y _ => mliEx x y) .signed a b ⟨a, b, by simp⟩
  | div a b => exact .basicWriteEx (fun x y _ => divEx x y) .unsigned a b ⟨a, b, by simp⟩
  | dvi a b => exact .basicWriteEx (fun x y _ => dviEx x y) .signed a b ⟨a, b, by simp⟩
  | shr a b => exact .basicWriteEx (fun x y _ => shrEx x y) .unsigned a b ⟨a, b, by simp⟩
  | asr a b => exact .basicWriteEx (fun x y _ => asrEx x y) .signed a b ⟨a, b, by simp⟩
  | shl a b => exact .basicWriteEx (fun x y _ => shlEx x y) .unsigned a b ⟨a, b, by simp⟩
  | adx a b => exact .basicWriteEx adxEx .unsigned a b ⟨a, b, by simp⟩
  | sbx a b => exact .basicWriteEx sbxEx .unsigned a b ⟨a, b, by simp⟩
  | sti a b => exact .storeAndStep (· + 1) a b rfl
  | std a b => exact .storeAndStep (· - 1) a b rfl
  | fadd a b => exact .floatWrite floatAdd a b rfl
  | fsub a b => exact .floatWrite floatSub a b rfl
  | fmul a b => exact .floatWrite floatMul a b rfl
  | fdiv a b => exact .floatWrite floatDiv a b rfl
  | fmod a b => exact .floatWrite floatMod a b rfl
  | fset a b => exact .fset a b
  | dset b c => exact .dset b c
  | jsr c => exact .read _ c jsr_quiet
  | call c => exact .read _ c call_quiet
  | pcs c | mov c =>
    exact .read (fun v s => { s with pc := v }) c fun v =>
      quiet_of_registers (fun _ => rfl) same (fun _ => rfl) (fun _ _ => rfl) (fun _ => rfl)
  | sps c =>
    exact .read (fun v s => { s with sp := v }) c fun v =>
      quiet_of_registers (fun _ => rfl) same (fun _ => rfl) (fun _ _ => rfl) (fun _ => rfl)
  | hwq c =>
    exact .read (fun v s => s.queryDevice v) c fun v =>
      quiet_of_registers (fun _ => rfl) same (fun _ => rfl) (fun _ _ => rfl) (fun _ => rfl)
  | iag c => exact .write (fun s => s.ia) c rfl (fun _ _ => rfl)
  | hwn c => exact .write (fun _ => Config.deviceCount) c rfl (fun _ _ => rfl)
  | movh c => exact .segmentCall (fun _ => .high) c (.inl rfl)
  | movl c => exact .segmentCall (fun _ => .low) c (.inr (.inl rfl))
  | movt c => exact .segmentCall Seg.other c (.inr (.inr rfl))
  | hng =>
    exact .plain (fun s => { s with pc := s.pc - 1 })
      (quiet_of_registers (fun _ => rfl) same (fun _ => rfl) (fun _ _ => rfl) (fun _ => rfl))
  | pusha => exact .plain State.pushAll pusha_quiet
  | popa => exact .plain State.popAll popa_quiet
  | popsg => exact .popsg
  | hsg => exact .hsg
  | lsg => exact .lsg
  | ias c => exact .ias c
  | int c => exact .int c
  | rfi c => exact .rfi c
  | iaq c => exact .iaq c
  | hwi c => exact .hwi c
  | _ => cases hc

end Sys2Proof.Proofs

/-! What an instruction can do to the machine in the eyes of the rules about the whole of it, and those rules: who
changes the segment, RAM, EX and the control state, and the invariant of every step. -/

namespace Sys2Proof.Proofs

open Sys2Proof.Machine

/-! ### The effect of an instruction -/

theorem basicWrite_ordinary {f : Word → Word → Word} {sg : Signedness} {a b : Operand} {s t : State}
    (h : basicWrite f sg a b s = .next t) : Ordinary s t := by
  cases h
  exact (resolve2_ordinary a b s).trans
    (ordinary_of_frame (resolve2_first_seg a b s) (writeW_frame _ _ _ _) (wf_writeW · _ _ _))

/-- Registers that are changed beside an ordinary change leave it ordinary. -/
theorem Ordinary.of_registers {s t u : State} (h : Ordinary s t) (hc : SameControl t u) (hm : u.mem = t.mem) :
    Ordinary s u := h.trans (ordinary_of_mem_eq hc hm)

theorem basicWriteEx_ordinary {f : Word → Word → Word → WithEx} {sg : Signedness} {a b : Operand} {s t : State}
    (h : basicWriteEx f sg a b s = .next t) : Ordinary s t := by
  cases h
  exact ((resolve2_ordinary a b s).trans (ordinary_of_frame (resolve2_first_seg a b s) (writeW_frame _ _ _ _)
    (wf_writeW · _ _ _))).of_registers ⟨rfl, rfl, rfl, rfl, rfl, rfl⟩ rfl

theorem storeAndStep_ordinary {step : Word → Word} {a b : Operand} {s t : State}
    (h : storeAndStep step a b s = .next t) : Ordinary s t := by
  cases h
  exact ((resolve2_ordinary a b s).trans (ordinary_of_frame (resolve2_first_seg a b s) (writeW_frame _ _ _ _)
    (wf_writeW · _ _ _))).of_registers ⟨rfl, rfl, rfl, rfl, rfl, rfl⟩ rfl

theorem floatWrite_ordinary {f : Dword → Dword → Dword → Dword} {a b : Operand} {s t : State}
    (h : floatWrite f a b s = .next t) : Ordinary s t := by
  have hframe := floatWrite_frame h
  cases h
  refine (resolve2_ordinary a b s).trans (ordinary_of_frame (resolve2_first_seg a b s) hframe fun hwf => ?_)
  exact wf_writeF (s := { (resolve2 a b s).state with draws := s.draws + 1 }) hwf _ _

theorem execFset_ordinary {a b : Operand} {s t : State} (h : execFset a b s = .next t) : Ordinary s t := by
  cases h
  exact (resolve2_ordinary a b s).trans
    (ordinary_of_frame (resolve2_first_seg a b s) (writeFS_frame _ _ _) (wf_writeFS · _ _))

theorem execDset_ordinary {a b : Operand} {s t : State} (h : execDset a b s = .next t) : Ordinary s t := by
  cases h
  exact (resolve2_ordinary a b s).trans
    (ordinary_of_frame (resolve2_first_seg a b s) (writeD_frame _ _ _) (wf_writeD · _ _))

theorem specialWrite_ordinary {value : State → Word} {c : Operand} {s t : State}
    (h : specialWrite value c s = .next t) : Ordinary s t := by
  cases h
  refine (resolve_ordinary true c s).trans (ordinary_of_frame (fun g x hp => ?_) (writeW_frame _ _ _ _)
    (wf_writeW · _ _ _))
  rw [resolve_seg]
  exact resolve_mem_seg hp

theorem conditional_ordinary {i : Instr} {s t : State} (hc : i.isConditional = true) (h : exec i s = .next t) :
    Ordinary s t := by
  rcases conditional_frame hc h with ⟨a, b, -, ht⟩ | ⟨-, ht⟩
  · rw [ht]
    exact (resolve2_ordinary a b s).of_registers ⟨rfl, rfl, rfl, rfl, rfl, rfl⟩ rfl
  · rw [ht]
    exact ordinary_of_mem_eq ⟨rfl, rfl, rfl, rfl, rfl, rfl⟩ rfl

/-- What an instruction can do to the segment, the control state and RAM. -/
inductive Effect (s t : State) : Instr → Prop
  | ordinary {i : Instr} (h : Ordinary s t) : Effect s t i
  | segment {i : Instr} (hi : i = .hsg ∨ i = .lsg ∨ i = .popsg)
      (ht : t = { s with pc := t.pc, sp := t.sp, seg := t.seg }) : Effect s t i
  | segmentCall {i : Instr} (c : Operand) (hi : CallsSegment i c) (g : Seg) (v : Word)
      (ht : t = (resolve false c s).state.moveCall g v) : Effect s t i
  | ias (c : Operand) (ht : t = { s with sp := t.sp, ia := t.ia }) : Effect s t (.ias c)
  | queueing {i : Instr} (c : Operand) (hi : i = .rfi c ∨ i = .iaq c)
      (ht : t = { s with a := t.a, pc := t.pc, sp := t.sp, iaqOn := t.iaqOn }) : Effect s t i
  | int (c : Operand) (m : Word) (ht : t = (resolve false c s).state.enqueue m) : Effect s t (.int c)
  | hwi (c : Operand) (v : Word) (ht : t = (resolve false c s).state.interruptDevice v) : Effect s t (.hwi c)

/-- Every instruction that completes has one of the effects. -/
theorem exec_effect {i : Instr} {s t : State} (h : exec i s = .next t) : Effect s t i := by
  cases hc : i.isConditional with
  | true => exact .ordinary (conditional_ordinary hc h)
  | false =>
    have hshape := exec_shape hc
    generalize exec i = e at hshape h
    cases hshape with
    | basicWrite => exact .ordinary (basicWrite_ordinary h)
    | basicWriteEx => exact .ordinary (basicWriteEx_ordinary h)
    | storeAndStep => exact .ordinary (storeAndStep_ordinary h)
    | floatWrite => exact .ordinary (floatWrite_ordinary h)
    | fset => exact .ordinary (execFset_ordinary h)
    | dset => exact .ordinary (execDset_ordinary h)
    | write => exact .ordinary (specialWrite_ordinary h)
    | read act c hq =>
      cases h
      exact .ordinary ((resolve_ordinary false c s).trans ((hq _).ordinary _))
    | plain act hq =>
      cases h
      exact .ordinary (hq.ordinary s)
    | segmentCall target c hi =>
      cases h
      exact .segmentCall c hi _ _ rfl
    | popsg =>
      cases h
      exact .segment (.inr (.inr rfl)) rfl
    | hsg =>
      cases h
      exact .segment (.inl rfl) rfl
    | lsg =>
      cases h
      exact .segment (.inr (.inl rfl)) rfl
    | ias c =>
      cases h
      refine .ias c ?_
      simp only [resolve_state]
    | int c =>
      cases h
      exact .int c _ rfl
    | rfi c =>
      cases h
      refine .queueing c (.inl rfl) ?_
      simp only [returnFromInterrupt_eq, resolve_state]
    | iaq c =>
      cases h
      refine .queueing c (.inr rfl) ?_
      simp only [resolve_state]
    | hwi c =>
      cases h
      exact .hwi c _ rfl

/-! ### The segment -/

/-- A device's reaction, or none, leaves the segment, the queueing flag and the inputs (rule R296). -/
theorem interruptDevice_frame (s : State) (v : Word) :
    (s.interruptDevice v).seg = s.seg ∧ (s.interruptDevice v).iaqOn = s.iaqOn ∧
      (s.interruptDevice v).arrivals = s.arrivals ∧ (s.mem.wf → (s.interruptDevice v).mem.wf) := by
  rcases interruptDevice_cases s v with h | ⟨r, h⟩
  · rw [h]
    exact ⟨rfl, rfl, rfl, id⟩
  · rw [h]
    exact react_frame s r

theorem deliver_seg (s : State) : s.deliver.seg = s.seg := by
  rcases deliver_cases s with ⟨-, h⟩ | ⟨m, rest, -, -, -, ⟨-, h⟩ | ⟨-, h⟩⟩ <;> rw [h]
  rfl

theorem boundary_seg (s : State) : s.boundary.seg = s.seg := by
  rw [State.boundary, deliver_seg, arrive_frame]

/-- The segment that MOVH, MOVL or MOVT moves to from a segment (rules R273 to R275). -/
theorem exec_of_callsSegment {i : Instr} {c : Operand} (hi : CallsSegment i c) (s : State) :
    ∃ g, exec i s = .next ((resolve false c s).state.moveCall g
      (readW (resolve false c s).place (resolve false c s).state)) := by
  rcases hi with rfl | rfl | rfl
  exacts [⟨.high, rfl⟩, ⟨.low, rfl⟩, ⟨_, rfl⟩]

/-- Settles O13: of the effects of an instruction, those of the six change the segment, a boundary pushes without
moving, and the MOVs read their place before they move. -/
theorem segmentChangers : Obligations.SegmentChangers := by
  refine ⟨fun i s t h hne => ?changers, boundary_seg, fun s => ⟨exec_hsg s, exec_lsg s⟩, fun c s => ?operand⟩
  case changers =>
    cases exec_effect h with
    | ordinary ho => exact absurd (sameControl_seg ho.control) hne
    | segment hi => rcases hi with rfl | rfl | rfl <;> simp
    | segmentCall c hi => exact .inr (.inr (.inr ⟨c, hi⟩))
    | ias c ht | queueing c hi ht => exact absurd (by rw [ht]) hne
    | int c m ht => exact absurd (by rw [ht, enqueue_seg, resolve_seg]) hne
    | hwi c v ht =>
      obtain ⟨hseg, -⟩ := interruptDevice_frame (resolve false c s).state v
      exact absurd (by rw [ht, hseg, resolve_seg]) hne
  case operand =>
    refine ⟨fun g x => resolve_mem_seg, fun i hi => ?_⟩
    obtain ⟨g, he⟩ := exec_of_callsSegment hi s
    refine ⟨_, he, rfl, ?_⟩
    rw [moveCall_frame]
    exact resolve_ia false c s

/-! ### RAM -/

/-- RAM after a call into a segment: the two words pushed lie in the target (rules R273 to R276). -/
theorem readWord_moveCall (s : State) (g g' : Seg) (v x : Word) :
    (s.moveCall g v).readWord g' x =
      if g' = g ∧ x = s.sp - 2 then Seg.flag s.seg
      else if g' = g ∧ x = s.sp - 1 then s.pc else s.readWord g' x := by
  calc
    _ = (({ s with seg := g }.push s.pc).push (Seg.flag s.seg)).readWord g' x := readWord_congr rfl g' x
    _ = _ := by rw [readWord_push, readWord_push, push_seg, push_sp, sub_one_sub_one]; rfl

/-- Settles O14: of the effects of an instruction but HWI, only the ordinary one and the call into a segment change
RAM. -/
theorem otherSegmentUntouched : Obligations.OtherSegmentUntouched := by
  intro i s t h hhwi g x hne
  have hsame : t.mem ≠ s.mem := fun hm => hne (readWord_congr hm g x)
  cases exec_effect h with
  | ordinary ho =>
    have hg : g = s.seg := by_contra fun hg => hne (ho.otherSegment g x hg)
    exact ⟨fun _ => hg.trans (sameControl_seg ho.control).symm, fun _ => hg⟩
  | segment hi ht | ias c ht | queueing c hi ht => exact absurd (by rw [ht]) hsame
  | segmentCall c hi g' v ht =>
    refine ⟨fun _ => ?_, fun hno => ?_⟩
    · by_contra hg
      rw [ht] at hg
      refine hne ?_
      rw [ht, readWord_moveCall, if_neg (fun e => hg e.1), if_neg (fun e => hg e.1), resolve_readWord]
    · obtain ⟨hh, hl, ht'⟩ := hno c
      rcases hi with hi | hi | hi
      exacts [absurd hi hh, absurd hi hl, absurd hi ht']
  | int c m ht => exact absurd (by rw [ht, enqueue_mem, resolve_mem]) hsame
  | hwi c => exact absurd rfl (hhwi c)

/-! ### EX -/

theorem value_of_resolve_place_ex {first : Bool} {o : Operand} {s : State} (h : (resolve first o s).place = .ex) :
    o.value = .ex := by
  unfold resolve at h
  cases ho : o.value <;> cases first <;> simp [ho] at h ⊢

/-- A writer that changes EX has EX as its destination. -/
theorem ex_of_frame {both two : Bool} {a b : Operand} {s t : State}
    (h : OnlyPlaceChanged both two (resolve2 a b s).first (resolve2 a b s).state t) (hne : t.ex ≠ s.ex) :
    a.value = .ex := by
  obtain ⟨-, -, hex, -⟩ := h
  by_contra hv
  refine hne ((hex fun hp => hv (value_of_resolve_place_ex hp)).trans (resolve2_ex a b s))

theorem conditional_ex {i : Instr} {s t : State} (hc : i.isConditional = true) (h : exec i s = .next t) :
    t.ex = s.ex := by
  rcases conditional_frame hc h with ⟨a, b, -, ht⟩ | ⟨-, ht⟩
  · rw [ht]
    exact resolve2_ex a b s
  · rw [ht]

/-- Settles O15: a conditional leaves EX, a writer of one shape sets it, those of the others write it as their
destination alone, and of the rest only a device has part in it. -/
theorem exOwners : Obligations.ExOwners := by
  intro i s t h hne
  cases hc : i.isConditional with
  | true => exact absurd (conditional_ex hc h) hne
  | false =>
    have hshape := exec_shape hc
    generalize exec i = e at hshape h
    cases hshape with
    | basicWrite f sg a b hd => exact .inr (.inl ⟨a, hd, ex_of_frame (basicWrite_frame h) hne⟩)
    | basicWriteEx f sg a b hi => exact .inl hi
    | storeAndStep step a b hd => exact .inr (.inl ⟨a, hd, ex_of_frame (storeAndStep_frame h) hne⟩)
    | floatWrite f a b hd => exact .inr (.inl ⟨a, hd, ex_of_frame (floatWrite_frame h) hne⟩)
    | fset a b => exact .inr (.inl ⟨a, rfl, ex_of_frame (execFset_frame h) hne⟩)
    | dset a b => exact .inr (.inl ⟨a, rfl, ex_of_frame (execDset_frame h) hne⟩)
    | read act c hq =>
      cases h
      exact absurd (((hq _).ex _).trans (resolve_ex false c s)) hne
    | write value c hd =>
      cases h
      obtain ⟨-, -, hex, -⟩ := writeW_frame (resolve true c s).place (value (resolve true c s).state) .unsigned
        (resolve true c s).state
      refine .inr (.inl ⟨c, hd, by_contra fun hv => hne ?_⟩)
      exact (hex fun hp => hv (value_of_resolve_place_ex hp)).trans (resolve_ex true c s)
    | plain act hq =>
      cases h
      exact absurd (hq.ex s) hne
    | segmentCall target c hi =>
      cases h
      exact absurd (resolve_ex false c s) hne
    | popsg | hsg | lsg =>
      cases h
      exact absurd rfl hne
    | ias c | iaq c | rfi c =>
      cases h
      exact absurd (resolve_ex false c s) hne
    | int c =>
      cases h
      exact absurd ((enqueue_ex _ _).trans (resolve_ex false c s)) hne
    | hwi c => exact .inr (.inr ⟨c, rfl⟩)

/-! ### The control state -/

/-- Settles O16: read off the effects of an instruction. -/
theorem controlOwners : Obligations.ControlOwners := by
  intro i s t h
  cases exec_effect h with
  | ordinary ho =>
    obtain ⟨hia, -, hiaq, hqueue, hstatus, harrivals⟩ := ho.control
    exact ⟨fun hne => absurd hia hne, fun hne => absurd hiaq hne,
      fun hne => hne.elim (absurd hqueue) (absurd hstatus), harrivals⟩
  | segment hi ht =>
    rw [ht]
    simp
  | segmentCall c hi g v ht =>
    rw [ht, moveCall_frame]
    simp
  | ias c ht =>
    rw [ht]
    simp
  | queueing c hi ht =>
    rw [ht]
    simp only [ne_eq, not_true_eq_false, false_implies, or_self, true_and, and_true]
    exact fun _ => ⟨c, hi⟩
  | int c m ht =>
    rw [ht]
    simp
  | hwi c v ht =>
    obtain ⟨-, hiaq, harrivals, -⟩ := interruptDevice_frame (resolve false c s).state v
    rw [ht, hiaq, harrivals]
    simp

/-! ### The invariant -/

/-- The invariant of a state that is no fuller and no worse formed. -/
theorem inv_of_same {s t : State} (h : s.Inv) (hm : s.mem.wf → t.mem.wf) (hq : t.queue = s.queue)
    (hs : t.status = s.status) : t.Inv := by
  obtain ⟨hwf, hlen⟩ := h
  exact ⟨hm hwf, fun hrun => hq ▸ hlen (hs ▸ hrun)⟩

theorem resolve_inv {s : State} (h : s.Inv) (first : Bool) (o : Operand) : (resolve first o s).state.Inv :=
  inv_of_same h (by rw [resolve_mem]; exact id) (by simp) (by simp)

theorem enqueue_inv {s : State} (h : s.Inv) (m : Word) : (s.enqueue m).Inv := by
  obtain ⟨hwf, -⟩ := h
  exact ⟨by rwa [enqueue_mem], enqueue_bound s m⟩

theorem enqueueAll_inv {s : State} (h : s.Inv) (ms : List Word) : (s.enqueueAll ms).Inv := by
  obtain ⟨hwf, hlen⟩ := h
  exact ⟨by rw [enqueueAll_frame]; exact hwf, enqueueAll_bound hlen⟩

theorem interruptDevice_inv {s : State} (h : s.Inv) (v : Word) : (s.interruptDevice v).Inv := by
  rcases interruptDevice_cases s v with he | ⟨r, he⟩
  · rwa [he]
  · rw [he, State.react]
    refine enqueueAll_inv (inv_of_same h ?_ ?_ ?_) _ <;> rw [storeAll_frame]
    exact fun hwf => wf_storeAll hwf

theorem wf_moveCall {s : State} (h : s.mem.wf) (g : Seg) (v : Word) : (s.moveCall g v).mem.wf :=
  wf_push (wf_push (s := { s with seg := g }) h _) _

theorem wf_enterInterrupt {s : State} (h : s.mem.wf) (m : Word) : (s.enterInterrupt m).mem.wf :=
  wf_push (wf_push (s := { s with iaqOn := true }) h _) _

theorem exec_inv {i : Instr} {s t : State} (hs : s.Inv) (h : exec i s = .next t) : t.Inv := by
  cases exec_effect h with
  | ordinary ho =>
    obtain ⟨-, -, -, hqueue, hstatus, -⟩ := ho.control
    exact inv_of_same hs ho.wf hqueue hstatus
  | segment hi ht | ias c ht | queueing c hi ht =>
    rw [ht]
    exact hs
  | segmentCall c hi g v ht =>
    rw [ht]
    exact inv_of_same (resolve_inv hs false c) (wf_moveCall · g v) rfl rfl
  | int c m ht =>
    rw [ht]
    exact enqueue_inv (resolve_inv hs false c) m
  | hwi c v ht =>
    rw [ht]
    exact interruptDevice_inv (resolve_inv hs false c) v

theorem deliver_inv {s : State} (h : s.Inv) : s.deliver.Inv := by
  rcases deliver_cases s with ⟨-, he⟩ | ⟨m, rest, -, -, hq, hcases⟩
  · rwa [he]
  · obtain ⟨hwf, hlen⟩ := h
    have hrest : ({ s with queue := rest } : State).Inv := by
      refine ⟨hwf, fun hrun => ?_⟩
      have hle := hlen hrun
      rw [hq, List.length_cons] at hle
      exact Nat.le_of_succ_le hle
    rcases hcases with ⟨-, he⟩ | ⟨-, he⟩ <;> rw [he]
    · exact hrest
    · exact inv_of_same hrest (wf_enterInterrupt · m) rfl rfl

theorem boundary_inv {s : State} (h : s.Inv) : s.boundary.Inv :=
  deliver_inv (enqueueAll_inv (s := { s with arrivals := s.arrivals.tail }) h s.arriving)

/-- Settles O9: the boundary keeps the invariant, and so does every instruction. -/
theorem stepKeepsInvariant : Obligations.StepKeepsInvariant := by
  intro s t hs h
  obtain ⟨-, ⟨r, -, rfl⟩ | ⟨-, i, -, hexec⟩⟩ := step_cases h
  · exact boundary_inv hs
  · exact exec_inv (s := (s.boundary.passWords i).spend (instrCycles i)) (boundary_inv hs) hexec

/-- Settles O10: RAM lists no word and the queue no message. -/
theorem resetMeetsInvariant : Obligations.ResetMeetsInvariant :=
  ⟨⟨List.Pairwise.nil, fun _ h => (nomatch h)⟩, fun _ => Nat.zero_le _⟩

/-- Settles O11: the reset state is written out. -/
theorem resetState : Obligations.ResetState :=
  ⟨rfl, rfl, rfl, fun r => by cases r <;> rfl, fun f => by cases f <;> rfl, rfl, rfl, rfl, rfl, rfl, fun _ _ => rfl⟩

end Sys2Proof.Proofs

/-! The cycle counter is a ghost (rules R400, R401; log entry 12): `spend` goes through every operation of the machine,
and what each instruction costs. -/

namespace Sys2Proof.Proofs

open Sys2Proof.Machine

/-! ### Reads and writes -/

@[simp] theorem reg_spend (s : State) (k : Nat) (r : Reg) : (s.spend k).reg r = s.reg r := by cases r <;> rfl

@[simp] theorem freg_spend (s : State) (k : Nat) (f : FReg) : (s.spend k).freg f = s.freg f := by cases f <;> rfl

@[simp] theorem dreg_spend (s : State) (k : Nat) (d : DReg) : (s.spend k).dreg d = s.dreg d := by cases d <;> rfl

theorem setReg_spend (s : State) (k : Nat) (r : Reg) (w : Word) : (s.spend k).setReg r w = (s.setReg r w).spend k := by
  cases r <;> rfl

theorem setDreg_spend (s : State) (k : Nat) (d : DReg) (v : Dword) :
    (s.spend k).setDreg d v = (s.setDreg d v).spend k := by cases d <;> rfl

theorem setFreg_spend (s : State) (k : Nat) (f : FReg) (p : Dword) :
    (s.spend k).setFreg f p = (s.setFreg f p).spend k := by cases f <;> rfl

theorem resolve_spend (first : Bool) (o : Operand) (s : State) (k : Nat) :
    resolve first o (s.spend k) = ⟨(resolve first o s).place, (resolve first o s).state.spend k⟩ := by
  unfold resolve
  cases o.value <;> cases first <;> simp only [reg_spend] <;> rfl

theorem resolve2_spend (a b : Operand) (s : State) (k : Nat) :
    resolve2 a b (s.spend k) =
      ⟨(resolve2 a b s).first, (resolve2 a b s).second, (resolve2 a b s).state.spend k⟩ := by
  simp only [resolve2, resolve_spend]

@[simp] theorem readW_spend (p : Place) (s : State) (k : Nat) : readW p (s.spend k) = readW p s := by
  cases p <;> simp [readW]

@[simp] theorem readD_spend (p : Place) (s : State) (k : Nat) : readD p (s.spend k) = readD p s := by
  cases p <;> simp [readD, State.readDword]

@[simp] theorem readF_spend (p : Place) (s : State) (k : Nat) : readF p (s.spend k) = readF p s := by
  cases p <;> simp [readF]

@[simp] theorem readFS_spend (p : Place) (s : State) (k : Nat) : readFS p (s.spend k) = readFS p s := by
  cases p <;> simp [readFS, State.readDword]

theorem writeW_spend (p : Place) (w : Word) (sg : Signedness) (s : State) (k : Nat) :
    writeW p w sg (s.spend k) = (writeW p w sg s).spend k := by
  cases p with
  | reg16 | reg32 => exact setReg_spend _ _ _ _
  | regF => exact setFreg_spend _ _ _ _
  | _ => rfl

theorem writeD_spend (p : Place) (v : DwordSource) (s : State) (k : Nat) :
    writeD p v (s.spend k) = (writeD p v s).spend k := by
  cases p with
  | reg16 => exact setReg_spend _ _ _ _
  | reg32 d => cases h : v.only16 <;> simp [writeD, h, setReg_spend, setDreg_spend]
  | regF => exact setFreg_spend _ _ _ _
  | mem g x => cases h : v.only16 <;> simp only [writeD, h] <;> rfl
  | _ => rfl

theorem writeF_spend (p : Place) (v : Dword) (s : State) (k : Nat) :
    writeF p v (s.spend k) = (writeF p v s).spend k := by
  cases p with
  | reg16 => exact setReg_spend _ _ _ _
  | reg32 => exact setDreg_spend _ _ _ _
  | regF => exact setFreg_spend _ _ _ _
  | _ => rfl

theorem writeFS_spend (p : Place) (v : Dword) (s : State) (k : Nat) :
    writeFS p v (s.spend k) = (writeFS p v s).spend k := by
  cases p with
  | reg16 => exact setReg_spend _ _ _ _
  | reg32 => exact setDreg_spend _ _ _ _
  | regF => exact setFreg_spend _ _ _ _
  | _ => rfl

/-! ### The queue, the devices and the boundary -/

theorem enqueue_spend (s : State) (m : Word) (k : Nat) : (s.spend k).enqueue m = (s.enqueue m).spend k := by
  unfold State.enqueue
  dsimp only [spend_queue]
  split <;> rfl

theorem enqueueAll_spend (ms : List Word) (s : State) (k : Nat) :
    (s.spend k).enqueueAll ms = (s.enqueueAll ms).spend k := by
  induction ms generalizing s with
  | nil => rfl
  | cons m rest ih =>
    unfold State.enqueueAll
    rw [spend_status, enqueue_spend, ih]
    cases s.status <;> rfl

theorem storeAll_spend (l : List (Seg × Word × Word)) (s : State) (k : Nat) :
    (s.spend k).storeAll l = (s.storeAll l).spend k := by
  induction l generalizing s with
  | nil => rfl
  | cons x rest ih => exact ih (s.writeWord x.1 x.2.1 x.2.2)

theorem react_spend (s : State) (r : DeviceReaction) (k : Nat) : (s.spend k).react r = (s.react r).spend k := by
  unfold State.react
  rw [← enqueueAll_spend, ← storeAll_spend]
  simp only [State.spend, Nat.add_right_comm]

/-- The device is not shown the counter, and the cycles it adds come on top (rule R401). -/
theorem interruptDevice_spend (s : State) (v : Word) (k : Nat) :
    (s.spend k).interruptDevice v = (s.interruptDevice v).spend k := by
  unfold State.interruptDevice
  split
  · exact react_spend s _ k
  · rfl

theorem arrive_spend (s : State) (k : Nat) : (s.spend k).arrive = s.arrive.spend k :=
  enqueueAll_spend s.arriving { s with arrivals := s.arrivals.tail } k

theorem enterInterrupt_spend (s : State) (m : Word) (k : Nat) :
    (s.spend k).enterInterrupt m = (s.enterInterrupt m).spend k := by
  simp only [enterInterrupt_eq, State.spend, Nat.add_right_comm]

/-- Nothing leaves the queue of a machine on fire, while queueing is on, or where nothing waits (rule R336). -/
theorem deliver_eq_self {s : State} (h : s.status ≠ .running ∨ s.iaqOn = true ∨ s.queue = []) : s.deliver = s := by
  rcases deliver_cases s with ⟨-, he⟩ | ⟨m, rest, hs, hi, hq, -⟩
  · exact he
  · rw [hs, hi, hq] at h
    simp at h

section
variable {s : State} {m : Word} {rest : List Word}

/-- The oldest message is dropped where IA is 0 (rule R336). -/
theorem deliver_eq_dropped (hs : s.status = .running) (hi : s.iaqOn = false) (hq : s.queue = m :: rest)
    (ha : s.ia = 0) : s.deliver = { s with queue := rest } := by
  unfold State.deliver
  rw [hs, hi, hq]
  dsimp only
  rw [if_pos ha]

/-- The oldest message is taken where IA is not 0 (rule R336). -/
theorem deliver_eq_taken (hs : s.status = .running) (hi : s.iaqOn = false) (hq : s.queue = m :: rest)
    (ha : s.ia ≠ 0) : s.deliver = { s with queue := rest }.enterInterrupt m := by
  unfold State.deliver
  rw [hs, hi, hq]
  dsimp only
  rw [if_neg ha]

end

theorem deliver_spend (s : State) (k : Nat) : (s.spend k).deliver = s.deliver.spend k := by
  rcases deliver_cases s with ⟨h, he⟩ | ⟨m, rest, hs, hi, hq, ⟨ha, he⟩ | ⟨ha, he⟩⟩ <;> rw [he]
  · exact deliver_eq_self (s := s.spend k) h
  · exact deliver_eq_dropped (s := s.spend k) hs hi hq ha
  · exact (deliver_eq_taken (s := s.spend k) hs hi hq ha).trans (enterInterrupt_spend { s with queue := rest } m k)

theorem boundary_spend (s : State) (k : Nat) : (s.spend k).boundary = s.boundary.spend k := by
  rw [State.boundary, arrive_spend, deliver_spend, State.boundary]

/-! ### Instructions and the step -/

/-- A result with more cycles on the counter of its next state. -/
def spendResult (k : Nat) : Result → Result
  | .next t => .next (t.spend k)
  | .fault f => .fault f
  | .refused r => .refused r

theorem skipLoop_spend (n : Nat) (s : State) (k : Nat) : skipLoop n (s.spend k) = spendResult k (skipLoop n s) := by
  induction n generalizing s with
  | zero => rfl
  | succ n ih =>
    have hpass : ∀ i, ({ (s.spend k).passWords i with cycles := (s.spend k).cycles + 1 } : State) =
        ({ s.passWords i with cycles := s.cycles + 1 } : State).spend k := by
      intro i
      simp only [State.passWords, State.spend, Nat.add_right_comm]
    have hfetch : (s.spend k).fetch = s.fetch := rfl
    rw [skipLoop_succ, skipLoop_succ, hfetch]
    cases s.fetch with
    | error e => cases e <;> rfl
    | ok i =>
      dsimp only
      rw [hpass, ih]
      cases i.isConditional <;> rfl

theorem skip_spend (s : State) (k : Nat) : (s.spend k).skip = spendResult k s.skip := skipLoop_spend _ s k

theorem conditional_spend {i : Instr} (hc : i.isConditional = true) (s : State) (k : Nat) :
    exec i (s.spend k) = spendResult k (exec i s) := by
  rcases conditional_cases hc with ⟨test, a, b, -, he⟩ | ⟨test, a, b, -, he⟩ | rfl
  · rw [he]
    simp only [basicTest, resolve2_spend, readW_spend, skip_spend]
    split <;> rfl
  · rw [he]
    simp only [floatTest, resolve2_spend, readF_spend, skip_spend]
    split <;> rfl
  · rw [exec_ifex, exec_ifex, execIfex, execIfex, spend_ex, skip_spend]
    split <;> rfl

theorem exec_spend (i : Instr) (s : State) (k : Nat) : exec i (s.spend k) = spendResult k (exec i s) := by
  cases hc : i.isConditional with
  | true => exact conditional_spend hc s k
  | false =>
    have hshape := exec_shape hc
    generalize exec i = e at hshape
    cases hshape with
    | basicWrite f sg a b => simp only [basicWrite, resolve2_spend, readW_spend, writeW_spend, spendResult]
    | basicWriteEx f sg a b =>
      simp only [basicWriteEx, resolve2_spend, readW_spend, writeW_spend, spendResult]
      rfl
    | storeAndStep step a b =>
      simp only [storeAndStep, resolve2_spend, readW_spend, writeW_spend, spendResult]
      rfl
    | floatWrite f a b =>
      have hdraws : ∀ (u : State) (n : Nat), { u.spend k with draws := n } = ({ u with draws := n } : State).spend k :=
        fun _ _ => rfl
      simp only [floatWrite, resolve2_spend, readF_spend, spend_draws, hdraws, writeF_spend, spendResult]
    | fset a b => simp only [execFset, resolve2_spend, readFS_spend, writeFS_spend, spendResult]
    | dset a b => simp only [execDset, resolve2_spend, readD_spend, writeD_spend, spendResult]
    | read act c hq => simp only [specialRead, resolve_spend, readW_spend, (hq _).spend, spendResult]
    | write value c _ hv => simp only [specialWrite, resolve_spend, hv, writeW_spend, spendResult]
    | plain act hq => simp only [hq.spend, spendResult]
    | segmentCall target c =>
      simp only [specialRead, resolve_spend, readW_spend, spendResult]
      rfl
    | popsg | hsg | lsg => rfl
    | ias c =>
      simp only [execIas, specialRead, resolve_spend, readW_spend, spendResult]
      rfl
    | int c => simp only [execInt, specialRead, resolve_spend, readW_spend, enqueue_spend, spendResult]
    | rfi c =>
      simp only [execRfi, resolve_spend, spendResult]
      rfl
    | iaq c =>
      simp only [execIaq, specialRead, resolve_spend, readW_spend, spendResult]
      rfl
    | hwi c => simp only [execHwi, specialRead, resolve_spend, readW_spend, interruptDevice_spend, spendResult]

theorem step_spend (s : State) (k : Nat) : step (s.spend k) = spendResult k (step s) := by
  unfold step
  rw [spend_status, boundary_spend]
  cases s.status with
  | onFire r => rfl
  | running =>
    dsimp only
    rw [spend_status]
    cases s.boundary.status with
    | onFire r => rfl
    | running =>
      have hfetch : (s.boundary.spend k).fetch = s.boundary.fetch := rfl
      dsimp only
      rw [hfetch]
      cases s.boundary.fetch with
      | error e => cases e <;> rfl
      | ok i =>
        have hpass : ((s.boundary.spend k).passWords i).spend (instrCycles i) =
            ((s.boundary.passWords i).spend (instrCycles i)).spend k := by
          simp only [State.passWords, State.spend, Nat.add_right_comm]
        dsimp only
        rw [hpass, exec_spend]

/-- Outside conditionals and HWI an instruction adds no cycles of its own. -/
theorem exec_cycles {i : Instr} {s t : State} (h : exec i s = .next t) (hc : i.isConditional = false)
    (hhwi : ∀ c, i ≠ .hwi c) : t.cycles = s.cycles := by
  have hshape := exec_shape hc
  generalize exec i = e at hshape h
  cases hshape with
  | basicWrite f sg a b => cases h; simp
  | basicWriteEx f sg a b => cases h; simp
  | storeAndStep step a b => cases h; simp
  | floatWrite f a b => cases h; simp
  | fset a b => cases h; simp
  | dset a b => cases h; simp
  | read act c hq => cases h; rw [(hq _).cycles, resolve_cycles]
  | write value c => cases h; simp
  | plain act hq => cases h; exact hq.cycles s
  | segmentCall target c => cases h; exact resolve_cycles false c s
  | popsg | hsg | lsg => cases h; rfl
  | ias c => cases h; simp
  | int c => cases h; simp
  | rfi c => cases h; rw [returnFromInterrupt_eq, resolve_cycles]
  | iaq c => cases h; simp
  | hwi c => exact absurd rfl (hhwi c)

/-! ### Costs -/

/-- The cost of an instruction of two parameters: its opcode's and their words' (rule R400). -/
theorem instrCycles_pair {i : Instr} {a b : Operand} {n : Nat} (hops : i.operands = [a, b]) (hn : opcodeCycles i = n) :
    instrCycles i = n + a.length + b.length := by
  simp [instrCycles, hops, hn, Nat.add_assoc]

/-- The cost of an instruction of one parameter: its opcode's and its words' (rule R400). -/
theorem instrCycles_singleton {i : Instr} {c : Operand} {n : Nat} (hops : i.operands = [c]) (hn : opcodeCycles i = n) :
    instrCycles i = n + c.length := by
  simp [instrCycles, hops, hn]

/-- An operand owns its next word, where it takes one, and its extension word (rule R99). -/
theorem operand_length_cases (e : Bool) (v : Value) :
    let own := ∃ n, v = .pick n ∨ (∃ r, v = .idx r n) ∨ v = .next n ∨ v = .mem n
    (own → Operand.length ⟨e, v⟩ = if e then 2 else 1) ∧ (¬ own → Operand.length ⟨e, v⟩ = if e then 1 else 0) := by
  cases v <;> cases e <;> simp [Operand.length, Value.nextWords]

/-- Settles O17: the counter goes through every operation, and the costs are read off the tables, where a place in RAM
is told by the value. -/
theorem cyclesAreGhost : Obligations.CyclesAreGhost := by
  refine ⟨fun s k => ?ghost, fun i s t => exec_cycles, operand_length_cases, fun a b s => ?costs⟩
  case ghost =>
    rw [step_spend]
    cases step s <;> rfl
  case costs =>
    intro two one inRam r
    have hfirst : valueInRam a.value = true ↔ inRam r.first := valueInRam_iff true a s
    have hsecond : valueInRam b.value = true ↔ inRam r.second := valueInRam_iff false b (resolve true a s).state
    have hfset : opcodeCycles (.fset a b) = if valueInRam a.value || valueInRam b.value then 3 else 2 := rfl
    have hdset : opcodeCycles (.dset a b) = if valueInRam b.value then 3 else 2 := rfl
    refine ⟨?basic, ?float, ⟨fun h => ?fsetRam, fun h => ?fset⟩, ⟨instrCycles_pair rfl rfl, fun h => ?dsetRam,
      fun h => ?dset⟩, ?special, rfl, rfl, rfl, rfl, rfl, rfl, rfl⟩
    case basic =>
      and_intros <;> exact instrCycles_pair rfl rfl
    case float =>
      and_intros <;> exact instrCycles_pair rfl rfl
    case special =>
      and_intros <;> exact instrCycles_singleton rfl rfl
    case fsetRam =>
      rw [← hfirst, ← hsecond] at h
      exact instrCycles_pair rfl (by rw [hfset, if_pos (Bool.or_eq_true_iff.mpr h)])
    case fset =>
      rw [← hfirst, ← hsecond] at h
      exact instrCycles_pair rfl (by rw [hfset, if_neg (mt Bool.or_eq_true_iff.mp h)])
    case dsetRam => exact instrCycles_pair rfl (by rw [hdset, if_pos (hsecond.mpr h)])
    case dset => exact instrCycles_pair rfl (by rw [hdset, if_neg (mt hsecond.mp h)])

end Sys2Proof.Proofs

/-! One step (rules R11, R38): the instruction that it runs, how it stops, and the finished state. -/

namespace Sys2Proof.Proofs

open Sys2Proof.Machine

/-! ### What a step does after its boundary -/

section
variable {s : State} (hs : s.status = .running)
include hs

/-- The step performs the instruction at PC, past its words and with its cycles counted (rules R11, R108). -/
theorem step_eq_exec {i : Instr} (hb : s.boundary.status = .running) (hf : s.boundary.fetch = .ok i) :
    step s = exec i ((s.boundary.passWords i).spend (instrCycles i)) := by
  unfold step
  simp only [hs, hb, hf]

/-- Words without a meaning stop the step (rule R331). -/
theorem step_eq_fault {e : DecodeError} (hb : s.boundary.status = .running) (hf : s.boundary.fetch = .error e) :
    step s = .fault (s.boundary.faultOf e) := by
  unfold step
  simp only [hs, hb, hf]

/-- A boundary that catches fire is the whole step (rule R342). -/
theorem step_eq_boundary {r : FireReason} (hb : s.boundary.status = .onFire r) : step s = .next s.boundary := by
  unfold step
  simp only [hs, hb]

end

/-- With nothing arriving and nothing queued, the boundary does nothing. -/
theorem boundary_idle {s : State} (ha : s.arrivals = []) (hq : s.queue = []) : s.boundary = s := by
  rw [State.boundary, arrive_idle ha, deliver_eq_self (.inr (.inr hq))]

/-- Settles O6: the step is written out, and its boundary has nothing to do where nothing arrives or waits. -/
theorem stepRunsDecodedInstruction : Obligations.StepRunsDecodedInstruction := by
  intro s i hs hb hf
  exact ⟨step_eq_exec hs hb hf, boundary_idle⟩

/-- Settles O8: by the two errors of the decoder, and by the status. -/
theorem stepStops : Obligations.StepStops :=
  ⟨fun _ hs hb => ⟨step_eq_fault hs hb, step_eq_fault hs hb⟩, fun _ _ => step_of_onFire⟩

/-! ### Fetching what was encoded -/

/-- Every instruction is encoded in as many words as its length says, at most five (rule R99). -/
theorem encoded_length (i : Instr) : Laws.EncodedLength.Statement i := by
  open Laws.EncodedLength in
  cases i
  exacts [ifb _ _, ifc _ _, ife _ _, ifn _ _, ifg _ _, ifa _ _, ifl _ _, ifu _ _, sti _ _, std _ _, add _ _, sub _ _,
    mul _ _, mli _ _, div _ _, dvi _ _, mod _ _, mdi _ _, and _ _, bor _ _, xor _ _, shr _ _, asr _ _, shl _ _, adx _ _,
    sbx _ _, fadd _ _, fsub _ _, fmul _ _, fdiv _ _, fmod _ _, fife _ _, fifn _ _, fifg _ _, fifl _ _, fset _ _,
    set _ _, dset _ _, jsr _, call _, movh _, movl _, movt _, pcs _, mov _, sps _, ias _, iag _, int _, rfi _, iaq _,
    hwn _, hwq _, hwi _, ifex, popsg, hsg, lsg, hng, pusha, popa]

/-- The five words that a fetch reads from PC on, in the current segment (rules R26, R27). -/
def fetchedWords (s : State) : List Word :=
  (List.range 5).map fun k => s.readWord s.seg (s.pc + BitVec.ofNat 16 k)

theorem fetch_eq_decodeWords (s : State) : s.fetch = decodeWords (fetchedWords s) := by
  have hzero : s.pc + BitVec.ofNat 16 0 = s.pc := BitVec.add_zero s.pc
  change _ = decode (s.readWord s.seg (s.pc + BitVec.ofNat 16 0)) _ _ _ _
  rw [hzero]
  rfl

/-- Where RAM holds the words of a well-formed instruction from PC on, the fetch finds it. -/
theorem fetch_of_encoded {s : State} {i : Instr} (hwf : i.wellFormed = true)
    (hram : ∀ k, ∀ h : k < (encode i).length, s.readWord s.seg (s.pc + BitVec.ofNat 16 k) = (encode i)[k]) :
    s.fetch = .ok i.canonical := by
  obtain ⟨hlen, -, hle⟩ := encoded_length i
  have htake : (fetchedWords s).take (encode i).length = encode i := by
    apply List.ext_getElem
    · simp [fetchedWords]
      omega
    · intro k _ hk
      simp [fetchedWords, hram k hk]
  rw [fetch_eq_decodeWords, ← List.take_append_drop (encode i).length (fetchedWords s), htake]
  exact decodeWords_encode hwf _

/-- PCS costs and measures what its other name MOV does (rule R112). -/
theorem canonical_measures (i : Instr) : i.canonical.length = i.length ∧ instrCycles i.canonical = instrCycles i := by
  cases i <;> exact ⟨rfl, rfl⟩

/-- Settles O7: the fetch reads the words of the instruction, and decoding undoes encoding. -/
theorem stepRunsEncodedInstruction : Obligations.StepRunsEncodedInstruction := by
  intro s i hs hb hwf hram
  obtain ⟨hlen, hcycles⟩ := canonical_measures i
  rw [step_eq_exec hs hb (fetch_of_encoded hwf hram), hcycles, State.passWords, hlen]
  rfl

/-! ### HNG and the finished state -/

/-- A step at an HNG leaves what the boundary left, but for its cycle (rule R315). -/
theorem step_hng {s : State} (hs : s.status = .running) (hb : s.boundary.status = .running)
    (hw : s.boundary.readWord s.boundary.seg s.boundary.pc = 0x0808) :
    step s = .next { s.boundary with cycles := s.boundary.cycles + 1 } := by
  have hf : s.boundary.fetch = .ok .hng := by
    rw [State.fetch, hw]
    rfl
  have hpc : s.boundary.pc + BitVec.ofNat 16 (Instr.length .hng) - 1 = s.boundary.pc :=
    BitVec.add_sub_cancel s.boundary.pc 1
  rw [step_eq_exec hs hb hf]
  exact congrArg (fun pc => Host.Outcome.next { s.boundary with pc := pc, cycles := s.boundary.cycles + 1 }) hpc

/-- At a finished state the boundary only moves the schedule on and changes the queue, and it stays finished. -/
theorem boundary_of_finished {s : State} (h : s.Finished) (hfit : s.ArrivalsFit) :
    ∃ q, s.boundary = { s with arrivals := s.arrivals.tail, queue := q } ∧
      ((s.ia = 0 ∧ s.iaqOn = false) ∨
        ((s.arrivals.tail = [] ∨ Config.deviceCount = 0) ∧ (q = [] ∨ s.iaqOn = true))) := by
  obtain ⟨hs, -, hcases⟩ := h
  have harrive := arrive_fits hs hfit
  rcases hcases with ⟨hia, hiaq⟩ | ⟨hnone, hwait⟩
  · cases hq : s.queue ++ s.arriving with
    | nil =>
      refine ⟨[], ?_, .inl ⟨hia, hiaq⟩⟩
      rw [State.boundary, harrive, hq]
      exact deliver_eq_self (.inr (.inr rfl))
    | cons m rest =>
      refine ⟨rest, ?_, .inl ⟨hia, hiaq⟩⟩
      rw [State.boundary, harrive, hq]
      exact deliver_eq_dropped (m := m) hs hiaq rfl hia
  · have harriving : s.arriving = [] := hnone.elim arriving_idle (arriving_no_device s)
    rw [harriving, List.append_nil] at harrive
    refine ⟨s.queue, ?_, .inr ⟨hnone.imp_left fun h => by rw [h]; rfl, hwait⟩⟩
    rw [State.boundary, harrive]
    exact deliver_eq_self (hwait.elim (fun hq => .inr (.inr hq)) fun hi => .inr (.inl hi))

/-- Settles O18: the boundary changes no register and no word of RAM, and HNG comes back to itself. -/
theorem finishedStays : Obligations.FinishedStays := by
  intro s h hfit
  obtain ⟨hs, hw, -⟩ := id h
  obtain ⟨q, hb, hstill⟩ := boundary_of_finished h hfit
  have hstep := step_hng hs (by rw [hb]; exact hs) (by rw [hb]; exact hw)
  rw [hb] at hstep
  refine ⟨_, hstep, ⟨fun r => ?_, fun f => ?_, rfl, rfl, rfl, rfl, rfl, rfl, rfl, fun _ _ => rfl⟩, hs, hw, hstill⟩
  · cases r <;> rfl
  · cases f <;> rfl

end Sys2Proof.Proofs

/-! Interrupts (60_exceptions.md): the delivery, the overflow of the queue, INT, RFI and IAQ; and the words of the
Special opcodes. -/

namespace Sys2Proof.Proofs

open Sys2Proof.Machine

/-! ### The words of the Special opcodes -/

/-- Bits side by side are the upper ones above zeros, and the lower ones below zeros. -/
theorem append_eq_or {m n : Nat} (x : BitVec m) (y : BitVec n) : x ++ y = (x ++ 0#n) ||| y.setWidth (m + n) := by
  apply BitVec.eq_of_getLsbD_eq
  intro k hk
  simp only [BitVec.getLsbD_append, BitVec.getLsbD_or, BitVec.getLsbD_setWidth, hk, decide_true, Bool.true_and]
  by_cases h : k < n
  · simp [h]
  · simp [h, BitVec.getLsbD_of_ge y k (by omega)]

/-- The first word of a Special instruction, `0001oooooocccccc`, and the words of its parameter (rules R95, R98). -/
theorem encodesTo_special (o : BitVec 6) {i : Instr} {c : Operand} (hi : encode i = encodeSpecial o c)
    (hops : i.operands = [c]) : EncodesTo i (firstWordOne (1#4 ++ o ++ 0#6) c) := by
  rw [EncodesTo, hi, hops, encodeSpecial, append_eq_or]
  simp [firstWordOne]

/-! ### The delivery -/

/-- Settles O20: the arrivals join the queue, and the delivery check has its three cases. -/
theorem deliveryCases : Obligations.DeliveryCases := by
  intro s
  refine ⟨arriving_idle, arriving_no_device s, fun now later => arriving_device, ?_⟩
  intro hs hfit s1
  have harrive : s.arrive = s1 := arrive_fits hs hfit
  rw [State.boundary, harrive]
  exact ⟨fun h => deliver_eq_self (.inr h), fun m rest hi hq =>
    ⟨deliver_eq_dropped (s := s1) hs hi hq, deliver_eq_taken (s := s1) hs hi hq⟩⟩

/-! ### The overflow -/

theorem enqueue_of_lt {s : State} (h : s.queue.length < 256) (m : Word) :
    s.enqueue m = { s with queue := s.queue ++ [m] } := by
  rw [State.enqueue]
  exact if_neg (by rw [List.length_append, List.length_singleton]; exact Nat.not_lt.mpr h)

theorem enqueue_of_ge {s : State} (h : 256 ≤ s.queue.length) (m : Word) :
    s.enqueue m = { s with queue := s.queue ++ [m], status := .onFire .queueOverflow } := by
  rw [State.enqueue]
  exact if_pos (by rw [List.length_append, List.length_singleton]; exact Nat.lt_succ_of_le h)

/-- Messages past the 256th set the machine on fire, which keeps 257 entries (rule R334; log entry 19). -/
theorem enqueueAll_overflow {ms : List Word} {s : State} (hs : s.status = .running) (hq : s.queue.length ≤ 256)
    (h : 256 < s.queue.length + ms.length) :
    s.enqueueAll ms = { s with queue := (s.queue ++ ms).take 257, status := .onFire .queueOverflow } := by
  induction ms generalizing s with
  | nil => exact absurd h (Nat.not_lt.mpr hq)
  | cons m rest ih =>
    have hcons : s.enqueueAll (m :: rest) = (s.enqueue m).enqueueAll rest := by rw [State.enqueueAll, hs]
    rw [hcons]
    by_cases hlt : s.queue.length < 256
    · have hrest := ih (s := { s with queue := s.queue ++ [m] }) hs (by simpa using hlt)
        (by simpa [Nat.add_assoc, Nat.add_comm 1] using h)
      rw [enqueue_of_lt hlt, hrest]
      simp
    · have hlen : s.queue.length = 256 := le_antisymm hq (Nat.not_lt.mp hlt)
      have hfire : ∀ u : State, u.status = .onFire .queueOverflow → u.enqueueAll rest = u := by
        intro u hu
        cases rest <;> simp [State.enqueueAll, hu]
      have htake : (s.queue ++ m :: rest).take 257 = s.queue ++ [m] := by
        rw [← List.singleton_append, ← List.append_assoc]
        exact List.take_left' (by simp [hlen])
      rw [enqueue_of_ge (Nat.not_lt.mp hlt), hfire _ rfl, htake]

/-- Settles O21: the arrivals set the machine on fire, so the delivery and the rest of the step do nothing. -/
theorem arrivalOverflowIsFire : Obligations.ArrivalOverflowIsFire := by
  intro s now later hs harrivals hq hover
  refine ⟨fun hdev => ?fire, fun hdev => ?quiet⟩
  case fire =>
    have harrive : s.arrive = { s with
        arrivals := later, queue := (s.queue ++ now).take 257, status := .onFire .queueOverflow } := by
      rw [State.arrive, arriving_device harrivals hdev, harrivals]
      exact enqueueAll_overflow (s := { s with arrivals := later }) hs hq hover
    have hboundary : s.boundary = s.arrive := by
      rw [State.boundary, deliver_eq_self (.inl ?_)]
      rw [harrive]
      simp
    have hfire : s.boundary.status = .onFire .queueOverflow := by rw [hboundary, harrive]
    refine ⟨s.boundary, step_eq_boundary hs hfire, hfire, ?_⟩
    rw [hboundary, harrive]
    exact ⟨rfl, ⟨fun r => by cases r <;> rfl, fun f => by cases f <;> rfl, rfl⟩, rfl, rfl, rfl, rfl, rfl, rfl,
      fun _ _ => rfl, step_of_onFire rfl⟩
  case quiet => rw [arrive_nothing (arriving_no_device s hdev), harrivals, List.tail_cons]

/-! ### INT -/

theorem exec_int (c : Operand) (s : State) :
    exec (.int c) s =
      .next ((resolve false c s).state.enqueue (readW (resolve false c s).place (resolve false c s).state)) := rfl

/-- Settles O22: INT is the entry of one message into the queue. -/
theorem intEnqueues : Obligations.IntEnqueues := by
  intro c s r q
  rw [exec_int]
  refine ⟨encodesTo_special 0x12 rfl rfl, fun h => ?_, fun h => ?_⟩
  · rw [enqueue_of_lt (by rwa [resolve_queue]), resolve_queue]
  · rw [enqueue_of_ge (by rwa [resolve_queue]), resolve_queue]

/-- A machine with an empty queue, written out. -/
theorem with_queue_nil {u : State} (h : u.queue = []) : { u with queue := [] } = u := by rw [← h]

/-- Settles O23: the message of INT is alone in the queue, and the delivery check takes or drops it. -/
theorem intIsTakenAtTheNextBoundary : Obligations.IntIsTakenAtTheNextBoundary := by
  intro c s t hs hi hq ha h r
  have hrq : r.state.queue = [] := (resolve_queue false c s).trans hq
  have ht : t = { r.state with queue := [readW r.place r.state] } := by
    rw [exec_int, enqueue_of_lt (by rw [resolve_queue, hq]; decide), resolve_queue, hq] at h
    cases h
    rfl
  have hts : t.status = .running := by rw [ht]; exact (resolve_status false c s).trans hs
  have hti : t.iaqOn = false := by rw [ht]; exact (resolve_iaqOn false c s).trans hi
  have hta : t.arrivals = [] := by rw [ht]; exact (resolve_arrivals false c s).trans ha
  have htia : t.ia = s.ia := by rw [ht]; exact resolve_ia false c s
  have htq : t.queue = readW r.place r.state :: [] := by rw [ht]
  have hrest : { t with queue := [] } = r.state := by
    rw [ht]
    exact with_queue_nil hrq
  rw [State.boundary, arrive_idle hta]
  refine ⟨fun hia => ?_, fun hia => ?_⟩
  · rw [deliver_eq_taken hts hti htq (htia ▸ hia), hrest]
  · rw [deliver_eq_dropped hts hti htq (htia ▸ hia), hrest]

/-! ### RFI -/

/-- RFI in full: its parameter only moves SP, and only as POP (rule R290). -/
theorem exec_rfi (c : Operand) (s : State) :
    let sp := if c.value = .stack then s.sp + 1 else s.sp
    exec (.rfi c) s = .next { s with
      iaqOn := false, a := s.readWord s.seg sp, pc := s.readWord s.seg (sp + 1), sp := sp + 2 } := by
  intro sp
  have hsp : sp + 1 + 1 = sp + 2 := BitVec.add_assoc sp 1 1
  change Host.Outcome.next (resolve false c s).state.returnFromInterrupt = _
  rw [returnFromInterrupt_eq, resolve_state, ← hsp]
  rfl

/-- Settles O24: RFI is written out. -/
theorem rfiPops : Obligations.RfiPops := fun c s => ⟨encodesTo_special 0x13 rfl rfl, exec_rfi c s⟩

/-- Settles O25: the two words that RFI pops are those that the entry pushed. -/
theorem entryThenRfi : Obligations.EntryThenRfi := by
  intro s h m c hc hseg hsp hframe
  have hne : s.sp - 1 ≠ s.sp - 2 := by bv_omega
  have hup : s.sp - 2 + 1 = s.sp - 1 := by bv_omega
  have htop : s.sp - 2 + 2 = s.sp := BitVec.sub_add_cancel s.sp 2
  rw [enterInterrupt_sp] at hsp
  have ha : h.readWord s.seg (s.sp - 2) = s.a := by
    rw [hframe _ (.inr rfl), readWord_enterInterrupt, if_pos ⟨rfl, rfl⟩]
  have hpc : h.readWord s.seg (s.sp - 1) = s.pc := by
    rw [hframe _ (.inl rfl), readWord_enterInterrupt, if_neg (fun e => hne e.2), if_pos ⟨rfl, rfl⟩]
  rw [exec_rfi, if_neg hc, hseg, hsp, hup, htop, ha, hpc]

/-! ### IAQ -/

theorem exec_iaq (c : Operand) (s : State) :
    exec (.iaq c) s = .next { (resolve false c s).state with
      iaqOn := readW (resolve false c s).place (resolve false c s).state != 0 } := rfl

/-- Settles O26: IAQ sets the flag by its parameter, and once it is off the delivery check has a message to deliver. -/
theorem iaqSetsQueueing : Obligations.IaqSetsQueueing := by
  intro c s r v
  have hon : v ≠ 0 → exec (.iaq c) s = .next { r.state with iaqOn := true } := by
    intro hv
    rw [exec_iaq, bne_iff_ne.mpr hv]
  have hoff : v = 0 → exec (.iaq c) s = .next { r.state with iaqOn := false } := by
    intro hv
    rw [exec_iaq, show (v != 0) = false by simp [hv]]
  refine ⟨encodesTo_special 0x14 rfl rfl, instrCycles_singleton rfl rfl, hon, hoff, ?_⟩
  intro t m rest hv h hs ha hq
  have ht : { r.state with iaqOn := false } = t := by simpa [hoff hv] using h
  have hts : t.status = .running := by rw [← ht]; exact (resolve_status false c s).trans hs
  have hti : t.iaqOn = false := by rw [← ht]
  have hta : t.arrivals = [] := by rw [← ht]; exact (resolve_arrivals false c s).trans ha
  have htia : t.ia = s.ia := by rw [← ht]; exact resolve_ia false c s
  have htq : t.queue = m :: rest := by rw [← ht]; exact (resolve_queue false c s).trans hq
  have htaken : s.ia ≠ 0 → t.boundary = { t with queue := rest }.enterInterrupt m := by
    intro hia
    rw [State.boundary, arrive_idle hta, deliver_eq_taken hts hti htq (htia ▸ hia)]
  refine ⟨?_, htaken⟩
  by_cases hia : s.ia = 0
  · rw [State.boundary, arrive_idle hta, deliver_eq_dropped hts hti htq (htia ▸ hia)]
  · rw [htaken hia]
    rfl

end Sys2Proof.Proofs

/-! Operands (40_operands.md): the value table, dwords in RAM, and literal destinations. -/

namespace Sys2Proof.Proofs

open Sys2Proof.Machine

/-! ### The value table -/

/-- A sum of words is that of their numbers, modulo 2^16 (rule R68). -/
theorem ofNat_sum_mod (x y : Word) : BitVec.ofNat 16 ((x.toNat + y.toNat) % 2 ^ 16) = x + y := by
  apply BitVec.eq_of_toNat_eq
  rw [BitVec.toNat_ofNat, BitVec.toNat_add, Nat.mod_mod]

/-- A small literal is its number. -/
theorem setWidth_ofNat_four {k : Nat} (h : k < 16) : (BitVec.ofNat 4 k).setWidth 16 = BitVec.ofNat 16 k := by
  interval_cases k <;> rfl

/-- Settles O28: each row of the table is read off the decoder and the resolution. -/
theorem pickAndPeek : Obligations.PickAndPeek := by
  intro first e n s names sum regs
  have hsum : ∀ x y, sum x y = x + y := ofNat_sum_mod
  have hplace : ∀ x y, (⟨.mem s.seg (x + y), s⟩ : Resolved) = ⟨.mem s.seg (sum x y), s⟩ := by
    intro x y
    rw [hsum]
  refine ⟨fun k hk => ?registers, ⟨⟨rfl, rfl⟩, ⟨rfl, rfl⟩, ⟨rfl, rfl⟩, ⟨rfl, rfl⟩⟩,
    ⟨rfl, ⟨rfl, hplace s.sp n⟩, ⟨rfl, rfl⟩, rfl⟩,
    ⟨⟨rfl, rfl⟩, ⟨rfl, rfl⟩, ⟨rfl, rfl⟩, ⟨rfl, rfl⟩, ⟨rfl, rfl⟩, ⟨rfl, rfl⟩⟩, fun k hk => ?small, fun k hk => ?power,
    ?pickZero⟩
  case registers =>
    have hreg : Reg.ofNumber k = regs[k] := by
      have hk' : k < 8 := hk
      interval_cases k <;> rfl
    rw [← hreg]
    exact ⟨⟨decode_value_reg hk n, rfl⟩, ⟨decode_value_ind hk n, rfl⟩, ⟨decode_value_idx hk n, hplace _ n⟩⟩
  case small =>
    refine ⟨decode_value_small hk n, ?_⟩
    rw [← setWidth_ofNat_four hk]
    rfl
  case power => exact ⟨decode_value_power hk n, rfl⟩
  case pickZero =>
    have hzero : s.sp + 0 = s.sp := BitVec.add_zero s.sp
    change (⟨.mem s.seg (s.sp + 0), s⟩ : Resolved) = ⟨.mem s.seg s.sp, s⟩
    rw [hzero]

/-! ### Dwords in RAM -/

theorem add_one_ne_self (x : Word) : x + 1 ≠ x := by bv_omega

/-- The high half of a dword in RAM lies at its address (rule R64). -/
theorem readWord_writeDword_high (s : State) (g : Seg) (x : Word) (d : Dword) :
    (s.writeDword g x d).readWord g x = hi16 d := by
  rw [readWord_writeDword, if_neg (fun h => add_one_ne_self x h.2.symm), if_pos ⟨rfl, rfl⟩]

/-- The low half of a dword in RAM lies at the next address (rules R64, R68). -/
theorem readWord_writeDword_low (s : State) (g : Seg) (x : Word) (d : Dword) :
    (s.writeDword g x d).readWord g (x + 1) = lo16 d := by
  rw [readWord_writeDword, if_pos ⟨rfl, rfl⟩]

/-- A dword in RAM is read as it was written. -/
@[simp] theorem readDword_writeDword (s : State) (g : Seg) (x : Word) (d : Dword) :
    (s.writeDword g x d).readDword g x = d := by
  rw [State.readDword, readWord_writeDword_high, readWord_writeDword_low, dword_hi16_lo16]

/-- Settles O32: a dword is two words, at addresses that differ. -/
theorem dwordsInRam : Obligations.DwordsInRam := by
  intro s g x w d t
  have hnext : BitVec.ofNat 16 (x.toNat + 1) = x + 1 := by
    rw [BitVec.ofNat_add, BitVec.ofNat_toNat, BitVec.setWidth_eq]
    rfl
  refine ⟨readWord_writeDword_high s g x d, ?low, readDword_writeDword s g x d, fun g' x' h => ?others, ?here, ?before⟩
  case low =>
    rw [hnext]
    exact readWord_writeDword_low s g x d
  case others =>
    rw [readWord_writeDword, if_neg (fun e => h ⟨e.1, .inr e.2⟩), if_neg (fun e => h ⟨e.1, .inl e.2⟩)]
  case here =>
    rw [State.readDword, readWord_writeWord_self, readWord_writeWord, if_neg (fun h => add_one_ne_self x h.2)]
    rfl
  case before =>
    have hback : x - 1 + 1 = x := BitVec.sub_add_cancel x 1
    have hne : x - 1 ≠ x := by bv_omega
    rw [State.readDword, hback, readWord_writeWord_self, readWord_writeWord, if_neg (fun h => hne h.2)]
    rfl

/-! ### Literal destinations -/

/-- A code that names a literal moves no stack pointer. -/
theorem resolve_state_of_lit {first : Bool} {o : Operand} {s : State} {w : Word}
    (h : (resolve first o s).place = .lit w) : (resolve first o s).state = s := by
  refine resolve_state_of_ne_stack (fun hv => ?_) first s
  unfold resolve at h
  rw [hv] at h
  cases first <;> cases h

section
variable {a b : Operand} {s : State} {w : Word} (h : (resolve2 a b s).first = .lit w)
include h

/-- A Basic opcode drops what it would write to a literal (rule R129). -/
theorem basicWrite_lit (f : Word → Word → Word) (sg : Signedness) :
    basicWrite f sg a b s = .next (resolve2 a b s).state := by
  simp only [basicWrite, h, writeW]

/-- EX is set, also where the result is dropped. -/
theorem basicWriteEx_lit (f : Word → Word → Word → WithEx) (sg : Signedness) :
    let r := resolve2 a b s
    basicWriteEx f sg a b s = .next { r.state with ex := (f w (readW r.second r.state) s.ex).ex } := by
  simp only [basicWriteEx, h, writeW, readW, resolve2_ex]

theorem floatWrite_lit (f : Dword → Dword → Dword → Dword) :
    floatWrite f a b s = .next { (resolve2 a b s).state with draws := s.draws + 1 } := by
  simp only [floatWrite, h, writeF]

theorem storeAndStep_lit (step : Word → Word) :
    storeAndStep step a b s = .next { (resolve2 a b s).state with i := step s.i } := by
  simp only [storeAndStep, h, writeW, resolve2_i]

theorem specialWrite_lit (value : State → Word) : specialWrite value a s = .next s := by
  have ha : (resolve true a s).place = .lit w := h
  simp only [specialWrite, ha, resolve_state_of_lit ha, writeW]

end

/-- Settles O29: each shape of a writer drops the write to a literal and does the rest. -/
theorem literalWritesAreDropped : Obligations.LiteralWritesAreDropped := by
  intro a b w s h r y drops setsEx draws
  have hdset : drops (.dset a b) := by
    change execDset a b s = _
    simp only [execDset, h, writeD, r]
  have hfset : drops (.fset a b) := by
    change execFset a b s = _
    simp only [execFset, h, writeFS, r]
  refine ⟨⟨basicWrite_lit h (fun _ z => z) .unsigned, hdset, hfset, basicWrite_lit h (· &&& ·) .unsigned,
      basicWrite_lit h (· ||| ·) .unsigned, basicWrite_lit h (· ^^^ ·) .unsigned, basicWrite_lit h modResult .unsigned,
      basicWrite_lit h mdiResult .signed⟩,
    ⟨basicWriteEx_lit h (fun x z _ => addEx x z) .unsigned, basicWriteEx_lit h (fun x z _ => subEx x z) .unsigned,
      basicWriteEx_lit h (fun x z _ => mulEx x z) .unsigned, basicWriteEx_lit h (fun x z _ => mliEx x z) .signed,
      basicWriteEx_lit h (fun x z _ => divEx x z) .unsigned, basicWriteEx_lit h (fun x z _ => dviEx x z) .signed,
      basicWriteEx_lit h (fun x z _ => shrEx x z) .unsigned, basicWriteEx_lit h (fun x z _ => asrEx x z) .signed,
      basicWriteEx_lit h (fun x z _ => shlEx x z) .unsigned, basicWriteEx_lit h adxEx .unsigned,
      basicWriteEx_lit h sbxEx .unsigned⟩,
    ⟨floatWrite_lit h floatAdd, floatWrite_lit h floatSub, floatWrite_lit h floatMul, floatWrite_lit h floatDiv,
      floatWrite_lit h floatMod⟩,
    storeAndStep_lit h (· + 1), storeAndStep_lit h (· - 1), specialWrite_lit h (fun u => u.ia),
    specialWrite_lit h (fun _ => Config.deviceCount)⟩

end Sys2Proof.Proofs

/-! The rest of the Basic opcodes (41_basic.md): signed division, shifts, the sums with EX, and the skip. -/

namespace Sys2Proof.Proofs

open Sys2Proof.Machine

/-! ### Signed division -/

/-- A word in the high half of a dword, above a zero low half, is the word times 65536, signed. -/
theorem u32_s16_mul (x : Word) : u32 (s16 x * 65536) = x ++ 0#16 := by
  apply BitVec.eq_of_toNat_eq
  rw [toNat_append_zero, u32, BitVec.toNat_ofInt, s16, BitVec.toInt_eq_toNat_cond]
  have hx := x.isLt
  split <;> omega

theorem toInt_append_zero (x : Word) : (x ++ 0#16).toInt = x.toInt * 65536 := by
  have hx := x.isLt
  rw [BitVec.toInt_eq_toNat_cond, BitVec.toInt_eq_toNat_cond, toNat_append_zero]
  split <;> split <;> omega

theorem u16_tdiv (x y : Word) : u16 ((s16 x).tdiv (s16 y)) = x.sdiv y := by
  apply BitVec.eq_of_toInt_eq
  rw [u16, BitVec.toInt_ofInt, BitVec.toInt_sdiv, s16, s16]

theorem u32_tdiv (x y : Dword) : u32 (x.toInt.tdiv y.toInt) = x.sdiv y := by
  apply BitVec.eq_of_toInt_eq
  rw [u32, BitVec.toInt_ofInt, BitVec.toInt_sdiv]

theorem dviEx_of_ne_zero {x y : Word} (h : y ≠ 0) :
    dviEx x y = ⟨x.sdiv y, ((x ++ 0#16).sdiv (y.signExtend 32)).extractLsb' 0 16⟩ := by
  have hy : (y.signExtend 32).toInt = s16 y := BitVec.toInt_signExtend_of_le (by decide)
  rw [dviEx, if_neg h, u16_tdiv, u16_eq_extractLsb'_u32, ← u32_tdiv, hy, toInt_append_zero]
  rfl

theorem dviEx_of_eq_zero {y : Word} (h : y = 0) (x : Word) : dviEx x y = ⟨0, 0⟩ := if_pos h

theorem mdiResult_of_ne_zero {x y : Word} (h : y ≠ 0) : mdiResult x y = x.srem y := by
  have hrem : s16 x - s16 y * (s16 x).tdiv (s16 y) = (x.srem y).toInt := by
    rw [BitVec.toInt_srem]
    exact (Int.tmod_def x.toInt y.toInt).symm
  rw [mdiResult, if_neg h, hrem]
  exact BitVec.ofInt_toInt

theorem mdiResult_of_eq_zero {y : Word} (h : y = 0) (x : Word) : mdiResult x y = 0 := if_pos h

theorem exec_dvi (a b : Operand) (s : State) : exec (.dvi a b) s = execDvi a b s := rfl

theorem exec_mdi (a b : Operand) (s : State) : exec (.mdi a b) s = execMdi a b s := rfl

/-- Settles O40: by cases on whether the divisor is zero. -/
theorem signedDivisions : Obligations.SignedDivisions := by
  intro a b s r x y
  rw [exec_dvi, exec_mdi]
  refine ⟨fun hy => ⟨?dvi, ?mdi⟩, fun hy => ⟨?dviZero, ?mdiZero⟩,
    fun ha => ⟨encodesTo_basic 0x10 rfl rfl ha, encodesTo_basic 0x12 rfl rfl ha⟩⟩
  case dvi => exact basicWriteEx_eq_next (dviEx_of_ne_zero hy)
  case mdi => exact basicWrite_eq_next (mdiResult_of_ne_zero hy)
  case dviZero => exact basicWriteEx_eq_next (dviEx_of_eq_zero hy x)
  case mdiZero => exact basicWrite_eq_next (mdiResult_of_eq_zero hy x)

/-! ### Shifts -/

theorem shrEx_eq (x y : Word) :
    shrEx x y = ⟨x >>> y.toNat, ((x ++ 0#16) >>> y.toNat).extractLsb' 0 16⟩ := by
  have hvalue : BitVec.ofNat 16 (x.toNat >>> y.toNat) = x >>> y.toNat := by
    apply BitVec.eq_of_toNat_eq
    rw [BitVec.toNat_ofNat, BitVec.toNat_ushiftRight]
    exact Nat.mod_eq_of_lt (Nat.lt_of_le_of_lt (Nat.shiftRight_le _ _) x.isLt)
  have hex : BitVec.ofNat 16 ((x.toNat * 65536) >>> y.toNat) = ((x ++ 0#16) >>> y.toNat).extractLsb' 0 16 := by
    apply BitVec.eq_of_toNat_eq
    rw [BitVec.toNat_ofNat, BitVec.extractLsb'_toNat, BitVec.toNat_ushiftRight, toNat_append_zero, Nat.shiftRight_zero]
  rw [shrEx, hvalue, hex]

theorem asrEx_eq (x y : Word) :
    asrEx x y = ⟨x.sshiftRight y.toNat, ((x ++ 0#16) >>> y.toNat).extractLsb' 0 16⟩ := by
  have hex : BitVec.ofNat 16 ((x ++ 0#16).toNat >>> y.toNat) = ((x ++ 0#16) >>> y.toNat).extractLsb' 0 16 := by
    apply BitVec.eq_of_toNat_eq
    rw [BitVec.toNat_ofNat, BitVec.extractLsb'_toNat, BitVec.toNat_ushiftRight, Nat.shiftRight_zero]
  rw [asrEx, u32_s16_mul, hex]
  rfl

theorem shlEx_eq (x y : Word) :
    shlEx x y = ⟨x <<< y.toNat, ((0#16 ++ x) <<< y.toNat).extractLsb' 16 16⟩ := by
  have hx : (0#16 ++ x).toNat = x.toNat := by rw [toNat_append_eq_add]; simp
  have hvalue : BitVec.ofNat 16 (x.toNat <<< y.toNat) = x <<< y.toNat := by
    apply BitVec.eq_of_toNat_eq
    rw [BitVec.toNat_ofNat, BitVec.toNat_shiftLeft]
  have hex : BitVec.ofNat 16 ((x.toNat <<< y.toNat) >>> 16) = ((0#16 ++ x) <<< y.toNat).extractLsb' 16 16 := by
    apply BitVec.eq_of_toNat_eq
    rw [BitVec.toNat_ofNat, BitVec.extractLsb'_toNat, BitVec.toNat_shiftLeft, hx]
    simp only [Nat.shiftRight_eq_div_pow]
    omega
  rw [shlEx, hvalue, hex]

theorem exec_shr (a b : Operand) (s : State) : exec (.shr a b) s = execShr a b s := rfl

theorem exec_asr (a b : Operand) (s : State) : exec (.asr a b) s = execAsr a b s := rfl

theorem exec_shl (a b : Operand) (s : State) : exec (.shl a b) s = execShl a b s := rfl

/-- Settles O42: the exact shifts are those of the words, and what they shift out is a shift of 32 bits. -/
theorem shifts : Obligations.Shifts := by
  intro a b s r x n
  refine ⟨?shr, ?asr, ?shl, fun ha => ⟨encodesTo_basic 0x16 rfl rfl ha, encodesTo_basic 0x17 rfl rfl ha,
    encodesTo_basic 0x18 rfl rfl ha⟩⟩
  case shr => rw [exec_shr]; exact basicWriteEx_eq_next (shrEx_eq x _)
  case asr => rw [exec_asr]; exact basicWriteEx_eq_next (asrEx_eq x _)
  case shl => rw [exec_shl]; exact basicWriteEx_eq_next (shlEx_eq x _)

/-! ### Sums with EX -/

theorem u32_add (t v : Int) : u32 (t + v) = u32 t + u32 v := BitVec.ofInt_add t v

theorem u32_sub (t v : Int) : u32 (t - v) = u32 t - u32 v := by
  rw [Int.sub_eq_add_neg, u32_add, BitVec.sub_eq_add_neg]
  exact congrArg (u32 t + ·) BitVec.ofInt_neg

theorem adxEx_eq (x y e : Word) :
    adxEx x y e = ⟨(x.zeroExtend 32 + y.zeroExtend 32 + e.zeroExtend 32).extractLsb' 0 16,
      (x.zeroExtend 32 + y.zeroExtend 32 + e.zeroExtend 32).extractLsb' 16 16⟩ := by
  rw [adxEx, splitExact_eq_halves, u32_add, u32_add, u32_uInt, u32_uInt, u32_uInt]

theorem sbxEx_eq (x y e : Word) :
    sbxEx x y e = ⟨(x.zeroExtend 32 - y.zeroExtend 32 + e.zeroExtend 32).extractLsb' 0 16,
      (x.zeroExtend 32 - y.zeroExtend 32 + e.zeroExtend 32).extractLsb' 16 16⟩ := by
  rw [sbxEx, splitExact_eq_halves, u32_add, u32_sub, u32_uInt, u32_uInt, u32_uInt]

theorem exec_adx (a b : Operand) (s : State) : exec (.adx a b) s = execAdx a b s := rfl

theorem exec_sbx (a b : Operand) (s : State) : exec (.sbx a b) s = execSbx a b s := rfl

/-- Settles O43: the 32-bit forms of the exact sums are the sums of the extended words. -/
theorem extendedAddAndSub : Obligations.ExtendedAddAndSub := by
  intro a b s r x y t u
  have hex : r.state.ex = s.ex := resolve2_ex a b s
  refine ⟨?adx, ?sbx, fun ha => ⟨encodesTo_basic 0x1a rfl rfl ha, encodesTo_basic 0x1b rfl rfl ha⟩⟩
  case adx =>
    rw [exec_adx]
    refine basicWriteEx_eq_next ?_
    rw [adxEx_eq, hex]
  case sbx =>
    rw [exec_sbx]
    refine basicWriteEx_eq_next ?_
    rw [sbxEx_eq, hex]

end Sys2Proof.Proofs

/-! The skip of a failed conditional (rule R171): its loop ends within as many instructions as PC has values, or
never. -/

namespace Sys2Proof.Proofs

open Sys2Proof.Machine

/-! ### Where a loop over the addresses comes to -/

/-- A step from address to address that is taken as often as there are addresses ends at one it has passed. -/
theorem exists_iterate_eq (f : Word → Word) (p : Word) : ∃ k < 2 ^ 16, f^[k] p = f^[2 ^ 16] p := by
  obtain ⟨i, j, hne, heq⟩ := Fintype.exists_ne_map_eq_of_card_lt
    (fun k : Fin (2 ^ 16 + 1) => (f^[k.val] p).toFin)
    (by rw [Fintype.card_fin, Fintype.card_fin]; exact Nat.lt_succ_self _)
  wlog hlt : i < j generalizing i j
  · exact this j i hne.symm heq.symm (lt_of_le_of_ne (not_lt.mp hlt) hne.symm)
  have hij : f^[i.val] p = f^[j.val] p := BitVec.eq_of_toFin_eq heq
  have hi : i.val < j.val := hlt
  have hj : j.val ≤ 2 ^ 16 := Nat.le_of_lt_succ j.isLt
  refine ⟨2 ^ 16 - j.val + i.val, by omega, ?_⟩
  rw [Function.iterate_add_apply, hij, ← Function.iterate_add_apply, Nat.sub_add_cancel hj]

/-! ### The loop as steps of PC -/

/-- What a fetch at another PC finds: it reads RAM in the current segment, and nothing else of the machine. -/
def fetchAt (s : State) (p : Word) : Except DecodeError Instr := State.fetch { s with pc := p }

/-- A skip goes on over the instruction at `p`. -/
def PassedOver (s : State) (p : Word) : Prop := ∃ i, fetchAt s p = .ok i ∧ i.isConditional = true

/-- PC past the instruction at `p`. -/
def pcPast (s : State) (p : Word) : Word :=
  match fetchAt s p with
  | .ok i => p + BitVec.ofNat 16 i.length
  | .error _ => p

/-- The machine past one instruction of a skip. -/
def skipped (s : State) (i : Instr) : State :=
  { s with pc := s.pc + BitVec.ofNat 16 i.length, cycles := s.cycles + 1 }

theorem fetchAt_pc (s : State) : fetchAt s s.pc = s.fetch := rfl

theorem pcPast_of_fetch {s : State} {i : Instr} (h : s.fetch = .ok i) : pcPast s s.pc = (skipped s i).pc := by
  rw [pcPast, fetchAt_pc, h]
  rfl

theorem passedOver_of_fetch {s : State} {i : Instr} (h : s.fetch = .ok i) (hc : i.isConditional = true) :
    PassedOver s s.pc := ⟨i, h, hc⟩

section
variable {s : State}

theorem skipLoop_of_error {e : DecodeError} (h : s.fetch = .error e) (n : Nat) :
    skipLoop (n + 1) s = .fault (s.faultOf e) := by
  rw [skipLoop_succ, h]

theorem skipLoop_of_other {i : Instr} (h : s.fetch = .ok i) (hc : i.isConditional = false) (n : Nat) :
    skipLoop (n + 1) s = .next (skipped s i) := by
  rw [skipLoop_succ, h]
  dsimp only
  rw [hc]
  rfl

theorem skipLoop_of_conditional {i : Instr} (h : s.fetch = .ok i) (hc : i.isConditional = true) (n : Nat) :
    skipLoop (n + 1) s = skipLoop n (skipped s i) := by
  rw [skipLoop_succ, h]
  dsimp only
  rw [hc]
  rfl

end

/-- The loop runs out of its bound exactly where it would go on over every instruction so far. -/
theorem skipLoop_eq_endless_iff (n : Nat) (s : State) :
    skipLoop n s = .fault .endlessSkip ↔ ∀ k < n, PassedOver s ((pcPast s)^[k] s.pc) := by
  induction n generalizing s with
  | zero => exact iff_of_true rfl fun k hk => absurd hk (Nat.not_lt_zero k)
  | succ n ih =>
    rw [Nat.forall_lt_succ_left]
    simp only [Function.iterate_zero, id_eq, Function.iterate_succ_apply]
    cases hf : s.fetch with
    | error e =>
      rw [skipLoop_of_error hf]
      refine iff_of_false (by cases e <;> simp [State.faultOf]) ?_
      rintro ⟨⟨i, hi, -⟩, -⟩
      rw [fetchAt_pc, hf] at hi
      cases hi
    | ok i =>
      cases hc : i.isConditional with
      | false =>
        rw [skipLoop_of_other hf hc]
        refine iff_of_false (by simp) ?_
        rintro ⟨⟨j, hj, hjc⟩, -⟩
        rw [fetchAt_pc, hf] at hj
        cases hj
        rw [hc] at hjc
        cases hjc
      | true =>
        rw [skipLoop_of_conditional hf hc, ih (skipped s i), pcPast_of_fetch hf]
        exact ⟨fun h => ⟨passedOver_of_fetch hf hc, h⟩, And.right⟩

/-- A loop that ends within its bound ends so under the next one. -/
theorem skipLoop_succ_eq {n : Nat} {s : State} (h : skipLoop n s ≠ .fault .endlessSkip) :
    skipLoop (n + 1) s = skipLoop n s := by
  induction n generalizing s with
  | zero => exact absurd rfl h
  | succ n ih =>
    cases hf : s.fetch with
    | error e => rw [skipLoop_of_error hf, skipLoop_of_error hf]
    | ok i =>
      cases hc : i.isConditional with
      | false => rw [skipLoop_of_other hf hc, skipLoop_of_other hf hc]
      | true =>
        rw [skipLoop_of_conditional hf hc] at h
        rw [skipLoop_of_conditional hf hc, skipLoop_of_conditional hf hc (n := n), ih h]

/-- Past a conditional the loop has as far to go as from a fresh start: were its bound one too small, it would have
passed over every address, and would go on for ever (log entry 9). -/
theorem skip_of_conditional {s : State} {i : Instr} (hf : s.fetch = .ok i) (hc : i.isConditional = true) :
    s.skip = (skipped s i).skip := by
  obtain ⟨m, hm⟩ : ∃ m, 2 ^ 16 = m + 1 := ⟨2 ^ 16 - 1, rfl⟩
  have hfuel : skipFuel = m + 1 := hm
  rw [State.skip, State.skip, hfuel, skipLoop_of_conditional hf hc]
  by_cases hend : skipLoop m (skipped s i) = .fault .endlessSkip
  · have hpassed : ∀ k < m + 1, PassedOver s ((pcPast s)^[k] s.pc) :=
      (skipLoop_eq_endless_iff (m + 1) s).mp (by rw [skipLoop_of_conditional hf hc, hend])
    obtain ⟨k, hk, heq⟩ := exists_iterate_eq (pcPast s) s.pc
    rw [hm] at hk heq
    have hlast : PassedOver s ((pcPast s)^[m + 1] s.pc) := heq ▸ hpassed k hk
    have hall : ∀ k < m + 2, PassedOver s ((pcPast s)^[k] s.pc) := fun k hk =>
      (Nat.lt_succ_iff_lt_or_eq.mp hk).elim (hpassed k) fun e => e ▸ hlast
    have hendless := (skipLoop_eq_endless_iff (m + 2) s).mpr hall
    rw [hend, ← hendless, skipLoop_of_conditional hf hc]
  · exact (skipLoop_succ_eq hend).symm

/-- Settles O45: one turn of the loop for each case of the fetch. -/
theorem skipPassesOverConditionals : Obligations.SkipPassesOverConditionals := by
  intro s
  obtain ⟨m, hfuel⟩ : ∃ m, skipFuel = m + 1 := ⟨skipFuel - 1, rfl⟩
  refine ⟨fun i hf hc => ?_, fun i => skip_of_conditional, fun e hf => ?_⟩
  · rw [State.skip, hfuel]
    exact skipLoop_of_other hf hc m
  · rw [State.skip, hfuel]
    exact skipLoop_of_error hf m

end Sys2Proof.Proofs

/-! The Special and Binary opcodes that call, return and move (44_special.md, 45_binary.md). -/

namespace Sys2Proof.Proofs

open Sys2Proof.Machine

/-! ### Pushes, and a jump after them -/

/-- Pushes in a row change SP and RAM, and nothing else (rule R29). -/
theorem pushes_frame (ws : List Word) (s : State) :
    ws.foldl State.push s =
      { s with sp := s.sp - BitVec.ofNat 16 ws.length, mem := (ws.foldl State.push s).mem } := by
  induction ws generalizing s with
  | nil =>
    have hsp : s.sp - BitVec.ofNat 16 0 = s.sp := BitVec.sub_zero s.sp
    exact congrArg (fun x => { s with sp := x }) hsp.symm
  | cons w rest ih =>
    have hsp : s.sp - 1 - BitVec.ofNat 16 rest.length = s.sp - BitVec.ofNat 16 (rest.length + 1) := by
      rw [BitVec.sub_sub, BitVec.add_comm, BitVec.ofNat_add]
      rfl
    rw [List.foldl_cons, ih (s.push w), List.length_cons, ← hsp]
    rfl

/-- The stack after pushes in a row, read from SP up, gives the words back in reverse. -/
theorem readWord_pushes_up {ws : List Word} (s : State) (hlen : ws.length ≤ 65536) {k : Nat} (hk : k < ws.length) :
    (ws.foldl State.push s).readWord s.seg (s.sp - BitVec.ofNat 16 ws.length + BitVec.ofNat 16 k) =
      ws[ws.length - 1 - k] := by
  have haddr : s.sp - BitVec.ofNat 16 ws.length + BitVec.ofNat 16 k =
      s.sp - 1 - BitVec.ofNat 16 (ws.length - 1 - k) := by
    have hsum : BitVec.ofNat 16 ws.length = 1 + BitVec.ofNat 16 (ws.length - 1 - k) + BitVec.ofNat 16 k := by
      rw [show (1 : Word) = BitVec.ofNat 16 1 from rfl, ← BitVec.ofNat_add, ← BitVec.ofNat_add]
      congr 1
      omega
    rw [hsum]
    ring
  rw [haddr]
  exact readWord_pushes hlen (by omega)

/-- The machine after a call: words pushed in the current segment, then a jump (rule R270). -/
def pushAndJump (ws : List Word) (v : Word) (s : State) : State := { ws.foldl State.push s with pc := v }

theorem pushAndJump_frame (ws : List Word) (v : Word) (s : State) :
    pushAndJump ws v s =
      { s with pc := v, sp := s.sp - BitVec.ofNat 16 ws.length, mem := (ws.foldl State.push s).mem } := by
  rw [pushAndJump, pushes_frame]

theorem readWord_pushAndJump (ws : List Word) (v : Word) (s : State) (g : Seg) (x : Word) :
    (pushAndJump ws v s).readWord g x = (ws.foldl State.push s).readWord g x := rfl

theorem pushAndJump_sameData (ws : List Word) (v : Word) (s : State) : SameData s (pushAndJump ws v s) := by
  rw [pushAndJump_frame]
  exact ⟨fun r => by cases r <;> rfl, fun f => by cases f <;> rfl, rfl⟩

theorem pushAndJump_sameControl (ws : List Word) (v : Word) (s : State) : SameControl s (pushAndJump ws v s) := by
  rw [pushAndJump_frame]
  exact ⟨rfl, rfl, rfl, rfl, rfl, rfl⟩

/-! ### JSR and CALL -/

theorem exec_jsr (c : Operand) (s : State) :
    let r := resolve false c s
    exec (.jsr c) s = .next (pushAndJump [s.pc] (readW r.place r.state) r.state) := by
  intro r
  rw [← resolve_pc false c s]
  rfl

/-- The words that CALL pushes, in the order of the pushes (rule R272). -/
def callFrame (s : State) : List Word := s.pc :: pushaFrame s

theorem exec_call (c : Operand) (s : State) :
    let r := resolve false c s
    exec (.call c) s = .next (pushAndJump (callFrame s) (readW r.place r.state) r.state) := by
  intro r
  have hframe : callFrame r.state = callFrame s := by
    simp only [callFrame, pushaFrame, r, resolve_state]
  rw [← hframe]
  rfl

theorem sameData_trans {s t u : State} (h : SameData s t) (h' : SameData t u) : SameData s u := by
  obtain ⟨hreg, hfreg, hex⟩ := h
  obtain ⟨hreg', hfreg', hex'⟩ := h'
  exact ⟨fun r => (hreg' r).trans (hreg r), fun f => (hfreg' f).trans (hfreg f), hex'.trans hex⟩

theorem resolve_sameData (first : Bool) (o : Operand) (s : State) : SameData s (resolve first o s).state :=
  ⟨fun r => by simp, fun f => by simp, by simp⟩

/-- Settles O54: each call is pushes in a row and a jump, from the state its parameter was read in. -/
theorem callsPush : Obligations.CallsPush := by
  intro c s r v frame
  have hseg : r.state.seg = s.seg := resolve_seg false c s
  have hread : ∀ g x, r.state.readWord g x = s.readWord g x := resolve_readWord false c s
  have hdata : ∀ ws, SameData s (pushAndJump ws v r.state) := fun ws =>
    sameData_trans (resolve_sameData false c s) (pushAndJump_sameData ws v r.state)
  have hcontrol : ∀ ws, SameControl s (pushAndJump ws v r.state) := fun ws =>
    sameControl_trans (resolve_ordinary false c s).control (pushAndJump_sameControl ws v r.state)
  have hpushed : ∀ ws : List Word, ws.length ≤ 65536 → ∀ k, ∀ h : k < ws.length,
      (pushAndJump ws v r.state).readWord s.seg (r.state.sp - 1 - BitVec.ofNat 16 k) = ws[k] := by
    intro ws hlen k hk
    rw [← hseg]
    exact readWord_pushes hlen hk
  have hothers : ∀ (ws : List Word) g x, ¬ Pushed r.state ws.length g x →
      (pushAndJump ws v r.state).readWord g x = s.readWord g x := fun ws g x h =>
    (readWord_pushes_of_not_pushed h).trans (hread g x)
  refine ⟨⟨encodesTo_special 0x00 rfl rfl, instrCycles_singleton rfl rfl, encodesTo_special 0x01 rfl rfl,
    instrCycles_singleton rfl rfl⟩,
    ⟨_, exec_jsr c s, rfl, rfl, ?jsrPushed, hdata _, hcontrol _, fun g x h => ?jsrOthers⟩,
    ⟨_, exec_call c s, rfl, ?callSp, hdata _, hcontrol _, hpushed (callFrame s) (by decide : 9 ≤ 65536),
      fun g x h => ?callOthers⟩⟩
  case jsrPushed =>
    have hzero : r.state.sp - 1 - BitVec.ofNat 16 0 = r.state.sp - 1 := BitVec.sub_zero _
    have h := hpushed [s.pc] (by decide : 1 ≤ 65536) 0 (by decide : 0 < 1)
    rwa [hzero] at h
  case jsrOthers =>
    refine hothers [s.pc] g x ?_
    rintro ⟨hg, k, hk, hx⟩
    obtain rfl : k = 0 := Nat.lt_one_iff.mp hk
    exact h ⟨hg.trans hseg, hx.trans (BitVec.sub_zero _)⟩
  case callSp => rw [pushAndJump_frame]; rfl
  case callOthers => exact hothers (callFrame s) g x fun hp => h ⟨hp.1.trans hseg, hp.2⟩

/-! ### MOVH, MOVL and MOVT -/

/-- What a call into a segment does to the machine (rules R273 to R276). -/
theorem moveCall_spec (s : State) (g : Seg) (v : Word) :
    let t := s.moveCall g v
    t.seg = g ∧ t.pc = v ∧ t.sp = s.sp - 2 ∧ t.readWord g (s.sp - 1) = s.pc ∧
      t.readWord g (s.sp - 2) = Seg.flag s.seg ∧ SameData s t ∧ SameControl s { t with seg := s.seg } ∧
      ∀ g' x, ¬ (g' = g ∧ (x = s.sp - 1 ∨ x = s.sp - 2)) → t.readWord g' x = s.readWord g' x := by
  intro t
  have hne : s.sp - 1 ≠ s.sp - 2 := by bv_omega
  refine ⟨rfl, rfl, sub_one_sub_one s.sp, ?_, ?_, ⟨fun r => by cases r <;> rfl, fun f => by cases f <;> rfl, rfl⟩,
    ⟨rfl, rfl, rfl, rfl, rfl, rfl⟩, fun g' x h => ?_⟩
  · rw [readWord_moveCall, if_neg (fun h => hne h.2), if_pos ⟨rfl, rfl⟩]
  · rw [readWord_moveCall, if_pos ⟨rfl, rfl⟩]
  · rw [readWord_moveCall, if_neg (fun e => h ⟨e.1, .inr e.2⟩), if_neg (fun e => h ⟨e.1, .inl e.2⟩)]

/-- Settles O55: the three opcodes make one call, each into its own target. -/
theorem segmentCalls : Obligations.SegmentCalls := by
  intro c s r moves
  have hcall : ∀ (i : Instr) (o : BitVec 6) (target : Seg), encode i = encodeSpecial o c → i.operands = [c] →
      opcodeCycles i = 4 → exec i s = .next (r.state.moveCall target (readW r.place r.state)) →
      moves i (1#4 ++ o ++ 0#6) target := by
    intro i o target henc hops hcost hexec
    obtain ⟨hseg, hpc, hsp, hpushed, hflag, hdata, hcontrol, hothers⟩ :=
      moveCall_spec r.state target (readW r.place r.state)
    have hrpc : r.state.pc = s.pc := resolve_pc false c s
    have hrseg : r.state.seg = s.seg := resolve_seg false c s
    rw [hrpc] at hpushed
    rw [hrseg] at hflag hcontrol
    exact ⟨encodesTo_special o henc hops, instrCycles_singleton hops hcost, _, hexec, hseg, hpc, hsp, hpushed,
      hflag.trans (by cases s.seg <;> rfl), sameData_trans (resolve_sameData false c s) hdata,
      sameControl_trans (resolve_ordinary false c s).control hcontrol,
      fun g x h => (hothers g x h).trans (resolve_readWord false c s g x)⟩
  refine ⟨hcall (.movh c) 0x04 .high rfl rfl rfl rfl, hcall (.movl c) 0x05 .low rfl rfl rfl rfl,
    hcall (.movt c) 0x06 _ rfl rfl rfl ?_⟩
  have hother : Seg.other r.state.seg = (match s.seg with | .low => .high | .high => .low) := by
    rw [show r.state.seg = s.seg from resolve_seg false c s]
    cases s.seg <;> rfl
  exact congrArg (fun g => Host.Outcome.next (r.state.moveCall g (readW r.place r.state))) hother

/-! ### Moves of a word, and the devices -/

/-- Settles O56: each is a read or a write of its one parameter. -/
theorem pointerAndCountMoves : Obligations.PointerAndCountMoves := by
  intro c s r v w
  have hia : w.state.ia = s.ia := resolve_ia true c s
  refine ⟨⟨encodesTo_special 0x0b rfl rfl, encodesTo_special 0x0b rfl rfl, encodesTo_special 0x0c rfl rfl,
      encodesTo_special 0x0f rfl rfl, encodesTo_special 0x10 rfl rfl, encodesTo_special 0x16 rfl rfl⟩,
    ⟨instrCycles_singleton rfl rfl, instrCycles_singleton rfl rfl, instrCycles_singleton rfl rfl,
      instrCycles_singleton rfl rfl, instrCycles_singleton rfl rfl⟩, rfl, rfl, rfl, rfl, ?_, rfl⟩
  rw [← hia]
  rfl

/-- What HWQ puts into the registers (rule R293). -/
theorem queryDevice_values (s : State) (v : Word) :
    let here := v.toNat < Config.deviceCount.toNat
    (s.queryDevice v).dreg .dx = (if here then Config.deviceId v else 0) ∧
      (s.queryDevice v).dreg .dy = (if here then Config.deviceManufacturer v else 0) ∧
      (s.queryDevice v).c = if here then Config.deviceVersion v else 0 := by
  intro here
  by_cases h : here
  · have hc : connected v = true := decide_eq_true h
    rw [State.queryDevice, hc, if_pos h, if_pos h, if_pos h]
    exact ⟨dword_hi16_lo16 _, dword_hi16_lo16 _, rfl⟩
  · have hc : connected v = false := decide_eq_false h
    rw [State.queryDevice, hc, if_neg h, if_neg h, if_neg h]
    exact ⟨dword_hi16_lo16 0, dword_hi16_lo16 0, rfl⟩

/-- Messages change the status by an overflow alone (rule R334). -/
theorem enqueueAll_status (ms : List Word) (s : State) :
    (s.enqueueAll ms).status = s.status ∨ (s.enqueueAll ms).status = .onFire .queueOverflow := by
  induction ms generalizing s with
  | nil => exact .inl rfl
  | cons m rest ih =>
    unfold State.enqueueAll
    cases hs : s.status with
    | onFire r => exact .inl hs
    | running =>
      by_cases hlt : s.queue.length < 256
      · have h := ih (s.enqueue m)
        rwa [show (s.enqueue m).status = .running by rw [enqueue_of_lt hlt, hs]] at h
      · have h := ih (s.enqueue m)
        rw [show (s.enqueue m).status = .onFire .queueOverflow by rw [enqueue_of_ge (Nat.not_lt.mp hlt)], or_self] at h
        exact .inr h

/-- What HWI's action does to the queue and the status (rules R296, R353). -/
theorem interruptDevice_queue (s : State) (v : Word) :
    (∃ sent, (s.interruptDevice v).queue = s.queue ++ sent) ∧
      ((s.interruptDevice v).status = s.status ∨ (s.interruptDevice v).status = .onFire .queueOverflow) := by
  rcases interruptDevice_cases s v with h | ⟨r, h⟩
  · rw [h]
    exact ⟨⟨[], (List.append_nil _).symm⟩, .inl rfl⟩
  · rw [h, State.react, storeAll_frame]
    exact ⟨enqueueAll_appends _ _, enqueueAll_status _ _⟩

/-- Settles O57: HWQ's action by whether the device is there, HWI's by its bounds. -/
theorem deviceOpcodes : Obligations.DeviceOpcodes := by
  intro c s r v here
  obtain ⟨hid, hmaker, hversion⟩ := queryDevice_values r.state v
  obtain ⟨hseg, hiaq, harrivals, -⟩ := interruptDevice_frame r.state v
  obtain ⟨hqueue, hstatus⟩ := interruptDevice_queue r.state v
  rw [show r.state.queue = s.queue from resolve_queue false c s] at hqueue
  rw [show r.state.status = s.status from resolve_status false c s] at hstatus
  refine ⟨⟨encodesTo_special 0x17 rfl rfl, encodesTo_special 0x18 rfl rfl⟩,
    ⟨r.state.queryDevice v, rfl, hid, hmaker, hversion, queryDevice_frame r.state v⟩,
    ⟨r.state.interruptDevice v, rfl, fun habsent => ?_, hseg.trans (resolve_seg false c s),
      hiaq.trans (resolve_iaqOn false c s), harrivals.trans (resolve_arrivals false c s), hqueue, hstatus⟩⟩
  have hc : connected v = false := decide_eq_false habsent
  rw [State.interruptDevice, hc]
  rfl

/-! ### POPSG, HNG and the returns -/

theorem exec_popsg (s : State) :
    exec .popsg s = .next { s with
      pc := s.readWord s.seg (s.sp + 1), sp := s.sp + 2, seg := Seg.ofFlag (s.readWord s.seg s.sp) } := by
  have hsp : s.sp + 1 + 1 = s.sp + 2 := BitVec.add_assoc s.sp 1 1
  rw [← hsp]
  rfl

/-- Settles O59: POPSG is written out, and HNG comes back to itself. -/
theorem popsgAndHng : Obligations.PopsgAndHng := by
  intro s
  refine ⟨⟨encodesTo_binary 0x004 rfl rfl, encodesTo_binary 0x008 rfl rfl⟩, exec_popsg s, rfl, fun hs ha hq hw => ?_⟩
  have hb := boundary_idle ha hq
  rw [step_hng hs (by rwa [hb]) (by rwa [hb]), hb]

theorem ofFlag_flag (g : Seg) : Seg.ofFlag (Seg.flag g) = g := by cases g <;> decide

/-- POPSG takes back a call into a segment, from a routine that kept segment, SP and the two words. -/
theorem popsg_after_moveCall {s u : State} {g : Seg} (hseg : u.seg = g) (hsp : u.sp = s.sp - 2)
    (hflag : u.readWord g (s.sp - 2) = Seg.flag s.seg) (hpc : u.readWord g (s.sp - 1) = s.pc) :
    exec .popsg u = .next { u with seg := s.seg, pc := s.pc, sp := s.sp } := by
  have hup : s.sp - 2 + 1 = s.sp - 1 := by bv_omega
  have htop : s.sp - 2 + 2 = s.sp := BitVec.sub_add_cancel s.sp 2
  rw [exec_popsg, hseg, hsp, hup, htop, hflag, hpc, ofFlag_flag]

/-- POPA takes back the eight words of PUSHA from wherever SP stands above them (rule R317). -/
theorem popAll_of_frame {s u : State}
    (h : ∀ k, ∀ hk : k < (pushaFrame s).length,
      u.readWord u.seg (u.sp + BitVec.ofNat 16 k) = (pushaFrame s)[(pushaFrame s).length - 1 - k]) :
    u.popAll = { u with
      a := s.a, b := s.b, c := s.c, i := s.i, xh := s.xh, xl := s.xl, yh := s.yh, yl := s.yl, sp := u.sp + 8 } := by
  have hpop := popAll_eq u
  dsimp only at hpop
  rw [hpop, h 0 (by decide : 0 < 8), h 1 (by decide : 1 < 8), h 2 (by decide : 2 < 8), h 3 (by decide : 3 < 8),
    h 4 (by decide : 4 < 8), h 5 (by decide : 5 < 8), h 6 (by decide : 6 < 8), h 7 (by decide : 7 < 8)]
  rfl

/-- `SET PC, POP` is a return: PC takes the word at SP (rule R394). -/
theorem exec_set_pc_pop (s : State) :
    exec (.set ⟨false, .pc⟩ ⟨false, .stack⟩) s = .next { s with pc := s.readWord s.seg s.sp, sp := s.sp + 1 } := rfl

/-- Settles O60: the words pushed are read back from SP up, and SP comes back to where it stood. -/
theorem returnsUndoCalls : Obligations.ReturnsUndoCalls := by
  refine ⟨fun c i s t u hi h hseg hsp hframe => ?moves, fun s => ?pusha, fun c s t u h hseg hsp hframe => ?call⟩
  case moves =>
    obtain ⟨g, hexec⟩ := exec_of_callsSegment hi s
    rw [hexec] at h
    cases h
    obtain ⟨-, -, htsp, hpushed, hflag, -⟩ :=
      moveCall_spec (resolve false c s).state g (readW (resolve false c s).place (resolve false c s).state)
    have hup : (resolve false c s).state.sp - 2 + 1 = (resolve false c s).state.sp - 1 := by bv_omega
    have hu := popsg_after_moveCall (hseg.trans rfl) (hsp.trans htsp)
      ((hframe _ (.inl htsp.symm)).trans hflag) ((hframe _ (.inr (by rw [htsp, hup]))).trans hpushed)
    rw [hu, resolve_seg, resolve_pc]
  case pusha =>
    have h8 : s.sp - 8 + 8 = s.sp := BitVec.sub_add_cancel s.sp 8
    have hseg : s.pushAll.seg = s.seg := by rw [pushAll_frame]
    have hsp : s.pushAll.sp = s.sp - 8 := by rw [pushAll_frame]
    have hpop := popAll_of_frame (s := s) (u := s.pushAll) fun k hk => by
      rw [hseg, hsp, pushAll_eq_foldl]
      exact readWord_pushes_up (ws := pushaFrame s) s (by decide : 8 ≤ 65536) hk
    refine ⟨_, exec_pusha s, ?_⟩
    rw [exec_popa, hpop, pushAll_frame, h8]
  case call =>
    rw [exec_call] at h
    cases h
    have htsp : u.sp = (resolve false c s).state.sp - 9 := hsp.trans (by rw [pushAndJump_frame]; rfl)
    have hword : ∀ k, ∀ hk : k < (callFrame s).length,
        u.readWord u.seg (u.sp + BitVec.ofNat 16 k) = (callFrame s)[(callFrame s).length - 1 - k] := by
      intro k hk
      rw [hseg, hsp, hframe k hk, readWord_pushAndJump, pushAndJump_frame]
      exact readWord_pushes_up (ws := callFrame s) (resolve false c s).state (by decide : 9 ≤ 65536) hk
    have hpop := popAll_of_frame (s := s) (u := u) fun k hk => by
      have hk8 : k < 8 := hk
      rw [hword k (Nat.lt_succ_of_lt hk)]
      interval_cases k <;> rfl
    have hpc : u.readWord u.seg (u.sp + 8) = s.pc := hword 8 (by decide : 8 < 9)
    have hback : u.sp + 8 + 1 = (resolve false c s).state.sp := by
      rw [htsp]
      bv_omega
    refine ⟨_, exec_popa u, fun r => ?_, ?_⟩
    · rw [hpop]
      cases r <;> rfl
    · rw [exec_set_pc_pop, hpop, ← hpc, ← hback]
      rfl

end Sys2Proof.Proofs

/-! Binary32 patterns as numbers (rules R23, R142, R143): which number a pattern has, the numbers the format holds, the
integer part, and the integers as floats. -/

namespace Sys2Proof.Proofs

open Sys2Proof.Machine

/-! ### The number of a pattern -/

theorem hasValue_iff_of_finite {p : Dword} {neg : Bool} {n : Nat} (h : floatValue p = .finite neg n) (q : ℚ) :
    HasValue p q ↔ q = signFactor neg * n / 2 ^ 149 := by
  constructor
  · rintro ⟨neg', n', h', hq⟩
    cases h.symm.trans h'
    rw [hq, signedUnits_eq]
  · intro hq
    exact ⟨neg, n, h, by rw [hq, signedUnits_eq]⟩

theorem not_hasValue_of_nan {p : Dword} (h : floatValue p = .nan) (q : ℚ) : ¬ HasValue p q := by
  rintro ⟨neg, n, h', _⟩
  cases h.symm.trans h'

theorem not_hasValue_of_infinite {p : Dword} {neg : Bool} (h : floatValue p = .infinite neg) (q : ℚ) :
    ¬ HasValue p q := by
  rintro ⟨neg', n, h', _⟩
  cases h.symm.trans h'

theorem signFactor_ne_zero (neg : Bool) : signFactor neg ≠ 0 := by cases neg <;> simp [signFactor]

/-- A finite pattern is a zero exactly when it counts no unit. -/
theorem value_eq_zero_iff (neg : Bool) (n : Nat) : signFactor neg * n / 2 ^ 149 = (0 : ℚ) ↔ n = 0 := by
  simp [signFactor_ne_zero neg]

theorem hasValue_zero_iff {p : Dword} {neg : Bool} {n : Nat} (h : floatValue p = .finite neg n) :
    HasValue p 0 ↔ n = 0 := by
  rw [hasValue_iff_of_finite h, eq_comm, value_eq_zero_iff]

/-- The test of FDIV and FMOD for a zero divisor (rule R226). -/
theorem isFloatZero_iff (p : Dword) : isFloatZero p = true ↔ HasValue p 0 := by
  rw [isFloatZero, decide_eq_true_iff]
  cases hp : floatValue p with
  | nan => simp [not_hasValue_of_nan hp]
  | infinite neg => simp [not_hasValue_of_infinite hp]
  | finite neg n => cases neg <;> simp [hasValue_zero_iff hp]

/-- Fields side by side are the packed pattern (rule R23). -/
theorem append_eq_packFloat (neg : Bool) (e : BitVec 8) (f : BitVec 23) :
    BitVec.ofBool neg ++ e ++ f = packFloat neg e.toNat f.toNat := by
  simp [packFloat]

/-- Every pattern is packed of a sign, an exponent field and a fraction field. -/
theorem exists_packFloat (p : Dword) : ∃ neg e f, e < 256 ∧ f < 2 ^ 23 ∧ p = packFloat neg e f := by
  have hp := p.isLt
  have he : p.toNat / 2 ^ 23 % 256 < 256 := Nat.mod_lt _ (by norm_num)
  have hf : p.toNat % 2 ^ 23 < 2 ^ 23 := Nat.mod_lt _ (by norm_num)
  refine ⟨decide (2 ^ 31 ≤ p.toNat), _, _, he, hf, BitVec.eq_of_toNat_eq ?_⟩
  rw [packFloat_toNat _ he hf]
  by_cases hs : 2 ^ 31 ≤ p.toNat
  · simp only [hs, decide_true, Bool.toNat_true]
    omega
  · simp only [hs, decide_false, Bool.toNat_false]
    omega

theorem floatValue_zeroOf (neg : Bool) : floatValue (zeroOf neg) = .finite neg 0 := by
  rw [zeroOf, floatValue_packFloat neg (by norm_num) (by norm_num)]
  rfl

theorem hasValue_zeroOf (neg : Bool) : HasValue (zeroOf neg) 0 :=
  (hasValue_zero_iff (floatValue_zeroOf neg)).mpr rfl

/-! ### The numbers the format holds -/

/-- The largest finite number has 24 ones at the spacing 2^253. -/
theorem units_le {p : Dword} {neg : Bool} {n : Nat} (h : floatValue p = .finite neg n) :
    n ≤ 0xffffff * 2 ^ 253 := by
  obtain ⟨m, j, rfl, hm, _, hj⟩ := finite_form h
  exact Nat.mul_le_mul (by omega) (Nat.pow_le_pow_right (by norm_num) hj)

/-- Every finite number is below the least magnitude that rounds to an infinity. -/
theorem abs_lt_of_hasValue {p : Dword} {q : ℚ} (h : HasValue p q) : |q| < (2 ^ 25 - 1) * 2 ^ 103 := by
  obtain ⟨neg, n, hp, rfl⟩ := h
  have hn : (n : ℚ) ≤ 0xffffff * 2 ^ 253 := by exact_mod_cast units_le hp
  have hunit : (0 : ℚ) < 2 ^ 149 := by positivity
  rw [signedUnits_eq, mul_div_assoc, abs_signFactor_mul, abs_of_nonneg (by positivity), div_lt_iff₀ hunit]
  calc (n : ℚ) ≤ 0xffffff * 2 ^ 253 := hn
    _ = (2 ^ 25 - 2) * (2 ^ 103 * 2 ^ 149) := by rw [← pow_add]; norm_num
    _ < (2 ^ 25 - 1) * (2 ^ 103 * 2 ^ 149) := mul_lt_mul_of_pos_right (by norm_num) (by positivity)
    _ = (2 ^ 25 - 1) * 2 ^ 103 * 2 ^ 149 := (mul_assoc _ _ _).symm

/-- A pattern of a number is a rounding of it. -/
theorem isRounding_of_hasValue {p : Dword} {q : ℚ} (h : HasValue p q) : IsRounding q p := by
  rw [IsRounding, if_neg (not_le.mpr (abs_lt_of_hasValue h))]
  refine ⟨q, h, fun p' v' _ => ?_⟩
  rw [sub_self, abs_zero]
  refine ⟨abs_nonneg _, fun hv => .inl ?_⟩
  exact (sub_eq_zero.mp (abs_eq_zero.mp hv.symm)).symm

/-- A rounding of a number that the format holds is exact. -/
theorem hasValue_of_isRounding {p p' : Dword} {q : ℚ} (h : IsRounding q p) (hv : HasValue p' q) : HasValue p q :=
  isRounding_exact h hv (abs_lt_of_hasValue hv)

/-- The format holds a significand of 24 bits at every spacing up to the largest finite number. -/
theorem exists_pattern (neg : Bool) (j : Nat) :
    ∀ {m : Nat}, m ≤ 2 ^ 24 → m * 2 ^ j < 2 ^ 277 → ∃ p, floatValue p = .finite neg (m * 2 ^ j) := by
  induction j with
  | zero => exact fun hm hlt => ⟨_, ((packUnits_spec neg hm (.inl rfl)).1 hlt).1⟩
  | succ j ih =>
    intro m hm hlt
    by_cases hbig : 2 ^ 23 ≤ m
    · exact ⟨_, ((packUnits_spec neg hm (.inr hbig)).1 hlt).1⟩
    · have hshift : m * 2 ^ (j + 1) = m * 2 * 2 ^ j := by ring
      rw [hshift] at hlt ⊢
      exact ih (by omega) hlt

/-- A number of units that the format holds is not changed by the rounding. -/
theorem hasValue_roundUnits {neg : Bool} {m j : Nat} (hm : m ≤ 2 ^ 24) (h : m * 2 ^ j < 2 ^ 277) :
    HasValue (roundUnits neg (m * 2 ^ j) 1) (signFactor neg * (m * 2 ^ j : ℕ) / 2 ^ 149) := by
  obtain ⟨p, hp⟩ := exists_pattern neg j hm h
  have hr := isRounding_roundUnits neg (m * 2 ^ j) (den := 1) one_pos
  rw [Nat.cast_one, div_one] at hr
  exact hasValue_of_isRounding hr ((hasValue_iff_of_finite hp _).mpr rfl)

/-! ### The integer part -/

/-- The fraction dropped, the quotient is the one of the magnitudes, with the sign (rule R142). -/
theorem truncated_signFactor_mul (neg : Bool) (n m : Nat) :
    truncated (signFactor neg * ((n : ℚ) / m)) = signedUnits neg (n / m) := by
  have hpos : (0 : ℚ) ≤ n / m := by positivity
  have hfloor : ⌊(n : ℚ) / m⌋ = ((n / m : ℕ) : ℤ) := by
    rw [Rat.floor_natCast_div_natCast, Int.natCast_div]
  cases neg with
  | false =>
    rw [truncated, signFactor, if_neg Bool.false_ne_true, one_mul, if_pos hpos, hfloor]
    rfl
  | true =>
    rw [truncated, signFactor, if_pos rfl, neg_one_mul, Int.ceil_neg, hfloor]
    split
    case isTrue h =>
      have hzero : (n : ℚ) / m = 0 := le_antisymm (by linarith) hpos
      rw [hzero, Int.floor_zero] at hfloor
      rw [hzero]
      simp [signedUnits, ← hfloor]
    case isFalse => rfl

theorem truncated_intCast (n : Int) : truncated (n : ℚ) = n := by simp [truncated]

/-- The conversion of a finite float (rule R142). -/
theorem floatToInt_of_hasValue {p : Dword} {q : ℚ} (h : HasValue p q) (N : Nat) :
    floatToInt N p = BitVec.ofInt N (truncated q) := by
  obtain ⟨neg, n, hp, rfl⟩ := h
  have htrunc := truncated_signFactor_mul neg n (2 ^ 149)
  rw [signedUnits_eq, mul_div_assoc]
  rw [Nat.cast_pow, Nat.cast_ofNat] at htrunc
  rw [htrunc]
  simp only [floatToInt, hp, Nat.shiftRight_eq_div_pow]

theorem floatToInt_of_not_finite {p : Dword} (h : ∀ q, ¬ HasValue p q) (N : Nat) :
    floatToInt N p = Config.nonFiniteToInt N p := by
  cases hp : floatValue p with
  | nan => simp only [floatToInt, hp]
  | infinite neg => simp only [floatToInt, hp]
  | finite neg n => exact absurd ⟨neg, n, hp, rfl⟩ (h _)

/-! ### The integers as floats -/

/-- The exact number of units that `intToFloat` rounds. -/
theorem signFactor_mul_natAbs (n : Int) : signFactor (decide (n < 0)) * (n.natAbs : ℚ) = n := by
  rw [Nat.cast_natAbs]
  by_cases h : n < 0
  · simp [signFactor, h, abs_of_neg]
  · simp [signFactor, h, abs_of_nonneg (not_lt.mp h)]

theorem intToFloat_of_ne_zero {n : Int} (h : n ≠ 0) :
    intToFloat n = roundUnits (decide (n < 0)) (n.natAbs * 2 ^ 149) 1 := by
  rw [intToFloat, if_neg h, Nat.shiftLeft_eq]

/-- The units of an integer are its value. -/
theorem units_of_int (n : Int) :
    signFactor (decide (n < 0)) * (n.natAbs * 2 ^ 149 : ℕ) / 2 ^ 149 = (n : ℚ) := by
  have hunit : (2 : ℚ) ^ 149 ≠ 0 := by positivity
  rw [Nat.cast_mul, Nat.cast_pow, Nat.cast_ofNat, ← mul_assoc, signFactor_mul_natAbs, mul_div_cancel_right₀ _ hunit]

/-- An integer becomes the nearest float (rule R143). -/
theorem isRounding_intToFloat (n : Int) : IsRounding (n : ℚ) (intToFloat n) := by
  by_cases h : n = 0
  · rw [h, intToFloat, if_pos rfl, Int.cast_zero]
    exact isRounding_of_hasValue (hasValue_zeroOf false)
  · have hr := isRounding_roundUnits (decide (n < 0)) (n.natAbs * 2 ^ 149) (den := 1) one_pos
    rw [Nat.cast_one, div_one, units_of_int] at hr
    rwa [intToFloat_of_ne_zero h]

/-- An integer of at most 24 bits is exact as a float (rule R143). -/
theorem hasValue_intToFloat {n : Int} (h : |n| ≤ 2 ^ 24) : HasValue (intToFloat n) (n : ℚ) := by
  have hm : n.natAbs ≤ 2 ^ 24 := by rw [Int.abs_eq_natAbs] at h; exact_mod_cast h
  have hlt : n.natAbs * 2 ^ 149 < 2 ^ 277 := by
    calc n.natAbs * 2 ^ 149 ≤ 2 ^ 24 * 2 ^ 149 := Nat.mul_le_mul_right _ hm
      _ = 2 ^ 173 := (pow_add _ _ _).symm
      _ < 2 ^ 277 := pow_lt_pow_right₀ (by norm_num) (by norm_num)
  obtain ⟨p, hp⟩ := exists_pattern (decide (n < 0)) 149 hm hlt
  refine hasValue_of_isRounding (isRounding_intToFloat n) ((hasValue_iff_of_finite hp _).mpr ?_)
  rw [units_of_int]

theorem intToFloat_zero : intToFloat 0 = 0 := by decide

/-- An integer of at most 24 bits survives the conversion and back. -/
theorem floatToInt_intToFloat {n : Int} (h : |n| ≤ 2 ^ 24) (N : Nat) :
    floatToInt N (intToFloat n) = BitVec.ofInt N n := by
  rw [floatToInt_of_hasValue (hasValue_intToFloat h), truncated_intCast]

theorem abs_s16_le (w : Word) : |s16 w| ≤ 2 ^ 24 := by
  have := w.le_toInt
  have := w.toInt_lt
  rw [s16, abs_le]
  norm_num at *
  omega

theorem abs_uInt_le (w : Word) : |uInt w| ≤ 2 ^ 24 := by
  have := w.isLt
  rw [uInt, abs_le]
  norm_num at *
  omega

/-! ### The comparisons -/

theorem signedUnits_lt_iff (s t : Bool) (n m : Nat) :
    signedUnits s n < signedUnits t m ↔ (signedUnits s n : ℚ) / 2 ^ 149 < (signedUnits t m : ℚ) / 2 ^ 149 := by
  rw [div_lt_div_iff_of_pos_right (by positivity), Int.cast_lt]

theorem signedUnits_eq_iff (s t : Bool) (n m : Nat) :
    signedUnits s n = signedUnits t m ↔ (signedUnits s n : ℚ) / 2 ^ 149 = (signedUnits t m : ℚ) / 2 ^ 149 := by
  rw [div_left_inj' (by positivity), Int.cast_inj]

/-- Finite floats compare as their numbers (rule R222). -/
theorem floatEq_iff {x y : Dword} {u v : ℚ} (hx : HasValue x u) (hy : HasValue y v) : floatEq x y = true ↔ u = v := by
  obtain ⟨s, n, hx, rfl⟩ := hx
  obtain ⟨t, m, hy, rfl⟩ := hy
  simp only [floatEq, hx, hy, decide_eq_true_iff, signedUnits_eq_iff]

theorem floatLt_iff {x y : Dword} {u v : ℚ} (hx : HasValue x u) (hy : HasValue y v) : floatLt x y = true ↔ u < v := by
  obtain ⟨s, n, hx, rfl⟩ := hx
  obtain ⟨t, m, hy, rfl⟩ := hy
  simp only [floatLt, hx, hy, decide_eq_true_iff, signedUnits_lt_iff]

/-- A NaN on either side fails every comparison (rule R222). -/
theorem compare_of_nan {x y : Dword} (h : floatValue x = .nan ∨ floatValue y = .nan) :
    floatEq x y = false ∧ floatLt x y = false := by
  rcases h with h | h
  · simp only [floatEq, floatLt, h, and_self]
  · cases hx : floatValue x <;> simp only [floatEq, floatLt, h, hx, and_self]

/-- Settles O49: finite floats compare as their numbers, and the other cases are those of the tests themselves. -/
theorem floatComparisonsCompareNumbers : Obligations.FloatComparisonsCompareNumbers := by
  refine ⟨fun x y u v hx hy => ⟨floatEq_iff hx hy, floatLt_iff hx hy⟩, fun x y hx => ?nan, ?infinite, ?infinities⟩
  case nan =>
    obtain ⟨heq, hlt⟩ := compare_of_nan (x := x) (y := y) (.inl hx)
    obtain ⟨heq', hlt'⟩ := compare_of_nan (x := y) (y := x) (.inr hx)
    exact ⟨heq, heq', hlt, hlt'⟩
  case infinite =>
    rintro x y v p hx ⟨t, m, hy, rfl⟩
    simp only [floatEq, floatLt, hx, hy, and_self]
  case infinities =>
    intro x y p q hx hy
    simp [floatEq, floatLt, hx, hy]

/-! ### The layout and the conversions -/

/-- The value of a pattern by its exponent field, `sign` the factor of its sign (rule R23). -/
theorem layout (neg : Bool) (e : BitVec 8) (f : BitVec 23) :
    let p : Dword := BitVec.ofBool neg ++ e ++ f
    (e = 255 → f = 0 → floatValue p = .infinite neg) ∧ (e = 255 → f ≠ 0 → floatValue p = .nan) ∧
      (e = 0 → HasValue p (signFactor neg * f.toNat / 2 ^ 149)) ∧
      (e ≠ 0 → e ≠ 255 → HasValue p (signFactor neg * (2 ^ 23 + f.toNat) * 2 ^ e.toNat / 2 ^ 150)) := by
  have hvalue := floatValue_packFloat neg e.isLt f.isLt
  rw [← append_eq_packFloat] at hvalue
  refine ⟨?infinite, ?nan, ?subnormal, ?normal⟩
  case infinite =>
    rintro rfl rfl
    exact hvalue
  case nan =>
    rintro rfl hf
    have hf' : f.toNat ≠ 0 := fun h => hf (BitVec.eq_of_toNat_eq h)
    exact hvalue.trans (if_neg hf')
  case subnormal =>
    rintro rfl
    exact (hasValue_iff_of_finite hvalue _).mpr rfl
  case normal =>
    intro h0 h255
    have h0' : e.toNat ≠ 0 := fun h => h0 (BitVec.eq_of_toNat_eq h)
    have h255' : e.toNat ≠ 255 := fun h => h255 (BitVec.eq_of_toNat_eq h)
    rw [if_neg h255', if_neg h0'] at hvalue
    refine (hasValue_iff_of_finite hvalue _).mpr ?_
    obtain ⟨k, hk⟩ := Nat.exists_eq_succ_of_ne_zero h0'
    rw [hk, Nat.shiftLeft_eq, Nat.succ_sub_one, Nat.succ_eq_add_one, pow_succ (2 : ℚ) 149, pow_succ (2 : ℚ) k]
    rw [Nat.cast_mul, Nat.cast_add, Nat.cast_pow, Nat.cast_pow, Nat.cast_ofNat, ← mul_assoc,
      mul_div_mul_right _ _ two_ne_zero, mul_assoc (signFactor neg)]

/-- Settles O51: the layout, the roundings of the integers, and the integer parts. -/
theorem integersAndFloats : Obligations.IntegersAndFloats :=
  ⟨layout, isRounding_intToFloat, fun _ => hasValue_intToFloat, intToFloat_zero,
    fun N _ _ h => floatToInt_of_hasValue h N, fun _ h => floatToInt_intToFloat h 32,
    fun N _ h => floatToInt_of_not_finite h N⟩

end Sys2Proof.Proofs

/-! The float conditionals (rules R228 to R231), what a word writer stores at each place (rules R134, R135), and the
words of the Float and Load formats. -/

namespace Sys2Proof.Proofs

open Sys2Proof.Machine

/-! ### The words of the Float and Load opcodes -/

/-- Three fields side by side are the first one above zeros, the second one shifted to its place, and the third. -/
theorem append_append_eq_or {m n : Nat} (x : BitVec m) (f : BitVec n) (g : BitVec 6) :
    x ++ f ++ g = (x ++ 0#n ++ 0#6) ||| (f.setWidth (m + n + 6) <<< 6) ||| g.setWidth (m + n + 6) := by
  have hshift : f.setWidth (m + n) ++ 0#6 = f.setWidth (m + n + 6) <<< 6 := by
    apply BitVec.eq_of_getLsbD_eq
    intro k hk
    simp only [BitVec.getLsbD_append, BitVec.getLsbD_shiftLeft, BitVec.getLsbD_setWidth]
    by_cases h6 : k < 6
    · simp [h6]
    · simp [h6, hk, show k - 6 < m + n by omega, show k - 6 < m + n + 6 by omega]
  rw [append_eq_or (x ++ f) g, append_eq_or x f, ← hshift, BitVec.or_append, BitVec.or_self]

/-- The first word of a Float instruction, `01ooooaaaabbbbbb`, and the words of its parameters (rules R93, R98). -/
theorem encodesTo_float (o : BitVec 4) {i : Instr} {a b : Operand} (hi : encode i = encodeFloat o a b)
    (hops : i.operands = [a, b]) (ha : a.fitsFourBits = true) :
    EncodesTo i (firstWordTwo (1#2 ++ o ++ 0#4 ++ 0#6) a b) := by
  have hnarrow : (a.field.setWidth 4).setWidth 16 = a.field.setWidth 16 := by
    have hfield := field_toNat_lt_of_fitsFourBits ha
    apply BitVec.eq_of_toNat_eq
    simp only [BitVec.toNat_setWidth]
    omega
  rw [EncodesTo, hi, hops, encodeFloat, append_append_eq_or, hnarrow]
  simp [firstWordTwo]

/-- The first word of a Load instruction, `001obbbbbbcccccc`, and the words of its parameters (rules R94, R98). -/
theorem encodesTo_load (o : BitVec 1) {i : Instr} {b c : Operand} (hi : encode i = encodeLoad o b c)
    (hops : i.operands = [b, c]) : EncodesTo i (firstWordTwo (1#3 ++ o ++ 0#6 ++ 0#6) b c) := by
  rw [EncodesTo, hi, hops, encodeLoad, append_append_eq_or]
  simp [firstWordTwo]

/-! ### The float conditionals -/

theorem exec_fife (a b : Operand) (s : State) : exec (.fife a b) s = floatTest floatEq a b s := rfl

theorem exec_fifn (a b : Operand) (s : State) : exec (.fifn a b) s = floatTest (fun x y => !floatEq x y) a b s := rfl

theorem exec_fifg (a b : Operand) (s : State) : exec (.fifg a b) s = floatTest (fun x y => floatLt y x) a b s := rfl

theorem exec_fifl (a b : Operand) (s : State) : exec (.fifl a b) s = floatTest floatLt a b s := rfl

/-- Floats that are equal are in no order (rule R222). -/
theorem not_floatLt_of_floatEq {x y : Dword} (h : floatEq x y = true) : floatLt x y = false ∧ floatLt y x = false := by
  cases hx : floatValue x with
  | nan => simp [floatEq, hx] at h
  | infinite s =>
    cases hy : floatValue y with
    | nan => simp [floatEq, hx, hy] at h
    | infinite t =>
      simp only [floatEq, hx, hy, beq_iff_eq] at h
      simp [floatLt, hx, hy, h]
    | finite t m => simp [floatEq, hx, hy] at h
  | finite s n =>
    cases hy : floatValue y with
    | nan => simp [floatEq, hx, hy] at h
    | infinite t => simp [floatEq, hx, hy] at h
    | finite t m =>
      simp only [floatEq, hx, hy, decide_eq_true_iff] at h
      simp [floatLt, hx, hy, h]

theorem hasValue_intToFloat_s16 (w : Word) : HasValue (intToFloat (s16 w)) (w.toInt : ℚ) :=
  hasValue_intToFloat (abs_s16_le w)

/-- Settles O50: each conditional is its test of the two floats read, and a word read as a float is exact. -/
theorem floatConditionals : Obligations.FloatConditionals := by
  refine ⟨fun a b s => ⟨⟨?fife, ?fifn, ?fifg, ?fifl⟩, instrCycles_pair rfl rfl, fun ha => ?words⟩,
    fun x y hx hy => ?zeros, fun x y => not_floatLt_of_floatEq, fun x y => compare_of_nan,
    fun s => ⟨⟨rfl, rfl⟩, fun r => ?reg, fun g x => ?ram, ?ex, ?pc, ?sp, fun w => ?lit, fun d => ?dreg⟩⟩
  case fife => rw [exec_fife]; exact floatTest_performsNextOnlyIf Iff.rfl
  case fifn => rw [exec_fifn]; exact floatTest_performsNextOnlyIf (by rw [Bool.not_eq_true'])
  case fifg => rw [exec_fifg]; exact floatTest_performsNextOnlyIf Iff.rfl
  case fifl => rw [exec_fifl]; exact floatTest_performsNextOnlyIf Iff.rfl
  case words =>
    exact ⟨encodesTo_float 0x6 rfl rfl ha, encodesTo_float 0x7 rfl rfl ha, encodesTo_float 0x8 rfl rfl ha,
      encodesTo_float 0x9 rfl rfl ha⟩
  case zeros => exact ⟨(floatEq_iff hx hy).mpr rfl, Bool.eq_false_iff.mpr (mt (floatLt_iff hx hy).mp (lt_irrefl _))⟩
  case dreg => exact isRounding_intToFloat _
  case reg | ram | ex | pc | sp | lit => exact hasValue_intToFloat_s16 _

/-! ### What a word writer stores -/

/-- The result of a word writer as an integer fits the 24 bits of a float (rule R135). -/
theorem abs_read_le (sg : Signedness) (w : Word) : |sg.read w| ≤ 2 ^ 24 := by
  cases sg with
  | unsigned => exact abs_uInt_le w
  | signed => exact abs_s16_le w

/-- As a word, the integer is the result again. -/
theorem ofInt_read (sg : Signedness) (w : Word) : BitVec.ofInt 16 (sg.read w) = w := by
  cases sg with
  | unsigned => exact (BitVec.ofInt_natCast 16 w.toNat).trans (BitVec.ofNat_toNat 16 w)
  | signed => exact BitVec.ofInt_toInt

/-- A place that is no literal reads back the word written to it (rules R134, R135). -/
theorem readW_writeW {p : Place} (hp : ∀ x, p ≠ .lit x) (w : Word) (sg : Signedness) (s : State) :
    readW p (writeW p w sg s) = w := by
  cases p with
  | regF f =>
    change floatToInt 16 ((s.setFreg f (intToFloat (sg.read w))).freg f) = w
    rw [freg_setFreg, if_pos rfl, floatToInt_intToFloat (abs_read_le sg w), ofInt_read]
  | lit x => exact absurd rfl (hp x)
  | _ => simp [readW, writeW]

theorem hasValue_writeW (f : FReg) (w : Word) (sg : Signedness) (s : State) :
    HasValue ((writeW (.regF f) w sg s).freg f)
      (match sg with | .unsigned => (w.toNat : ℚ) | .signed => (w.toInt : ℚ)) := by
  change HasValue ((s.setFreg f (intToFloat (sg.read w))).freg f) _
  have h := hasValue_intToFloat (abs_read_le sg w)
  rw [freg_setFreg, if_pos rfl]
  cases sg with
  | unsigned => exact h
  | signed => exact h

/-- Settles O31: a place keeps the word written to it, and reads and writes are by the kinds of places. -/
theorem wordReadAfterWrite : Obligations.WordReadAfterWrite := by
  refine ⟨fun p w sg s hp => ⟨readW_writeW hp w sg s, ?float⟩, fun s => ?reads, fun w sg s => ?writes⟩
  case float =>
    rintro f rfl
    exact hasValue_writeW f w sg s
  case reads =>
    exact ⟨⟨rfl, rfl, rfl, rfl, rfl, rfl, rfl, rfl, fun _ => rfl⟩, ⟨rfl, rfl, rfl⟩, fun _ => rfl, fun _ _ => rfl,
      ⟨rfl, rfl⟩, fun f q h => floatToInt_of_hasValue h 16⟩
  case writes =>
    exact ⟨⟨rfl, rfl, rfl, rfl, rfl, rfl, rfl, rfl, fun _ => rfl⟩, ⟨rfl, rfl, rfl⟩, fun _ => rfl, fun _ _ => rfl,
      ⟨rfl, rfl⟩, rfl, rfl⟩

end Sys2Proof.Proofs

/-! The moves of dwords (rules R140, R141, R232, R251 to R255): FSET between places that hold 32 bits and words, and SET
and DSET by the widths of source and destination. -/

namespace Sys2Proof.Proofs

open Sys2Proof.Machine

/-! ### FSET -/

/-- The places that hold 32 bits: dword registers, float registers, two words of RAM (rule R140). -/
def holdsDword : Place → Bool
  | .reg32 _ => true
  | .regF _ => true
  | .mem _ _ => true
  | _ => false

/-- A place that holds 32 bits keeps the pattern written to it (rules R140, R141). -/
theorem readFS_writeFS {p : Place} (hp : holdsDword p = true) (v : Dword) (s : State) :
    readFS p (writeFS p v s) = v := by
  cases p with
  | reg32 d => exact dreg_setDreg s d v
  | regF f => exact (freg_setFreg s f f v).trans (if_pos rfl)
  | mem g x => exact readDword_writeDword s g x v
  | _ => cases hp

/-- A word is read as the float of its signed value (rule R140). -/
theorem readFS_of_word {p : Place} (hp : holdsDword p = false) (s : State) :
    readFS p s = intToFloat (s16 (readW p s)) := by
  cases p with
  | reg32 d | regF f | mem g x => cases hp
  | _ => rfl

/-- A word takes the integer part of the float (rule R141). -/
theorem readW_writeFS {p : Place} (hp : holdsDword p = false) (hlit : ∀ w, p ≠ .lit w) (v : Dword) (s : State) :
    readW p (writeFS p v s) = floatToInt 16 v := by
  cases p with
  | reg32 d | regF f | mem g x => cases hp
  | lit w => exact absurd rfl (hlit w)
  | _ => simp [readW, writeFS]

theorem exec_fset (a b : Operand) (s : State) :
    let r := resolve2 a b s
    exec (.fset a b) s = .next (writeFS r.first (readFS r.second r.state) r.state) := rfl

/-- Settles O52: what is read of the destination is what FSET wrote, a pattern or an integer part. -/
theorem fsetMovesPatterns : Obligations.FsetMovesPatterns := by
  refine ⟨fun s => ⟨⟨rfl, rfl⟩, ⟨rfl, rfl⟩, fun g y => rfl⟩, fun a b s => ⟨encodesTo_float 0xb rfl rfl, _,
    exec_fset a b s, fun hfirst _ => ?pattern, fun hfirst hsecond => ?word, fun hfirst hlit => ?integer,
    fun g x hfirst => ?ram⟩⟩
  case pattern => exact readFS_writeFS hfirst _ _
  case word =>
    rw [readFS_writeFS hfirst, readFS_of_word hsecond]
    exact hasValue_intToFloat_s16 _
  case integer => exact readW_writeFS hfirst hlit _ _
  case ram =>
    rw [hfirst]
    exact ⟨readWord_writeDword_high _ _ _ _, readWord_writeDword_low _ _ _ _⟩

/-! ### DSET -/

theorem exec_dset (b c : Operand) (s : State) :
    let r := resolve2 b c s
    exec (.dset b c) s = .next (writeD r.first (readD r.second r.state) r.state) := rfl

/-- A source of 16 bits is read zero-extended, as its word (rule R136). -/
theorem readD_of_word {p : Place} (hp : holdsDword p = false) (s : State) :
    readD p s = ⟨(readW p s).zeroExtend 32, true⟩ := by
  cases p with
  | reg32 d | regF f | mem g x => cases hp
  | _ => rfl

theorem readD_only16 {p : Place} (hp : holdsDword p = true) (s : State) : (readD p s).only16 = false := by
  cases p with
  | reg32 d | regF f | mem g x => rfl
  | _ => cases hp

/-- A source of 16 bits changes the low half of a dword alone (rules R137, R253). -/
theorem writeD_of_only16 {v : DwordSource} (hv : v.only16 = true) (s : State) :
    (∀ d, writeD (.reg32 d) v s = s.setReg (lowHalf d) (lo16 v.value)) ∧
      ∀ g x, writeD (.mem g x) v s = s.writeWord g (x + 1) (lo16 v.value) := by
  simp [writeD, hv]

/-- A source of 32 bits replaces the dword (rule R137). -/
theorem writeD_of_not_only16 {v : DwordSource} (hv : v.only16 = false) (s : State) :
    (∀ d, writeD (.reg32 d) v s = s.setDreg d v.value) ∧
      ∀ g x, writeD (.mem g x) v s = s.writeDword g x v.value := by
  simp [writeD, hv]

/-- A dword register read as a dword and as a word, after the resolution (rules R134, R136). -/
theorem read_reg32 (d : DReg) (b c : Operand) (s : State) :
    let u := (resolve2 b c s).state
    (readD (.reg32 d) u).value = s.dreg d ∧ readW (.reg32 d) u = lo16 (s.dreg d) := by
  simp [readD, readW, State.dreg]

/-- A float register read as a dword and as a word, after the resolution (rules R134, R136). -/
theorem read_regF {f : FReg} {q : ℚ} {s : State} (hq : HasValue (s.freg f) q) (b c : Operand) :
    let u := (resolve2 b c s).state
    (readD (.regF f) u).value = BitVec.ofInt 32 (truncated q) ∧
      readW (.regF f) u = BitVec.ofInt 16 (truncated q) := by
  simp [readD, readW, floatToInt_of_hasValue hq]

theorem holdsDword_eq_false_iff (p : Place) :
    holdsDword p = false ↔ (∃ x, p = .reg16 x) ∨ p = .ex ∨ p = .pc ∨ p = .sp ∨ ∃ w, p = .lit w := by
  cases p <;> simp [holdsDword]

theorem holdsDword_eq_true_iff (p : Place) :
    holdsDword p = true ↔ (∃ d, p = .reg32 d) ∨ (∃ f, p = .regF f) ∨ ∃ g x, p = .mem g x := by
  cases p <;> simp [holdsDword]

/-- Settles O53: what DSET reads and writes by the kinds of places, and which of them are words. -/
theorem loads : Obligations.Loads := by
  intro b c s r v
  refine ⟨⟨encodesTo_load 0 rfl rfl, encodesTo_load 1 rfl rfl⟩, exec_set b c s, _, exec_dset b c s, fun g x h => ?ram,
    fun d h => ?dreg, fun f q h hq => ?freg, fun x h => ?reg, fun h => ?ex, fun h => ?pc, fun h => ?sp,
    fun h => ?fromWord, fun h => ?fromDword, fun f h => ?toFloat⟩
  case ram =>
    change (readD r.second r.state).value = _
    rw [h]
    rfl
  case dreg =>
    change (readD r.second r.state).value = _ ∧ _ = lo16 (readD r.second r.state).value
    obtain ⟨hvalue, hword⟩ := read_reg32 d b c s
    rw [h]
    exact ⟨hvalue, hword.trans (congrArg lo16 hvalue.symm)⟩
  case freg =>
    change (readD r.second r.state).value = _ ∧ _
    rw [h]
    exact read_regF hq b c
  case reg | ex | pc | sp =>
    rw [h]
    rfl
  case fromWord =>
    have hsource := readD_of_word ((holdsDword_eq_false_iff r.second).mpr h) r.state
    obtain ⟨hreg, hram⟩ := writeD_of_only16 (congrArg DwordSource.only16 hsource) r.state
    refine ⟨congrArg DwordSource.value hsource, fun d hd => ?_, fun g x hx => ?_⟩
    · rw [hd]
      exact hreg d
    · rw [hx]
      exact hram g x
  case fromDword =>
    have hwide := readD_only16 ((holdsDword_eq_true_iff r.second).mpr h) r.state
    obtain ⟨hreg, hram⟩ := writeD_of_not_only16 hwide r.state
    refine ⟨fun d hd => ?_, fun g x hx => ?_⟩
    · rw [hd, hreg d]
      exact dreg_setDreg _ _ _
    · rw [hx, hram g x]
      exact ⟨readWord_writeDword_high _ _ _ _, readWord_writeDword_low _ _ _ _⟩
  case toFloat =>
    have hround := isRounding_intToFloat (Int.ofNat v.toNat)
    rw [h]
    change IsRounding (v.toNat : ℚ) ((r.state.setFreg f (intToFloat (Int.ofNat v.toNat))).freg f)
    rw [freg_setFreg, if_pos rfl]
    exact hround

end Sys2Proof.Proofs

/-! The float arithmetic (rules R221, R226, R227): the results of finite operands are correctly rounded, and what NaNs,
infinities and zeros give. -/

namespace Sys2Proof.Proofs

open Sys2Proof.Machine

/-! ### Signs -/

theorem signFactor_xor (s t : Bool) : signFactor (s ^^ t) = signFactor s * signFactor t := by
  cases s <;> cases t <;> simp [signFactor]

theorem signFactor_mul_self (s : Bool) : signFactor s * signFactor s = 1 := by cases s <;> simp [signFactor]

theorem signFactor_div (s t : Bool) : signFactor s / signFactor t = signFactor (s ^^ t) := by
  rw [signFactor_xor, div_eq_iff (signFactor_ne_zero t), mul_assoc, signFactor_mul_self, mul_one]

/-- Every pattern with its sign bit inverted (rule R221). -/
theorem floatNegate_packFloat (neg : Bool) (e f : Nat) : floatNegate (packFloat neg e f) = packFloat (!neg) e f := by
  have hmask : (0x80000000 : Dword) = 1#1 ++ 0#8 ++ 0#23 := rfl
  rw [floatNegate, packFloat, packFloat, hmask, BitVec.xor_append, BitVec.xor_append, BitVec.xor_zero, BitVec.xor_zero]
  cases neg <;> rfl

theorem floatNegate_floatNegate (p : Dword) : floatNegate (floatNegate p) = p := by
  rw [floatNegate, floatNegate, BitVec.xor_assoc, BitVec.xor_self, BitVec.xor_zero]

/-- A number with its sign inverted. -/
def negatedValue : FloatValue → FloatValue
  | .nan => .nan
  | .infinite neg => .infinite (!neg)
  | .finite neg n => .finite (!neg) n

theorem floatValue_floatNegate (p : Dword) : floatValue (floatNegate p) = negatedValue (floatValue p) := by
  obtain ⟨neg, e, f, he, hf, rfl⟩ := exists_packFloat p
  rw [floatNegate_packFloat, floatValue_packFloat _ he hf, floatValue_packFloat _ he hf]
  split
  · split <;> rfl
  · split <;> rfl

theorem signedUnits_not (neg : Bool) (n : Nat) : signedUnits (!neg) n = -signedUnits neg n := by
  cases neg <;> simp [signedUnits]

theorem hasValue_floatNegate {p : Dword} {q : ℚ} (h : HasValue p q) : HasValue (floatNegate p) (-q) := by
  obtain ⟨neg, n, hp, rfl⟩ := h
  refine ⟨!neg, n, by rw [floatValue_floatNegate, hp, negatedValue], ?_⟩
  rw [signedUnits_not, Int.cast_neg, neg_div]

/-! ### The arithmetic of finite operands -/

/-- FADD rounds the exact sum once (rule R221). -/
theorem isRounding_floatAdd {x y : Dword} {u v : ℚ} (hx : HasValue x u) (hy : HasValue y v) (nan : Dword) :
    IsRounding (u + v) (floatAdd nan x y) := by
  obtain ⟨s, n, hx, rfl⟩ := hx
  obtain ⟨t, m, hy, rfl⟩ := hy
  simp only [floatAdd, hx, hy]
  rw [← add_div, ← Int.cast_add]
  generalize signedUnits s n + signedUnits t m = sum
  split
  case isTrue h =>
    rw [h, Int.cast_zero, zero_div]
    exact isRounding_of_hasValue (hasValue_zeroOf _)
  case isFalse h =>
    have hr := isRounding_roundUnits (decide (sum < 0)) sum.natAbs (den := 1) one_pos
    rwa [Nat.cast_one, div_one, signFactor_mul_natAbs] at hr

theorem isRounding_floatSub {x y : Dword} {u v : ℚ} (hx : HasValue x u) (hy : HasValue y v) (nan : Dword) :
    IsRounding (u - v) (floatSub nan x y) := by
  rw [sub_eq_add_neg]
  exact isRounding_floatAdd hx (hasValue_floatNegate hy) nan

/-- FMUL rounds the exact product once (rule R221). -/
theorem isRounding_floatMul {x y : Dword} {u v : ℚ} (hx : HasValue x u) (hy : HasValue y v) (nan : Dword) :
    IsRounding (u * v) (floatMul nan x y) := by
  obtain ⟨s, n, hx, rfl⟩ := hx
  obtain ⟨t, m, hy, rfl⟩ := hy
  simp only [floatMul, hx, hy]
  have hr := isRounding_roundUnits (s ^^ t) (n * m) (den := 2 ^ 149) (by positivity)
  have hvalue : (signedUnits s n : ℚ) / 2 ^ 149 * (signedUnits t m / 2 ^ 149) =
      signFactor (s ^^ t) * ((n * m : ℕ) / (2 ^ 149 : ℕ)) / 2 ^ 149 := by
    rw [signedUnits_eq, signedUnits_eq, signFactor_xor, Nat.cast_mul, Nat.cast_pow, Nat.cast_ofNat]
    ring
  rwa [hvalue]

theorem isFloatZero_of_ne_zero {y : Dword} {v : ℚ} (hy : HasValue y v) (hv : v ≠ 0) : isFloatZero y = false := by
  rw [Bool.eq_false_iff, Ne, isFloatZero_iff]
  intro h0
  obtain ⟨t, m, hp, rfl⟩ := hy
  rw [hasValue_iff_of_finite hp, ← signedUnits_eq] at h0
  exact hv h0.symm

/-- The quotient of two numbers of units. -/
theorem units_div (s t : Bool) (n m : Nat) :
    (signedUnits s n : ℚ) / 2 ^ 149 / (signedUnits t m / 2 ^ 149) = signFactor (s ^^ t) * (n / m) := by
  rw [div_div_div_cancel_right₀ (by positivity), signedUnits_eq, signedUnits_eq, mul_div_mul_comm, signFactor_div]

theorem units_ne_zero {t : Bool} {m : Nat} (h : (signedUnits t m : ℚ) / 2 ^ 149 ≠ 0) : m ≠ 0 := by
  rw [signedUnits_eq] at h
  exact mt (value_eq_zero_iff t m).mpr h

/-- FDIV rounds the exact quotient once (rules R221, R226). -/
theorem isRounding_floatDiv {x y : Dword} {u v : ℚ} (hx : HasValue x u) (hy : HasValue y v) (hv : v ≠ 0)
    (nan : Dword) : IsRounding (u / v) (floatDiv nan x y) := by
  have hy0 := isFloatZero_of_ne_zero hy hv
  obtain ⟨s, n, hx, rfl⟩ := hx
  obtain ⟨t, m, hy, rfl⟩ := hy
  have hm := units_ne_zero hv
  simp only [floatDiv, hx, hy, hy0, Bool.false_eq_true, if_false]
  have hr := isRounding_roundUnits (s ^^ t) (n <<< 149) (Nat.pos_of_ne_zero hm)
  have hunit : (2 : ℚ) ^ 149 ≠ 0 := by positivity
  have hquot : (n : ℚ) / m = (n * 2 ^ 149 : ℕ) / m / 2 ^ 149 := by
    rw [Nat.cast_mul, Nat.cast_pow, Nat.cast_ofNat, div_right_comm, mul_div_cancel_right₀ _ hunit]
  rw [units_div, hquot, ← mul_div_assoc, ← Nat.shiftLeft_eq]
  exact hr

/-- The remainder of two magnitudes has 24 bits at the finer of their spacings. -/
theorem mod_form {a b : Nat} (ha : a < 2 ^ 24) (hb : b < 2 ^ 24) (hpos : 0 < b) (i j : Nat) :
    ∃ c k, a * 2 ^ i % (b * 2 ^ j) = c * 2 ^ k ∧ c ≤ 2 ^ 24 := by
  rcases Nat.le_total i j with h | h
  · obtain ⟨d, rfl⟩ := Nat.exists_eq_add_of_le h
    refine ⟨a % (b * 2 ^ d), i, ?_, (Nat.mod_le _ _).trans ha.le⟩
    rw [pow_add, mul_comm (2 ^ i), ← mul_assoc, Nat.mul_mod_mul_right]
  · obtain ⟨d, rfl⟩ := Nat.exists_eq_add_of_le h
    refine ⟨a * 2 ^ d % b, j, ?_, (Nat.mod_lt _ hpos).le.trans hb.le⟩
    rw [pow_add, mul_comm (2 ^ j), ← mul_assoc, Nat.mul_mod_mul_right]

/-- The remainder of two finite magnitudes is held exactly, so that its rounding is it (rule R227). -/
theorem hasValue_roundUnits_mod {x y : Dword} {s t : Bool} {n m : Nat} (hx : floatValue x = .finite s n)
    (hy : floatValue y = .finite t m) (hm : m ≠ 0) :
    HasValue (roundUnits s (n % m) 1) (signFactor s * (n % m : ℕ) / 2 ^ 149) := by
  have hlt : n % m < 2 ^ 277 := by
    calc n % m ≤ n := Nat.mod_le _ _
      _ ≤ 0xffffff * 2 ^ 253 := units_le hx
      _ < 2 ^ 24 * 2 ^ 253 := Nat.mul_lt_mul_of_pos_right (by norm_num) (by positivity)
      _ = 2 ^ 277 := by rw [← pow_add]
  obtain ⟨a, i, hn, ha, _⟩ := finite_form hx
  obtain ⟨b, j, hmb, hb, _⟩ := finite_form hy
  have hpos : 0 < b := Nat.pos_of_ne_zero (by rintro rfl; exact hm (by rw [hmb, Nat.zero_mul]))
  obtain ⟨c, k, hmod, hc⟩ := mod_form ha hb hpos i j
  rw [← hn, ← hmb] at hmod
  rw [hmod] at hlt ⊢
  exact hasValue_roundUnits hc hlt

/-- The dividend less the divisor times the quotient toward zero is the remainder, with the sign of the dividend. -/
theorem units_mod (s t : Bool) (n m : Nat) :
    (signedUnits s n : ℚ) / 2 ^ 149 - signedUnits t m / 2 ^ 149 * truncated (signFactor (s ^^ t) * ((n : ℚ) / m)) =
      signFactor s * (n % m : ℕ) / 2 ^ 149 := by
  have hn : (n : ℚ) = m * (n / m : ℕ) + (n % m : ℕ) := by exact_mod_cast (Nat.div_add_mod n m).symm
  rw [truncated_signFactor_mul, signedUnits_eq, signedUnits_eq, signedUnits_eq, signFactor_xor]
  calc signFactor s * n / 2 ^ 149 - signFactor t * m / 2 ^ 149 * (signFactor s * signFactor t * (n / m : ℕ))
      = signFactor s * (n - m * (n / m : ℕ) * (signFactor t * signFactor t)) / 2 ^ 149 := by ring
    _ = signFactor s * (n % m : ℕ) / 2 ^ 149 := by
        rw [signFactor_mul_self, mul_one, sub_eq_of_eq_add' hn]

/-- FMOD is the exact remainder of the division toward zero (rule R227). -/
theorem hasValue_floatMod {x y : Dword} {u v : ℚ} (hx : HasValue x u) (hy : HasValue y v) (hv : v ≠ 0)
    (nan : Dword) : HasValue (floatMod nan x y) (u - v * truncated (u / v)) := by
  have hy0 := isFloatZero_of_ne_zero hy hv
  obtain ⟨s, n, hx, rfl⟩ := hx
  obtain ⟨t, m, hy, rfl⟩ := hy
  simp only [floatMod, hx, hy, hy0, Bool.false_eq_true, if_false]
  rw [units_div, units_mod]
  exact hasValue_roundUnits_mod hx hy (units_ne_zero hv)

/-- A zero divisor gives +0.0, whatever the dividend (rules R226, R227). -/
theorem divide_by_zero {y : Dword} (hy : HasValue y 0) (nan x : Dword) :
    floatDiv nan x y = 0 ∧ floatMod nan x y = 0 := by
  have hzero := (isFloatZero_iff y).mpr hy
  rw [floatDiv, floatMod, if_pos hzero, if_pos hzero]
  exact ⟨rfl, rfl⟩

/-- A float written to a place that is no float register: its integer part at the place's width (rule R139). -/
theorem writeF_of_hasValue {p : Dword} {q : ℚ} (h : HasValue p q) (s : State) :
    let w := BitVec.ofInt 16 (truncated q)
    (∀ x, writeF (.reg16 x) p s = s.setReg x w) ∧
      (∀ d, writeF (.reg32 d) p s = s.setDreg d (BitVec.ofInt 32 (truncated q))) ∧
      (∀ g x, writeF (.mem g x) p s = s.writeWord g x w) ∧ writeF .ex p s = { s with ex := w } ∧
      writeF .pc p s = { s with pc := w } ∧ writeF .sp p s = { s with sp := w } ∧ ∀ x, writeF (.lit x) p s = s := by
  simp [writeF, floatToInt_of_hasValue h]

/-- The next state of a float opcode whose result is `v` (rules R220, R221). -/
theorem floatWrite_eq_next {f : Dword → Dword → Dword → Dword} {a b : Operand} {s : State} {v : Dword} :
    let r := resolve2 a b s
    f (freshNan s.draws) (readF r.first r.state) (readF r.second r.state) = v →
      floatWrite f a b s = .next (writeF r.first v { r.state with draws := s.draws + 1 }) := by
  intro r h
  rw [← h, floatWrite]

/-- Settles O47: each opcode writes its function of the two floats read, and the functions round once, or are exact. -/
theorem floatArithmeticIsCorrectlyRounded : Obligations.FloatArithmeticIsCorrectlyRounded := by
  refine ⟨fun a b s => ⟨fun u v hx hy => ?rounded, fun hy => ?zero, rfl, rfl, rfl, rfl, rfl, fun ha => ?words⟩,
    fun p s => ⟨rfl, rfl⟩, fun p q s h => writeF_of_hasValue h s⟩
  case rounded =>
    exact ⟨⟨_, rfl, isRounding_floatAdd hx hy _⟩, ⟨_, rfl, isRounding_floatSub hx hy _⟩,
      ⟨_, rfl, isRounding_floatMul hx hy _⟩, fun hv => ⟨_, rfl, isRounding_floatDiv hx hy hv _⟩,
      fun hv => ⟨_, rfl, hasValue_floatMod hx hy hv _⟩⟩
  case zero =>
    obtain ⟨hdiv, hmod⟩ := divide_by_zero hy (freshNan s.draws) (readF (resolve2 a b s).first (resolve2 a b s).state)
    exact ⟨floatWrite_eq_next (f := floatDiv) hdiv, floatWrite_eq_next (f := floatMod) hmod⟩
  case words =>
    exact ⟨encodesTo_float 0x0 rfl rfl ha, encodesTo_float 0x1 rfl rfl ha, encodesTo_float 0x2 rfl rfl ha,
      encodesTo_float 0x3 rfl rfl ha, encodesTo_float 0x4 rfl rfl ha⟩

end Sys2Proof.Proofs

/-! The special values of the float opcodes (rules R221, R226, R227): NaNs, infinities, and the signs of zeros. -/

namespace Sys2Proof.Proofs

open Sys2Proof.Machine

/-! ### The sign bit -/

/-- The sign bit alone is a zero of that sign. -/
theorem and_signBit (p : Dword) : p &&& 0x80000000 = zeroOf (p.getLsbD 31) := by
  have hmask : (0x80000000 : Dword).toNat = 2 ^ 31 := by decide
  apply BitVec.eq_of_toNat_eq
  rw [zeroOf, packFloat_toNat _ (by norm_num) (by norm_num), BitVec.toNat_and, hmask, Nat.and_two_pow,
    BitVec.testBit_toNat, Nat.zero_mul, Nat.add_zero]

theorem signBit_packFloat (neg : Bool) (e f : Nat) : (packFloat neg e f).getLsbD 31 = neg := by
  simp only [packFloat, BitVec.getLsbD_append]
  cases neg <;> rfl

theorem signBit_of_finite {p : Dword} {neg : Bool} {n : Nat} (h : floatValue p = .finite neg n) :
    p.getLsbD 31 = neg := by
  simp only [floatValue] at h
  split at h
  · split at h <;> cases h
  · split at h <;> cases h <;> rfl

theorem signBit_of_infinite {p : Dword} {neg : Bool} (h : floatValue p = .infinite neg) : p.getLsbD 31 = neg := by
  simp only [floatValue] at h
  split at h
  · split at h <;> cases h
    rfl
  · split at h <;> cases h

/-- The sign of a product or a quotient, as a zero. -/
theorem xor_and_signBit {x y : Dword} {s t : Bool} (hx : x.getLsbD 31 = s) (hy : y.getLsbD 31 = t) :
    (x ^^^ y) &&& 0x80000000 = zeroOf (s ^^ t) := by
  rw [and_signBit, BitVec.getLsbD_xor, hx, hy]

/-! ### The patterns of infinities, zeros and NaNs -/

/-- There is one infinity of each sign. -/
theorem eq_infinityOf {p : Dword} {neg : Bool} (h : floatValue p = .infinite neg) : p = infinityOf neg := by
  obtain ⟨s, e, f, he, hf, rfl⟩ := exists_packFloat p
  rw [floatValue_packFloat s he hf] at h
  split at h
  case isTrue h255 =>
    split at h
    case isTrue h0 =>
      cases h
      rw [h255, h0, infinityOf]
    case isFalse => cases h
  case isFalse => split at h <;> cases h

/-- There is one zero of each sign. -/
theorem eq_zeroOf {p : Dword} {neg : Bool} (h : floatValue p = .finite neg 0) : p = zeroOf neg := by
  obtain ⟨s, e, f, he, hf, rfl⟩ := exists_packFloat p
  rw [floatValue_packFloat s he hf] at h
  split at h
  case isTrue => split at h <;> cases h
  case isFalse =>
    split at h
    case isTrue h0 =>
      cases h
      rw [h0, zeroOf]
    case isFalse =>
      injection h with _ hn
      rw [Nat.shiftLeft_eq] at hn
      exact absurd hn (by positivity)

/-- A pattern with a sign and the number 0 is the zero of the sign. -/
theorem packFloat_eq_zeroOf {neg : Bool} {e f : Nat} (h : HasValue (packFloat neg e f) 0) :
    packFloat neg e f = zeroOf neg := by
  obtain ⟨s, n, hp, h0⟩ := id h
  rw [(hasValue_zero_iff hp).mp h] at hp
  have hs : s = neg := (signBit_of_finite hp).symm.trans (signBit_packFloat neg e f)
  rw [← hs] at hp ⊢
  exact eq_zeroOf hp

/-- What is rounded keeps its sign. -/
theorem packUnits_form (neg : Bool) (q k : Nat) : ∃ e f, packUnits neg q k = packFloat neg e f := by
  rw [packUnits]
  split
  · exact ⟨0, q, rfl⟩
  · split
    · split
      · exact ⟨k + 1, q - 2 ^ 23, rfl⟩
      · exact ⟨255, 0, rfl⟩
    · split
      · exact ⟨k + 2, 0, rfl⟩
      · exact ⟨255, 0, rfl⟩

/-- A result that is rounded to 0 keeps its sign (rule R221). -/
theorem roundUnits_eq_zeroOf {neg : Bool} {num den : Nat} (h : HasValue (roundUnits neg num den) 0) :
    roundUnits neg num den = zeroOf neg := by
  obtain ⟨e, f, hp⟩ : ∃ e f, roundUnits neg num den = packFloat neg e f := packUnits_form _ _ _
  rw [hp] at h ⊢
  exact packFloat_eq_zeroOf h

theorem floatValue_eq_nan {p : Dword} (he : p.extractLsb' 23 8 = 255) (hf : p.extractLsb' 0 23 ≠ 0) :
    floatValue p = .nan := by
  have hf' : (p.extractLsb' 0 23).toNat ≠ 0 := fun h => hf (BitVec.eq_of_toNat_eq h)
  simp only [floatValue]
  rw [he]
  exact (if_pos rfl).trans (if_neg hf')

/-- The pattern made of a draw is a NaN, whatever was drawn (rule R221). -/
theorem floatValue_freshNan (draw : Nat) : floatValue (freshNan draw) = .nan := by
  have hexp : ∀ {p m : Dword}, m.extractLsb' 23 8 = 255 → (p ||| m).extractLsb' 23 8 = 255 := fun {p m} hm => by
    rw [BitVec.extractLsb'_or, hm]
    exact BitVec.or_allOnes
  rw [freshNan]
  split
  case isTrue h0 =>
    refine floatValue_eq_nan (hexp (by decide)) ?_
    rw [BitVec.extractLsb'_or, h0]
    decide
  case isFalse h0 =>
    refine floatValue_eq_nan (hexp (by decide)) ?_
    have hmask : (0x7f800000 : Dword).extractLsb' 0 23 = 0#23 := by decide
    rw [BitVec.extractLsb'_or, hmask, BitVec.or_zero]
    exact h0

/-! ### NaNs -/

/-- A NaN operand gives the NaN drawn, but for a zero divisor (rules R221, R226, R227). -/
theorem arithmetic_of_nan {x y : Dword} (h : floatValue x = .nan ∨ floatValue y = .nan) (nan : Dword) :
    floatAdd nan x y = nan ∧ floatSub nan x y = nan ∧ floatMul nan x y = nan ∧
      (¬ HasValue y 0 → floatDiv nan x y = nan ∧ floatMod nan x y = nan) := by
  have hadd : ∀ {z}, floatValue x = .nan ∨ floatValue z = .nan → floatAdd nan x z = nan := by
    rintro z (hx | hz)
    · simp only [floatAdd, hx]
    · cases hx : floatValue x <;> simp only [floatAdd, hx, hz]
  refine ⟨hadd h, hadd (h.imp_right fun hy => ?_), ?_, fun h0 => ?_⟩
  · rw [floatValue_floatNegate, hy, negatedValue]
  · rcases h with hx | hy
    · simp only [floatMul, hx]
    · cases hx : floatValue x <;> simp only [floatMul, hx, hy]
  · have hzero : isFloatZero y = false := Bool.eq_false_iff.mpr (mt (isFloatZero_iff y).mp h0)
    rw [floatDiv, floatMod, hzero]
    rcases h with hx | hy
    · simp [hx]
    · cases floatValue x <;> simp [hy]

/-! ### Infinities -/

theorem isFloatZero_of_infinite {y : Dword} {t : Bool} (h : floatValue y = .infinite t) : isFloatZero y = false :=
  Bool.eq_false_iff.mpr (mt (isFloatZero_iff y).mp (not_hasValue_of_infinite h 0))

theorem floatAdd_infinities {x y : Dword} {p q : Bool} (hx : floatValue x = .infinite p)
    (hy : floatValue y = .infinite q) (nan : Dword) : floatAdd nan x y = if p = q then x else nan := by
  simp only [floatAdd, hx, hy, ← eq_infinityOf hx]

/-- Two infinities (rules R221, R226, R227). -/
theorem arithmetic_of_infinities {x y : Dword} {p q : Bool} (hx : floatValue x = .infinite p)
    (hy : floatValue y = .infinite q) (nan : Dword) :
    (p = q → floatAdd nan x y = x ∧ floatSub nan x y = nan) ∧ (p ≠ q → floatAdd nan x y = nan ∧ floatSub nan x y = x) ∧
      floatMul nan x y = infinityOf (p != q) ∧ floatDiv nan x y = nan ∧ floatMod nan x y = nan := by
  have hneg : floatValue (floatNegate y) = .infinite (!q) := by rw [floatValue_floatNegate, hy, negatedValue]
  rw [floatSub, floatAdd_infinities hx hy, floatAdd_infinities hx hneg]
  refine ⟨fun h => ⟨if_pos h, if_neg ?_⟩, fun h => ⟨if_neg h, if_pos ?_⟩, ?_, ?_, ?_⟩
  · rw [h]
    exact Bool.self_ne_not q
  · exact Bool.eq_not_iff.mpr h
  · simp only [floatMul, hx, hy]
  · simp [floatDiv, isFloatZero_of_infinite hy, hx, hy]
  · simp [floatMod, isFloatZero_of_infinite hy, hx, hy]

theorem value_neg_iff {t : Bool} {m : Nat} (h : (signedUnits t m : ℚ) / 2 ^ 149 ≠ 0) :
    decide ((signedUnits t m : ℚ) / 2 ^ 149 < 0) = t := by
  have hm : (0 : ℚ) < m := by exact_mod_cast Nat.pos_of_ne_zero (units_ne_zero h)
  have hpos : (0 : ℚ) < m / 2 ^ 149 := by positivity
  cases t with
  | false => simpa [signedUnits] using hpos.le
  | true => simpa [signedUnits, neg_div] using hpos

/-- An infinity and a finite number (rules R221, R226, R227). -/
theorem arithmetic_of_infinite {x y : Dword} {p : Bool} {v : ℚ} (hx : floatValue x = .infinite p)
    (hv : HasValue y v) (nan : Dword) :
    floatAdd nan x y = x ∧ floatSub nan x y = x ∧ floatAdd nan y x = x ∧ floatSub nan y x = infinityOf (!p) ∧
      (v = 0 → floatMul nan x y = nan ∧ floatMul nan y x = nan) ∧
      (v ≠ 0 → floatDiv nan x y = floatMul nan x y ∧ floatMod nan x y = nan ∧
        floatMul nan x y = infinityOf (p != decide (v < 0)) ∧ floatMul nan y x = floatMul nan x y) ∧
      floatDiv nan y x = (y ^^^ x) &&& 0x80000000 ∧ floatMod nan y x = y := by
  have hv' := hv
  obtain ⟨t, m, hy, rfl⟩ := hv
  have hnegx : floatValue (floatNegate x) = .infinite (!p) := by rw [floatValue_floatNegate, hx, negatedValue]
  have hnegy : floatValue (floatNegate y) = .finite (!t) m := by rw [floatValue_floatNegate, hy, negatedValue]
  refine ⟨?_, ?_, ?_, ?_, fun h0 => ?zero, fun h0 => ?nonzero, ?div, ?mod⟩
  · simp only [floatAdd, hx, hy, ← eq_infinityOf hx]
  · simp only [floatSub, floatAdd, hx, hnegy, ← eq_infinityOf hx]
  · simp only [floatAdd, hx, hy, ← eq_infinityOf hx]
  · simp only [floatSub, floatAdd, hnegx, hy]
  case zero =>
    rw [h0] at hv'
    have hm := (hasValue_zero_iff hy).mp hv'
    simp [floatMul, hx, hy, hm]
  case nonzero =>
    have hm := units_ne_zero h0
    rw [value_neg_iff h0]
    simp [floatDiv, floatMod, floatMul, hx, hy, hm, isFloatZero_of_ne_zero hv' h0, Bool.xor_comm t p]
  case div =>
    rw [xor_and_signBit (signBit_of_finite hy) (signBit_of_infinite hx)]
    simp [floatDiv, isFloatZero_of_infinite hx, hx, hy]
  case mod => simp [floatMod, isFloatZero_of_infinite hx, hx, hy]

/-! ### Zeros -/

theorem floatAdd_of_opposites {x y : Dword} {s t : Bool} {n m : Nat} (hx : floatValue x = .finite s n)
    (hy : floatValue y = .finite t m) (h : signedUnits s n + signedUnits t m = 0) (nan : Dword) :
    floatAdd nan x y = zeroOf (s && t) := by
  simp only [floatAdd, hx, hy]
  exact if_pos h

/-- A number less itself is +0.0 (rule R221). -/
theorem floatSub_self {x : Dword} {v : ℚ} (hx : HasValue x v) (nan : Dword) : floatSub nan x x = 0 := by
  obtain ⟨s, n, hx, _⟩ := hx
  have hneg : floatValue (floatNegate x) = .finite (!s) n := by rw [floatValue_floatNegate, hx, negatedValue]
  rw [floatSub, floatAdd_of_opposites hx hneg (by rw [signedUnits_not, add_neg_cancel]), Bool.and_not_self]
  rfl

/-- A zero and itself is the zero (rule R221). -/
theorem floatAdd_zero_self {x : Dword} (hx : HasValue x 0) (nan : Dword) : floatAdd nan x x = x := by
  obtain ⟨s, n, hp, _⟩ := id hx
  rw [(hasValue_zero_iff hp).mp hx] at hp
  rw [floatAdd_of_opposites hp hp (by cases s <;> rfl), Bool.and_self, eq_zeroOf hp]

/-- What is 0 and rounded to 0 is a zero: the format has no other number there. -/
theorem hasValue_zero_of_isRounding {p : Dword} (h : IsRounding 0 p) : HasValue p 0 :=
  hasValue_of_isRounding h (hasValue_zeroOf false)

/-- A product that is 0 in the format has the sign of the product (rule R221). -/
theorem floatMul_eq_zero {x y : Dword} {u v : ℚ} (hx : HasValue x u) (hy : HasValue y v) {nan : Dword}
    (h : HasValue (floatMul nan x y) 0) : floatMul nan x y = (x ^^^ y) &&& 0x80000000 := by
  obtain ⟨s, n, hx, _⟩ := hx
  obtain ⟨t, m, hy, _⟩ := hy
  rw [xor_and_signBit (signBit_of_finite hx) (signBit_of_finite hy)]
  simp only [floatMul, hx, hy] at h ⊢
  exact roundUnits_eq_zeroOf h

/-- A quotient that is 0 in the format has the sign of the quotient (rule R226). -/
theorem floatDiv_eq_zero {x y : Dword} {u v : ℚ} (hx : HasValue x u) (hy : HasValue y v) (hv : v ≠ 0) {nan : Dword}
    (h : HasValue (floatDiv nan x y) 0) : floatDiv nan x y = (x ^^^ y) &&& 0x80000000 := by
  have hy0 := isFloatZero_of_ne_zero hy hv
  obtain ⟨s, n, hx, _⟩ := hx
  obtain ⟨t, m, hy, _⟩ := hy
  rw [xor_and_signBit (signBit_of_finite hx) (signBit_of_finite hy)]
  simp only [floatDiv, hx, hy, hy0, Bool.false_eq_true, if_false] at h ⊢
  exact roundUnits_eq_zeroOf h

/-- A remainder that is 0 has the sign of the dividend (rule R227). -/
theorem floatMod_eq_zero {x y : Dword} {u v : ℚ} (hx : HasValue x u) (hy : HasValue y v) (hv : v ≠ 0) {nan : Dword}
    (h : HasValue (floatMod nan x y) 0) : floatMod nan x y = x &&& 0x80000000 := by
  have hy0 := isFloatZero_of_ne_zero hy hv
  obtain ⟨s, n, hx, _⟩ := hx
  obtain ⟨t, m, hy, _⟩ := hy
  rw [and_signBit, signBit_of_finite hx]
  simp only [floatMod, hx, hy, hy0, Bool.false_eq_true, if_false] at h ⊢
  exact roundUnits_eq_zeroOf h

/-- Settles O48: a NaN gives the draw, an infinity is told from the finite numbers by its pattern, and a zero keeps the
sign it is rounded with. -/
theorem floatSpecialValues : Obligations.FloatSpecialValues := by
  refine ⟨floatValue_freshNan, fun nan x y h => arithmetic_of_nan h nan,
    fun nan x y p q hx hy => arithmetic_of_infinities hx hy nan,
    fun nan x y p v hx hy => arithmetic_of_infinite hx hy nan,
    fun nan x v hx => ⟨floatSub_self hx nan, floatSub_self hx nan⟩, fun nan x hx => ⟨floatAdd_zero_self hx nan, ?sub⟩,
    fun nan x y u v hx hy => ⟨fun h0 => floatMul_eq_zero hx hy ?mul, floatMul_eq_zero hx hy,
      fun hv h0 => floatDiv_eq_zero hx hy hv ?div, fun hv => floatDiv_eq_zero hx hy hv,
      fun hv => floatMod_eq_zero hx hy hv⟩⟩
  case sub =>
    rw [floatSub, floatNegate_floatNegate]
    exact floatAdd_zero_self hx nan
  case mul =>
    have hround := isRounding_floatMul hx hy nan
    rw [mul_eq_zero.mpr h0] at hround
    exact hasValue_zero_of_isRounding hround
  case div =>
    have hround := isRounding_floatDiv hx hy hv nan
    rw [h0, zero_div] at hround
    exact hasValue_zero_of_isRounding hround

end Sys2Proof.Proofs
